-- ==== Sys2Proof/Word.lean ====
section
/-! DEFINITION. The words of the machine: a byte, a 16-bit word, a nibble (spec/00_scope.md R9), and the
character codes the wire protocol names (spec/30_encoding.md R91; their values are the ASCII table's, G1). -/

namespace Sys2Proof

/-- A byte: 8 bits (R9). -/
abbrev Byte := BitVec 8

/-- A word: 16 bits (R9). -/
abbrev Word := BitVec 16

/-- A nibble: 4 bits (R9). -/
abbrev Nibble := BitVec 4

/-- ESC, the cancel character (R91). -/
def chEsc : Byte := 0x1B

/-- CR, a line terminator (R91). -/
def chCr : Byte := 0x0D

/-- LF, a line terminator (R91). -/
def chLf : Byte := 0x0A

/-- The record marker, a colon (R91, R95). -/
def chColon : Byte := 0x3A

/-- `ERASED`, the flash's erased-byte value, all bits set (R8). -/
def erased : Byte := 0xFF

end Sys2Proof
end

