-- ==== Sys2Proof/Config.lean ====
section
/-! DEFINITION. What the spec leaves to an implementation: the parameters of spec/00_scope.md R8 with their constraints (and `APP_ENTRY`, which R8 fixes), the output texts of
spec/30_encoding.md R110 to R112 (treatment U15: parameters), and the one source of free values (treatments U4, U5, U6, U8). -/

namespace Sys2Proof

/-- The error flag set `ERR` (spec/10_state.md R31): receiver overrun, framing error, inbound-buffer overflow. -/
structure ErrFlags where
  ovr : Bool
  fe : Bool
  buf : Bool
  deriving DecidableEq, Repr

/-- The protocol and content faults, class (b) of spec/60_exceptions.md R291. -/
inductive Cause where
  | addrFirst
  | addrRegress
  | verifyMismatch
  | checksum
  deriving DecidableEq, Repr

/-- The arguments of the parameter function `STR_DIAG` (R111): the cause, the Line Buffer's characters, `line_len`, and the first
and last column of the offending field. -/
structure DiagKey where
  cause : Cause
  line : List Byte
  lineLen : Nat
  lo : Nat
  hi : Nat
  deriving DecidableEq, Repr

/-- `APP_ENTRY`, the flash byte address where the application starts: R8 and R70 fix it at 0 (the spec's own decision D24), so that it is no parameter. -/
def appEntry : Nat := 0

/-- The parameters of R8. A text that depends on arguments is a finite table of a parameter function: a key that
is not in the table has the empty text (log entry 17). -/
structure Params where
  /-- `RX_SLOTS`, at least 2. -/
  rxSlots : Nat
  /-- `TX_SLOTS`, at least 2. -/
  txSlots : Nat
  /-- `LINE_CAP`, at least 11. -/
  lineCap : Nat
  /-- `PAGE_SIZE`, even and at least 2; 128 where the source gives a value. -/
  pageSize : Nat
  /-- `FLASH_SIZE`, a multiple of the page size, from one page up to 65536. -/
  flashSize : Nat
  /-- `MAGIC0`, the first byte of the "run application" signature. -/
  magic0 : Byte
  /-- `MAGIC1`, its second byte. -/
  magic1 : Byte
  /-- `WDT_DEADMAN`, positive. R8 does not say what kind of number an amount of time is: a natural number of an unnamed unit is a DESIGN CHOICE (log
  entry 35). -/
  wdtDeadman : Nat
  /-- `WDT_SHORT`, positive, in the same unit (DESIGN CHOICE, log entry 35). -/
  wdtShort : Nat
  /-- `MS_WIDTH`, the width of the clock in bits, at least 1. -/
  msWidth : Nat
  /-- `STR_STARTUP`. -/
  strStartup : List Byte
  /-- `STR_BANNER_FLASH`. -/
  strBannerFlash : List Byte
  /-- `STR_BANNER_VERIFY`. -/
  strBannerVerify : List Byte
  /-- `STR_PROMPT`. -/
  strPrompt : List Byte
  /-- `STR_PROGRESS_FLASH`, what stands before the number. -/
  strProgressFlash : List Byte
  /-- `STR_PROGRESS_VERIFY`, what stands before the number. -/
  strProgressVerify : List Byte
  /-- `STR_MARK`: used only inside `STR_DIAG`'s own text. -/
  strMark : List Byte
  /-- What stands between `STR_PROGRESS_FLASH` and the number, by number: R112 leaves padding open, and that the mode and the number decide it is a DESIGN
  CHOICE (log entry 17). -/
  progressPadFlash : List (Nat × List Byte)
  /-- The same after `STR_PROGRESS_VERIFY` (log entry 17). -/
  progressPadVerify : List (Nat × List Byte)
  /-- What follows the number of a progress message of a flash pass, by number: open in R112, in this form a DESIGN CHOICE (log entry 17). -/
  progressTailFlash : List (Nat × List Byte)
  /-- The same in a verify pass (log entry 17). -/
  progressTailVerify : List (Nat × List Byte)
  /-- `STR_DIAG` (R111). -/
  strDiag : List (DiagKey × List Byte)
  /-- The elapsed-time report (spec/46_boot_sequencer.md R248), by the elapsed time; its format is out of scope (R4). -/
  strElapsed : List (Nat × List Byte)
  /-- The transport-fault report (spec/60_exceptions.md R298), by the flags set; which set flag it names is unspecified. -/
  strFault : List (ErrFlags × List Byte)
  deriving DecidableEq, Repr

/-- The constraints of R8 and of spec/92_eei_decisions.md section 1. -/
def Params.legal (p : Params) : Bool :=
  decide (2 ≤ p.rxSlots) && decide (2 ≤ p.txSlots) && decide (11 ≤ p.lineCap) && decide (2 ≤ p.pageSize)
    && decide (p.pageSize % 2 = 0) && decide (p.flashSize % p.pageSize = 0) && decide (p.pageSize ≤ p.flashSize)
    && decide (p.flashSize ≤ 65536) && !(decide (p.magic0 = 0) && decide (p.magic1 = 0))
    && decide (0 < p.wdtDeadman) && decide (0 < p.wdtShort) && decide (1 ≤ p.msWidth)

/-- `MAX_DATA` (R8): the most data bytes of a record that fit the Line Buffer. -/
def Params.maxData (p : Params) : Nat := min ((p.lineCap - 11) / 2) 255

/-- The example values of spec/95_test_vectors.md ("none of them from the source") with the texts that R110 quotes. DESIGN CHOICE
(log entry 1): the values State.reset carries; no statement rests on them. -/
def Params.sample : Params where
  rxSlots := 64
  txSlots := 64
  lineCap := 64
  pageSize := 128
  flashSize := 1024
  magic0 := 0xA5
  magic1 := 0x5A
  wdtDeadman := 2000
  wdtShort := 20
  msWidth := 32
  strStartup := []
  strBannerFlash := [0x70, 0x61, 0x73, 0x74, 0x65, 0x20, 0x68, 0x65, 0x78]
  strBannerVerify := [0x70, 0x61, 0x73, 0x74, 0x65, 0x20, 0x61, 0x67, 0x61, 0x69, 0x6E, 0x20, 0x74, 0x6F, 0x20, 0x76, 0x65, 0x72, 0x69,
    0x66, 0x79]
  strPrompt := [0x3E, 0x3A, 0x20]
  strProgressFlash := [0x46, 0x6C, 0x61, 0x73, 0x68, 0x65, 0x64, 0x3A, 0x20]
  strProgressVerify := [0x56, 0x65, 0x72, 0x69, 0x66, 0x69, 0x65, 0x64, 0x3A, 0x20]
  strMark := [0x5E]
  progressPadFlash := []
  progressPadVerify := []
  progressTailFlash := []
  progressTailVerify := []
  strDiag := []
  strElapsed := []
  strFault := []

/-- `STR_CRLF` (R110): CR then LF, the one text a claim may depend on. -/
def strCrlf : List Byte := [chCr, chLf]

/-- The free values: what the spec treats as `any value` (U4, U5, U6, U8, and the other cause flag of D23). No body, so that nothing
can be proved of a value; `State.freeCount` numbers the uses (log entry 12). -/
opaque Config.freeByte : Nat → Byte

end Sys2Proof
end

