-- ==== Sys2Proof/Syntax.lean ====
section
/-! DEFINITION. The instructions: one constructor per row of spec/opcode_table.json, in the table's order, and the wire
units they are decoded from (spec/30_encoding.md). A symbolic operation has no binary encoding (R104): its unit is its name with its operands. -/

namespace Sys2Proof

/-- The mode of a pass (spec/10_state.md R30). -/
inductive Mode where
  | flash
  | verify
  deriving DecidableEq, Repr

/-- The two watchdog timeouts (spec/10_state.md R34). -/
inductive Timeout where
  | deadman
  | short
  deriving DecidableEq, Repr

/-- One call of the flash self-programming interface that a hardware step makes (spec/44_page_flash.md R199). -/
inductive FlashCall where
  | erasePage (a : Nat)
  | fillWord (a : Nat) (w : Word)
  | commitPage (a : Nat)
  | rwwEnable
  deriving DecidableEq, Repr

/-- One access of a critical section's straight-line body (spec/41_transport.md R128). These are the accesses to shared state that the rules
put into a `critical` block (log entry 19). -/
inductive Access where
  /-- `e <- ERR` (spec/42_line_reader.md R151). -/
  | readErr
  /-- `t <- MS` (R129). -/
  | readMs
  /-- `r <- (rx_head != rx_tail)` (R123). -/
  | testAvailable
  /-- `empty <- (tx_head = tx_tail)` (R124). -/
  | testDrained
  /-- The body of `receive_byte` (R122). -/
  | takeRx
  /-- The body of `send_byte` (R121). -/
  | putTx (b : Byte)
  /-- `Kick()` (spec/47_handoff_watchdog.md R266). -/
  | kick
  deriving DecidableEq, Repr

/-- The decoded fields of an Intel-HEX record but for its type (spec/30_encoding.md R95): AAAA, the data bytes, SS. CC is the number of
data bytes. -/
structure Rec where
  addr : Word
  data : List Byte
  ss : Byte
  deriving DecidableEq, Repr

/-- The 79 rows of spec/opcode_table.json. -/
inductive Instr where
  -- format BYTE (R91)
  | byteEsc
  | byteCr
  | byteLf
  | byteOther (b : Byte)
  -- format LINE (R92)
  | lineRecord
  | lineCommand (c : Byte)
  | lineEmpty
  -- format HEXREC (R95, R97)
  | recDataFlash (r : Rec)
  | recDataVerify (r : Rec)
  | recEofFlash (r : Rec)
  | recEofVerify (r : Rec)
  | recOther (tt : Byte) (r : Rec)
  -- format HEXDIGIT (R94)
  | hex0
  | hex1
  | hex2
  | hex3
  | hex4
  | hex5
  | hex6
  | hex7
  | hex8
  | hex9
  | hexA
  | hexB
  | hexC
  | hexD
  | hexE
  | hexF
  | hexLowerA
  | hexLowerB
  | hexLowerC
  | hexLowerD
  | hexLowerE
  | hexLowerF
  | hexNonhex (c : Byte)
  -- format OPERATION (R104): the Transport
  | sendByte (b : Byte)
  | receiveByte
  | available
  | flush
  | rxHandler
  | txHandler
  | tickHandler
  | critical (body : List Access)
  | msNow
  | idle
  | next (c n : Nat)
  | transportInit
  -- the Line Reader
  | pollLine
  -- the Hex Decoder
  | hexNibbleToDec (c : Byte)
  | hexNibbleToHex (v : Nibble)
  | hexByteToDec (c1 c0 : Byte)
  | hexByteToHex (b : Byte)
  | hexWordToDec (c3 c2 c1 c0 : Byte)
  | hexWordToHex (w : Word)
  -- the Page Buffer and Flash Writer
  | resetPage
  | writeCurrentPage
  | rwwReenable
  | hwstep (call : FlashCall)
  | flashReadByte (a : Nat)
  | flashErasePage (a : Nat)
  | flashFillWord (a : Nat) (w : Word)
  | flashCommitPage (a : Nat)
  | flashWait
  | flashRwwEnable
  -- the Decoder/Flasher
  | processRecord (m : Mode)
  -- the Boot Sequencer
  | bootMain
  | blInit
  | runPass (m : Mode)
  | menu
  -- Boot Handoff and Watchdog Guard
  | bootDecide
  | jumpApp
  | forceRebootToBootloader
  | forceRebootToApp
  | kick
  | wdtArm (t : Timeout)
  -- faults and reset events
  | transportFault (e : ErrFlags)
  | powerOn
  | extReset
  | wdtExpire
  deriving DecidableEq, Repr

/-- The names of the symbolic operations (R104), in the table's order. -/
inductive OpName where
  | sendByte
  | receiveByte
  | available
  | flush
  | rxHandler
  | txHandler
  | tickHandler
  | critical
  | msNow
  | idle
  | next
  | transportInit
  | pollLine
  | hexNibbleToDec
  | hexNibbleToHex
  | hexByteToDec
  | hexByteToHex
  | hexWordToDec
  | hexWordToHex
  | resetPage
  | writeCurrentPage
  | rwwReenable
  | hwstep
  | flashReadByte
  | flashErasePage
  | flashFillWord
  | flashCommitPage
  | flashWait
  | flashRwwEnable
  | processRecord
  | bootMain
  | blInit
  | runPass
  | menu
  | bootDecide
  | jumpApp
  | forceRebootToBootloader
  | forceRebootToApp
  | kick
  | wdtArm
  | transportFault
  | powerOn
  | extReset
  | wdtExpire
  deriving DecidableEq, Repr

/-- An operand of a symbolic operation. -/
inductive Operand where
  | byte (b : Byte)
  | nibble (v : Nibble)
  | word (w : Word)
  | nat (n : Nat)
  | mode (m : Mode)
  | timeout (t : Timeout)
  | errs (e : ErrFlags)
  | call (c : FlashCall)
  | body (accesses : List Access)
  deriving DecidableEq, Repr

/-- What the machine decodes: a unit of one of the five formats (spec/30_encoding.md). -/
inductive Wire where
  /-- Format BYTE: a byte taken from the inbound ring (R91). -/
  | byte (b : Byte)
  /-- Format LINE: the characters of a completed line (R92). -/
  | line (cs : List Byte)
  /-- Format HEXREC: the characters of a record line, with the mode of the pass, which selects among the rows of one type (R95, R97). -/
  | hexrec (m : Mode) (cs : List Byte)
  /-- Format HEXDIGIT: one character (R94). -/
  | digit (c : Byte)
  /-- Format OPERATION: a name with its operands (R104). -/
  | symbolic (op : OpName) (operands : List Operand)
  /-- Bits of a width that no format has. -/
  | unreadable (nbits w : Nat)
  deriving DecidableEq, Repr

/-- Why the decoder refuses a unit. -/
inductive DecodeError where
  /-- A record line shorter than 11 + 2*CC characters (R211, U1). -/
  | shortRecord
  /-- Operands that are not those the operation takes. -/
  | badOperands
  /-- Bits of a width that no format has. -/
  | noFormat
  deriving DecidableEq, Repr

end Sys2Proof
end

