-- ==== Sys2Proof/WellFormed.lean ====
section
/-! DEFINITION. Which instructions the spec's encodings admit: the preconditions of the default rows of spec/opcode_table.json (a default row stands for
every value no other row of its format has) and the ranges of operands. -/

namespace Sys2Proof

/-- A character with a row of its own in format HEXDIGIT (spec/30_encoding.md R94). -/
def isHexDigit (c : Byte) : Bool :=
  (decide (0x30 ≤ c.toNat) && decide (c.toNat ≤ 0x39)) || (decide (0x41 ≤ c.toNat) && decide (c.toNat ≤ 0x46))
    || (decide (0x61 ≤ c.toNat) && decide (c.toNat ≤ 0x66))

/-- A byte with a row of its own in format BYTE (R91). -/
def isControlByte (b : Byte) : Bool :=
  decide (b = chEsc) || decide (b = chCr) || decide (b = chLf)

/-- The byte count of a record is one hex byte (R95). -/
def Rec.wellFormed (r : Rec) : Bool := decide (r.data.length ≤ 255)

/-- The check on an instruction. -/
def Instr.wellFormed : Instr → Bool
  | .byteOther b => !isControlByte b
  | .lineCommand c => !decide (c = chColon)
  | .recDataFlash r => r.wellFormed
  | .recDataVerify r => r.wellFormed
  | .recEofFlash r => r.wellFormed
  | .recEofVerify r => r.wellFormed
  | .recOther tt r => decide (2 ≤ tt.toNat) && r.wellFormed
  | .hexNonhex c => !isHexDigit c
  | .next c n => decide (2 ≤ n) && decide (c < n)
  | .byteEsc | .byteCr | .byteLf | .lineRecord | .lineEmpty => true
  | .hex0 | .hex1 | .hex2 | .hex3 | .hex4 | .hex5 | .hex6 | .hex7 | .hex8 | .hex9 => true
  | .hexA | .hexB | .hexC | .hexD | .hexE | .hexF => true
  | .hexLowerA | .hexLowerB | .hexLowerC | .hexLowerD | .hexLowerE | .hexLowerF => true
  | .sendByte _ | .receiveByte | .available | .flush | .rxHandler | .txHandler | .tickHandler => true
  | .critical _ | .msNow | .idle | .transportInit | .pollLine => true
  | .hexNibbleToDec _ | .hexNibbleToHex _ | .hexByteToDec _ _ | .hexByteToHex _ => true
  | .hexWordToDec _ _ _ _ | .hexWordToHex _ => true
  | .resetPage | .writeCurrentPage | .rwwReenable | .hwstep _ | .flashReadByte _ => true
  | .flashErasePage _ | .flashFillWord _ _ | .flashCommitPage _ | .flashWait | .flashRwwEnable => true
  | .processRecord _ | .bootMain | .blInit | .runPass _ | .menu => true
  | .bootDecide | .jumpApp | .forceRebootToBootloader | .forceRebootToApp | .kick | .wdtArm _ => true
  | .transportFault _ | .powerOn | .extReset | .wdtExpire => true

end Sys2Proof
end

