-- ==== Sys2Proof/Decode.lean ====
section
/-! DEFINITION. The decoder of the five formats (spec/30_encoding.md), total on every unit and refusing by name, and after it the encoder. The
pure conversions between characters and values (R94, R96, R101, spec/43_hex_decoder.md) stand first: both use them. -/

namespace Sys2Proof

/-! ## Hex digits -/

/-- `hexval(c)` (R94, R171): the value of one character, 0 for every character that is no hex digit. -/
def hexval (c : Byte) : Nibble :=
  if 0x30 ≤ c.toNat ∧ c.toNat ≤ 0x39 then BitVec.ofNat 4 (c.toNat - 0x30)
  else if 0x41 ≤ c.toNat ∧ c.toNat ≤ 0x46 then BitVec.ofNat 4 (c.toNat - 0x41 + 10)
  else if 0x61 ≤ c.toNat ∧ c.toNat ≤ 0x66 then BitVec.ofNat 4 (c.toNat - 0x61 + 10)
  else 0

/-- `hexchar(v)` (R101, R172): the upper-case character of a 4-bit value. -/
def hexchar (v : Nibble) : Byte :=
  if v.toNat ≤ 9 then BitVec.ofNat 8 (0x30 + v.toNat) else BitVec.ofNat 8 (0x41 + v.toNat - 10)

/-- `hex_byte_to_dec(c1, c0)` (R173): the first character is the more significant digit. -/
def hexByteToBin (c1 c0 : Byte) : Byte := hexval c1 ++ hexval c0

/-- `hex_byte_to_hex(b)` (R174): two characters, the more significant first. -/
def binByteToHex (b : Byte) : List Byte := [hexchar (b.extractLsb' 4 4), hexchar (b.extractLsb' 0 4)]

/-- `hex_word_to_dec(c3, c2, c1, c0)` (R175). -/
def hexWordToBin (c3 c2 c1 c0 : Byte) : Word := hexByteToBin c3 c2 ++ hexByteToBin c1 c0

/-- `hex_word_to_hex(w)` (R176): four characters, the most significant first. -/
def binWordToHex (w : Word) : List Byte := binByteToHex (w.extractLsb' 8 8) ++ binByteToHex (w.extractLsb' 0 8)

/-! ## The fields of a record line -/

/-- The byte at columns k, k+1 of a record line (R96). -/
def byteAt (cs : List Byte) (k : Nat) : Byte := hexByteToBin (cs.getD k 0) (cs.getD (k + 1) 0)

/-- The word at columns k to k+3 of a record line (R96). -/
def wordAt (cs : List Byte) (k : Nat) : Word :=
  hexWordToBin (cs.getD k 0) (cs.getD (k + 1) 0) (cs.getD (k + 2) 0) (cs.getD (k + 3) 0)

/-- The fields of a record line (R95, R96, R211): none when the line is shorter than 11 + 2*CC characters (a line without the fixed
columns is shorter whatever its CC). The marker and the columns after the checksum are not read. -/
def readRec (cs : List Byte) : Option Rec :=
  if cs.length < 11 then none
  else if cs.length < 11 + 2 * (byteAt cs 1).toNat then none
  else some {
    addr := wordAt cs 3
    data := (List.range (byteAt cs 1).toNat).map fun i => byteAt cs (9 + 2 * i)
    ss := byteAt cs (9 + 2 * (byteAt cs 1).toNat) }

/-! ## The decoder -/

/-- Format BYTE (R91). -/
def decodeByte (b : Byte) : Instr :=
  if b = chEsc then .byteEsc else if b = chCr then .byteCr else if b = chLf then .byteLf else .byteOther b

/-- Format LINE (R92): by the first character. -/
def decodeLine : List Byte → Instr
  | [] => .lineEmpty
  | c :: _ => if c = chColon then .lineRecord else .lineCommand c

/-- The row of a record (R97): by the whole value of TT, and by the mode for types 00 and 01. -/
def recordRow (m : Mode) (tt : Byte) (r : Rec) : Instr :=
  match tt.toNat, m with
  | 0, .flash => .recDataFlash r
  | 0, .verify => .recDataVerify r
  | 1, .flash => .recEofFlash r
  | 1, .verify => .recEofVerify r
  | _, _ => .recOther tt r

/-- Format HEXREC (R95 to R97). -/
def decodeRecord (m : Mode) (cs : List Byte) : Except DecodeError Instr :=
  match readRec cs with
  | some r => .ok (recordRow m (byteAt cs 7) r)
  | none => .error .shortRecord

/-- Format HEXDIGIT (R94): 22 rows and the default row. -/
def decodeDigit (c : Byte) : Instr :=
  match c.toNat with
  | 0x30 => .hex0
  | 0x31 => .hex1
  | 0x32 => .hex2
  | 0x33 => .hex3
  | 0x34 => .hex4
  | 0x35 => .hex5
  | 0x36 => .hex6
  | 0x37 => .hex7
  | 0x38 => .hex8
  | 0x39 => .hex9
  | 0x41 => .hexA
  | 0x42 => .hexB
  | 0x43 => .hexC
  | 0x44 => .hexD
  | 0x45 => .hexE
  | 0x46 => .hexF
  | 0x61 => .hexLowerA
  | 0x62 => .hexLowerB
  | 0x63 => .hexLowerC
  | 0x64 => .hexLowerD
  | 0x65 => .hexLowerE
  | 0x66 => .hexLowerF
  | _ => .hexNonhex c

/-- An operation without operands. -/
def noOperand (xs : List Operand) (i : Instr) : Except DecodeError Instr :=
  match xs with
  | [] => .ok i
  | _ :: _ => .error .badOperands

/-- Format OPERATION (R104): the operation of a name with the operands its rule lists. -/
def decodeSymbolic (op : OpName) (xs : List Operand) : Except DecodeError Instr :=
  match op with
  | .sendByte => match xs with
    | [.byte b] => .ok (.sendByte b)
    | _ => .error .badOperands
  | .receiveByte => noOperand xs .receiveByte
  | .available => noOperand xs .available
  | .flush => noOperand xs .flush
  | .rxHandler => noOperand xs .rxHandler
  | .txHandler => noOperand xs .txHandler
  | .tickHandler => noOperand xs .tickHandler
  | .critical => match xs with
    | [.body l] => .ok (.critical l)
    | _ => .error .badOperands
  | .msNow => noOperand xs .msNow
  | .idle => noOperand xs .idle
  | .next => match xs with
    | [.nat c, .nat n] => if 2 ≤ n ∧ c < n then .ok (.next c n) else .error .badOperands
    | _ => .error .badOperands
  | .transportInit => noOperand xs .transportInit
  | .pollLine => noOperand xs .pollLine
  | .hexNibbleToDec => match xs with
    | [.byte c] => .ok (.hexNibbleToDec c)
    | _ => .error .badOperands
  | .hexNibbleToHex => match xs with
    | [.nibble v] => .ok (.hexNibbleToHex v)
    | _ => .error .badOperands
  | .hexByteToDec => match xs with
    | [.byte c1, .byte c0] => .ok (.hexByteToDec c1 c0)
    | _ => .error .badOperands
  | .hexByteToHex => match xs with
    | [.byte b] => .ok (.hexByteToHex b)
    | _ => .error .badOperands
  | .hexWordToDec => match xs with
    | [.byte c3, .byte c2, .byte c1, .byte c0] => .ok (.hexWordToDec c3 c2 c1 c0)
    | _ => .error .badOperands
  | .hexWordToHex => match xs with
    | [.word w] => .ok (.hexWordToHex w)
    | _ => .error .badOperands
  | .resetPage => noOperand xs .resetPage
  | .writeCurrentPage => noOperand xs .writeCurrentPage
  | .rwwReenable => noOperand xs .rwwReenable
  | .hwstep => match xs with
    | [.call c] => .ok (.hwstep c)
    | _ => .error .badOperands
  | .flashReadByte => match xs with
    | [.nat a] => .ok (.flashReadByte a)
    | _ => .error .badOperands
  | .flashErasePage => match xs with
    | [.nat a] => .ok (.flashErasePage a)
    | _ => .error .badOperands
  | .flashFillWord => match xs with
    | [.nat a, .word w] => .ok (.flashFillWord a w)
    | _ => .error .badOperands
  | .flashCommitPage => match xs with
    | [.nat a] => .ok (.flashCommitPage a)
    | _ => .error .badOperands
  | .flashWait => noOperand xs .flashWait
  | .flashRwwEnable => noOperand xs .flashRwwEnable
  | .processRecord => match xs with
    | [.mode m] => .ok (.processRecord m)
    | _ => .error .badOperands
  | .bootMain => noOperand xs .bootMain
  | .blInit => noOperand xs .blInit
  | .runPass => match xs with
    | [.mode m] => .ok (.runPass m)
    | _ => .error .badOperands
  | .menu => noOperand xs .menu
  | .bootDecide => noOperand xs .bootDecide
  | .jumpApp => noOperand xs .jumpApp
  | .forceRebootToBootloader => noOperand xs .forceRebootToBootloader
  | .forceRebootToApp => noOperand xs .forceRebootToApp
  | .kick => noOperand xs .kick
  | .wdtArm => match xs with
    | [.timeout t] => .ok (.wdtArm t)
    | _ => .error .badOperands
  | .transportFault => match xs with
    | [.errs e] => .ok (.transportFault e)
    | _ => .error .badOperands
  | .powerOn => noOperand xs .powerOn
  | .extReset => noOperand xs .extReset
  | .wdtExpire => noOperand xs .wdtExpire

/-- The decoder. -/
def decode : Wire → Except DecodeError Instr
  | .byte b => .ok (decodeByte b)
  | .line cs => .ok (decodeLine cs)
  | .hexrec m cs => decodeRecord m cs
  | .digit c => .ok (decodeDigit c)
  | .symbolic op xs => decodeSymbolic op xs
  | .unreadable _ _ => .error .noFormat

/-! ## The encoder -/

/-- The characters of a record line (R95): marker, CC, AAAA, TT, the data bytes, SS. -/
def recordText (tt : Byte) (r : Rec) : List Byte :=
  chColon :: (binByteToHex (BitVec.ofNat 8 r.data.length) ++ binWordToHex r.addr ++ binByteToHex tt
    ++ r.data.flatMap binByteToHex ++ binByteToHex r.ss)

/-- The unit of a well-formed instruction. A record of another type is the same in both modes: it is written for a flash pass. -/
def encode : Instr → Wire
  | .byteEsc => .byte chEsc
  | .byteCr => .byte chCr
  | .byteLf => .byte chLf
  | .byteOther b => .byte b
  | .lineRecord => .line [chColon]
  | .lineCommand c => .line [c]
  | .lineEmpty => .line []
  | .recDataFlash r => .hexrec .flash (recordText 0x00 r)
  | .recDataVerify r => .hexrec .verify (recordText 0x00 r)
  | .recEofFlash r => .hexrec .flash (recordText 0x01 r)
  | .recEofVerify r => .hexrec .verify (recordText 0x01 r)
  | .recOther tt r => .hexrec .flash (recordText tt r)
  | .hex0 => .digit 0x30
  | .hex1 => .digit 0x31
  | .hex2 => .digit 0x32
  | .hex3 => .digit 0x33
  | .hex4 => .digit 0x34
  | .hex5 => .digit 0x35
  | .hex6 => .digit 0x36
  | .hex7 => .digit 0x37
  | .hex8 => .digit 0x38
  | .hex9 => .digit 0x39
  | .hexA => .digit 0x41
  | .hexB => .digit 0x42
  | .hexC => .digit 0x43
  | .hexD => .digit 0x44
  | .hexE => .digit 0x45
  | .hexF => .digit 0x46
  | .hexLowerA => .digit 0x61
  | .hexLowerB => .digit 0x62
  | .hexLowerC => .digit 0x63
  | .hexLowerD => .digit 0x64
  | .hexLowerE => .digit 0x65
  | .hexLowerF => .digit 0x66
  | .hexNonhex c => .digit c
  | .sendByte b => .symbolic .sendByte [.byte b]
  | .receiveByte => .symbolic .receiveByte []
  | .available => .symbolic .available []
  | .flush => .symbolic .flush []
  | .rxHandler => .symbolic .rxHandler []
  | .txHandler => .symbolic .txHandler []
  | .tickHandler => .symbolic .tickHandler []
  | .critical l => .symbolic .critical [.body l]
  | .msNow => .symbolic .msNow []
  | .idle => .symbolic .idle []
  | .next c n => .symbolic .next [.nat c, .nat n]
  | .transportInit => .symbolic .transportInit []
  | .pollLine => .symbolic .pollLine []
  | .hexNibbleToDec c => .symbolic .hexNibbleToDec [.byte c]
  | .hexNibbleToHex v => .symbolic .hexNibbleToHex [.nibble v]
  | .hexByteToDec c1 c0 => .symbolic .hexByteToDec [.byte c1, .byte c0]
  | .hexByteToHex b => .symbolic .hexByteToHex [.byte b]
  | .hexWordToDec c3 c2 c1 c0 => .symbolic .hexWordToDec [.byte c3, .byte c2, .byte c1, .byte c0]
  | .hexWordToHex w => .symbolic .hexWordToHex [.word w]
  | .resetPage => .symbolic .resetPage []
  | .writeCurrentPage => .symbolic .writeCurrentPage []
  | .rwwReenable => .symbolic .rwwReenable []
  | .hwstep c => .symbolic .hwstep [.call c]
  | .flashReadByte a => .symbolic .flashReadByte [.nat a]
  | .flashErasePage a => .symbolic .flashErasePage [.nat a]
  | .flashFillWord a w => .symbolic .flashFillWord [.nat a, .word w]
  | .flashCommitPage a => .symbolic .flashCommitPage [.nat a]
  | .flashWait => .symbolic .flashWait []
  | .flashRwwEnable => .symbolic .flashRwwEnable []
  | .processRecord m => .symbolic .processRecord [.mode m]
  | .bootMain => .symbolic .bootMain []
  | .blInit => .symbolic .blInit []
  | .runPass m => .symbolic .runPass [.mode m]
  | .menu => .symbolic .menu []
  | .bootDecide => .symbolic .bootDecide []
  | .jumpApp => .symbolic .jumpApp []
  | .forceRebootToBootloader => .symbolic .forceRebootToBootloader []
  | .forceRebootToApp => .symbolic .forceRebootToApp []
  | .kick => .symbolic .kick []
  | .wdtArm t => .symbolic .wdtArm [.timeout t]
  | .transportFault e => .symbolic .transportFault [.errs e]
  | .powerOn => .symbolic .powerOn []
  | .extReset => .symbolic .extReset []
  | .wdtExpire => .symbolic .wdtExpire []

/-! ## Table words -/

/-- The unit that the bits of a row of spec/opcode_table.json stand for. The rows with bits are all 8 bits wide (the row LINE.EMPTY has none) and their
formats overlap, which the machine tells apart by where it is. Read alone, a value belongs to the row that names it: the control bytes, the marker, the
hex digits, and the types 00 and 01 of a record (a flash pass, with every other character of the record 0x00, which reads as digit
0). A value no row names is a byte of class OTHER (log entry 20). -/
def tableUnit (nbits w : Nat) : Wire :=
  if nbits = 0 then .line []
  else if nbits = 8 then
    let b : Byte := BitVec.ofNat 8 w
    if b = chEsc ∨ b = chCr ∨ b = chLf then .byte b
    else if b = chColon then .line [b]
    else if isHexDigit b then .digit b
    else if b.toNat ≤ 1 then .hexrec .flash ([chColon, 0, 0, 0, 0, 0, 0] ++ binByteToHex b ++ [0, 0])
    else .byte b
  else .unreadable nbits w

/-- What the decoder reads from the bits of a table row. -/
def decodeTableWord (nbits w : Nat) : Option Instr :=
  match decode (tableUnit nbits w) with
  | .ok i => some i
  | .error _ => none

end Sys2Proof
end

