-- ==== Sys2Proof/Machine/State.lean ====
section
/-! DEFINITION. The state of the machine (spec/10_state.md), plain data, and its value after reset (R42). INVENTORY.md lists every field with the rule that
names it. The fields after "The model's own" are no elements of the spec: the parameters, the main flow's finer position (which R24 leaves to
the model), and the inputs of the step relation (R43). -/

namespace Sys2Proof.Machine

/-- `status`, the Flash Status (R29). -/
inductive Status where
  | waiting
  | inProgress
  | ok
  | error
  deriving DecidableEq, Repr

/-- `seq`, the control state of the main flow (R24). -/
inductive Seq where
  | decide
  | blInit
  | passFlash
  | passVerify
  | rebootBl
  | rebootApp
  | app
  deriving DecidableEq, Repr

/-- The three interrupt sources (spec/60_exceptions.md R292). -/
inductive Source where
  | rx
  | tx
  | tick
  deriving DecidableEq, Repr

/-- An erase or commit the flash device has not completed (R39, spec/44_page_flash.md R194, R196), with its byte address. -/
inductive FlashOp where
  | erase (a : Nat)
  | commit (a : Nat)
  deriving DecidableEq, Repr

/-- The value the last operation with a result returned (the result column of the operations' rules). -/
inductive Result where
  | none
  | noByte
  | byte (b : Byte)
  | bool (b : Bool)
  | clock (t : Nat)
  | cursor (c : Nat)
  | errs (e : ErrFlags)
  | nibble (v : Nibble)
  | char (c : Byte)
  | chars (cs : List Byte)
  | word (w : Word)
  | status (st : Status)
  deriving DecidableEq, Repr

/-- One thing the command menu may do while it runs (spec/46_boot_sequencer.md R246). -/
inductive MenuAct where
  | emit (b : Byte)
  | flush
  | readFlash (a : Nat)
  | readClock
  deriving DecidableEq, Repr

/-- The stage a forced reboot is for (spec/47_handoff_watchdog.md R264, R265). -/
inductive Stage where
  | bootloader
  | application
  deriving DecidableEq, Repr

/-- A place inside an operation of the main flow, with its local values, between two of the operation's steps (R24). -/
inductive Micro where
  /-- `poll_line` after its `receive_byte` (R150). -/
  | pollGot
  /-- `poll_line` after the CRLF echo (R155). -/
  | lineEnd
  /-- `seq <- PASS_FLASH` or `seq <- PASS_VERIFY` in `boot_main` (R240). -/
  | enterPass (m : Mode)
  /-- The loop head of `run_pass` (R242). -/
  | passLoop
  /-- `run_pass` after `poll_line` (R242). -/
  | passRoute
  /-- `boot_main` after `run_pass(m)` (R240, R247 to R249). -/
  | passEnd (m : Mode)
  /-- The elapsed-time report after its `ms_now` (R248). -/
  | elapsed
  /-- Step 4 of a data record in a flash pass, after the page write that the byte for address `a` made necessary; `rest` are that
  byte and the ones after it, `sum` the checksum before it (R214). -/
  | stageResume (r : Rec) (rest : List Byte) (a : Nat) (sum : Byte)
  /-- Step 7 of a data record after the progress message (R219). -/
  | dataDone
  /-- Step 6 of an end-of-file record of a flash pass after the re-enable (R217). -/
  | eofDone
  /-- The end of a hardware step: `IE <- saved` (R199, R128). -/
  | unmask (saved : Bool)
  /-- A forced reboot between its writes of `SIG[0]` and `SIG[1]` (R264, R265; each access is one byte: spec/20_memory.md R65, R260). -/
  | rebootSig1 (stage : Stage)
  /-- A forced reboot after its writes of `SIG` (R264, R265). -/
  | rebootArm (stage : Stage)
  /-- `loop: idle` of `force_reboot_to_bootloader` (R264). -/
  | idleLoop
  /-- `loop: (nothing)` of `force_reboot_to_app` (R265). -/
  | spin
  deriving DecidableEq, Repr

/-- One task of the main flow: an operation, a unit to decode and run, or a place inside an operation. -/
inductive Task where
  | instr (i : Instr)
  | fetch (u : Wire)
  | micro (m : Micro)
  deriving DecidableEq, Repr

/-- One move of an agent (spec/70_reset_and_hazards.md, host table; spec/60_exceptions.md R292 to R297). -/
inductive Move where
  /-- The processor makes its next step: the handler that runs, else the main flow. -/
  | cpu
  /-- The interrupt arbiter picks a source. -/
  | serve (h : Source)
  /-- `uart_rx(b, ovr, fe)`. -/
  | uartRx (b : Byte) (ovr fe : Bool)
  /-- `uart_tx_ready`. -/
  | uartTxReady
  /-- `tick`. -/
  | tick
  /-- An amount of time passes (R6, R267). The spec does not say what kind of number an amount is: a natural number of an unnamed unit is a DESIGN CHOICE (log
  entry 35). -/
  | elapse (dt : Nat)
  /-- The flash device completes its operation. -/
  | flashDone
  | powerOn
  | extReset
  /-- The application writes one byte of `SIG` (R270); `second` says which. -/
  | appSig (second : Bool) (b : Byte)
  /-- The application causes a watchdog reset (R270). -/
  | appReset
  deriving DecidableEq, Repr

/-- Why a step stops with a fault. No rule of the spec stops the machine (every fault of spec/60_exceptions.md ends in a reset), so nobody raises one: the
type has no constructor. Safe. -/
inductive Fault where
  deriving DecidableEq, Repr

/-- Why a step is refused: the situations that spec/93_implementation_defined.md gives no meaning. -/
inductive Refusal where
  /-- Raised by `exec` for an instruction without a meaning in this model. Safe. -/
  | notModelled (mnemonic : String)
  /-- Raised by `process_record` and by the decoder on a record line shorter than 11 + 2*CC characters (U1). Safe. -/
  | shortRecord
  /-- Raised where a byte at an address at or beyond FLASH_SIZE would be stored, compared, read, erased or committed (R67, U3). Safe. -/
  | outsideFlash
  /-- Raised by a flash call outside the CORE's protocol (U11). Safe. -/
  | flashProtocol
  /-- Raised by the decoder on a symbolic unit whose operands are not the operation's. Safe. -/
  | badOperands
  /-- Raised by the decoder on bits of a width that no format has. Safe. -/
  | noFormat
  deriving DecidableEq, Repr

/-- The program flash: the listed bytes, addresses strictly rising, none equal to what an unlisted address reads as
(Machine/Ops.lean, `Memory.wf`). -/
abbrev Memory := List Host.Cell

/-- The state. -/
structure State where
  -- the Transport (R21, R23, R31)
  rxHead : Nat
  rxTail : Nat
  txHead : Nat
  txTail : Nat
  rxb : List Byte
  txb : List Byte
  err : ErrFlags
  -- the Line Reader (R25)
  line : List Byte
  lineLen : Nat
  lineDone : Bool
  -- the Page Buffer (R26)
  page : List Byte
  curPage : Nat
  -- the Decoder/Flasher (R27 to R30)
  lastEnd : Option Nat
  count : Nat
  status : Status
  mode : Mode
  -- the Boot Sequencer (R24, R37)
  seq : Seq
  tStart : Nat
  tRunning : Bool
  -- handoff, reset cause, watchdog (R32 to R34)
  sig0 : Byte
  sig1 : Byte
  rcExt : Bool
  rcWdt : Bool
  wdtEn : Bool
  wdtTimeout : Timeout
  wdtElapsed : Nat
  rebootArmed : Bool
  -- interrupt mask and clock (R35, R36)
  ie : Bool
  inHandler : Option Source
  ms : Nat
  -- the flash and its hidden state (R38, R39); `flash_busy` is that an operation is in flight
  flash : Memory
  ftemp : List Byte
  flashOp : Option FlashOp
  rwwOk : Bool
  -- the event sources (R40)
  rxPend : Bool
  rxByte : Byte
  rxOvr : Bool
  rxFe : Bool
  txRdy : Bool
  tickPend : Bool
  -- The model's own
  cfg : Params
  /-- The page erased and not yet committed, with the number of its words filled (R194 to R196, U5, U11). -/
  flashSession : Option (Nat × Nat)
  /-- What the main flow has still to do, next first. -/
  main : List Task
  /-- The main flow is held by `idle` until a handler has run (R130). -/
  held : Bool
  result : Result
  /-- The moves still to come; with none left the machine makes the move `defaultMove` picks. -/
  env : List Move
  /-- What the command menu does at each of its calls still to come. -/
  menuPlan : List (List MenuAct)
  /-- The bytes handed to the transmitter, oldest first: the events `uart_tx(b)`. -/
  txLog : List Byte
  /-- The signal `jump_app`: the address control was handed to. -/
  handoff : Option Nat
  /-- How many free values have been used. -/
  freeCount : Nat
  deriving DecidableEq, Repr

/-- The three outcomes over this state. -/
abbrev Out := Host.Outcome State Fault Refusal

/-- The state after a power-up, for every choice of the parameters: the column "after any reset" of R42, with the value of log entry 3 where R42
says "unspecified", nothing pending, and the main flow at `boot_main` (R325). -/
def State.powerUp (p : Params) : State where
  rxHead := 0
  rxTail := 0
  txHead := 0
  txTail := 0
  rxb := List.replicate p.rxSlots 0
  txb := List.replicate p.txSlots 0
  err := { ovr := false, fe := false, buf := false }
  line := List.replicate p.lineCap 0
  lineLen := 0
  lineDone := false
  page := List.replicate p.pageSize 0
  curPage := 0
  lastEnd := none
  count := 0
  status := .waiting
  mode := .flash
  seq := .decide
  tStart := 0
  tRunning := false
  sig0 := 0
  sig1 := 0
  rcExt := false
  rcWdt := false
  wdtEn := false
  wdtTimeout := .deadman
  wdtElapsed := 0
  rebootArmed := false
  ie := false
  inHandler := none
  ms := 0
  flash := []
  ftemp := List.replicate p.pageSize 0
  flashOp := none
  rwwOk := true
  rxPend := false
  rxByte := 0
  rxOvr := false
  rxFe := false
  txRdy := true
  tickPend := false
  cfg := p
  flashSession := none
  main := [.instr .bootMain]
  held := false
  result := .none
  env := []
  menuPlan := []
  txLog := []
  handoff := none
  freeCount := 0

/-- The machine right after reset (the power-up of R320, R321). -/
def State.reset : State := State.powerUp Params.sample

end Sys2Proof.Machine
end

