-- ==== Sys2Proof/Machine/Operands.lean ====
section
/-! DEFINITION. Operand forms and address arithmetic: cursors (spec/41_transport.md R131), pages and offsets (spec/20_memory.md R61), windows of the byte
arrays, the watchdog timeouts, elapsed time, and the texts the machine emits (spec/30_encoding.md R110 to R112). -/

namespace Sys2Proof.Machine

/-- `next(c, N)` (R131). -/
def nextCursor (c n : Nat) : Nat := (c + 1) % n

/-- `page(a)` (R61). -/
def pageOf (p : Params) (a : Nat) : Nat := a / p.pageSize

/-- `offset(a)` (R61). -/
def offsetOf (p : Params) (a : Nat) : Nat := a % p.pageSize

/-- The first byte address of a page (R61). -/
def pageBase (p : Params) (n : Nat) : Nat := n * p.pageSize

/-- An address the CORE can reach (R67). -/
def inFlash (p : Params) (a : Nat) : Bool := decide (a < p.flashSize)

/-- An address `FlashErasePage` and `FlashCommitPage` take (spec/44_page_flash.md R194, R196): page-aligned. -/
def pageAligned (p : Params) (a : Nat) : Bool := decide (a % p.pageSize = 0)

/-- Element `i` of a byte array; 0 outside the array, which no rule reads (log entry 25). -/
def byteOf (l : List Byte) (i : Nat) : Byte := l.getD i 0

/-- The first `n` elements of a byte array. -/
def window (l : List Byte) (n : Nat) : List Byte := (List.range n).map (byteOf l)

/-- The word of pair `k` of a page: the lower index in the low byte (R62). -/
def pairWord (page : List Byte) (k : Nat) : Word := byteOf page (2 * k + 1) ++ byteOf page (2 * k)

/-- The low byte of a word (R62). -/
def lowByte (w : Word) : Byte := w.extractLsb' 0 8

/-- The high byte of a word (R62). -/
def highByte (w : Word) : Byte := w.extractLsb' 8 8

/-- The amount of time of a timeout (spec/10_state.md R34), a natural number of an unnamed unit: DESIGN CHOICE (log entry 35). -/
def timeoutOf (p : Params) : Timeout → Nat
  | .deadman => p.wdtDeadman
  | .short => p.wdtShort

/-- `(t - t_start) mod 2^MS_WIDTH` (spec/46_boot_sequencer.md R248). -/
def elapsedTime (p : Params) (tStart t : Nat) : Nat := (t + 2 ^ p.msWidth - tStart % 2 ^ p.msWidth) % 2 ^ p.msWidth

/-- The completed line: `LINE[0 .. line_len-1]` (spec/10_state.md R25). -/
def lineText (s : State) : List Byte := s.line.take s.lineLen

/-- The text of a key in the table of a parameter function; empty where the table has none. -/
def textOf {κ : Type} [BEq κ] (table : List (κ × List Byte)) (k : κ) : List Byte := (table.lookup k).getD []

/-- The decimal digits of `n`, the most significant first, written before `acc`; `fuel` bounds their number. -/
def decimalOnto : Nat → Nat → List Byte → List Byte
  | 0, _, acc => acc
  | fuel + 1, n, acc =>
    if n < 10 then BitVec.ofNat 8 (0x30 + n) :: acc
    else decimalOnto fuel (n / 10) (BitVec.ofNat 8 (0x30 + n % 10) :: acc)

/-- A number in decimal (R112). -/
def decimal (n : Nat) : List Byte := decimalOnto (n + 1) n []

/-- The mode banner of a pass (R110). -/
def bannerText (p : Params) : Mode → List Byte
  | .flash => p.strBannerFlash
  | .verify => p.strBannerVerify

/-- What a progress message says before its number (R110). -/
def progressPrefix (p : Params) : Mode → List Byte
  | .flash => p.strProgressFlash
  | .verify => p.strProgressVerify

/-- The padding before the number of a progress message (log entry 17). -/
def progressPad (p : Params) : Mode → List (Nat × List Byte)
  | .flash => p.progressPadFlash
  | .verify => p.progressPadVerify

/-- What follows the number of a progress message (log entry 17). -/
def progressTail (p : Params) : Mode → List (Nat × List Byte)
  | .flash => p.progressTailFlash
  | .verify => p.progressTailVerify

/-- The progress message with N = `n` (R110, R112). R112 leaves open what stands before and after the number; that the mode and the number
decide it is a DESIGN CHOICE (log entry 17). -/
def progressText (p : Params) (m : Mode) (n : Nat) : List Byte :=
  progressPrefix p m ++ textOf (progressPad p m) n ++ decimal n ++ textOf (progressTail p m) n

/-- `STR_DIAG(cause, LINE, line_len, lo, hi)` (R111). -/
def diagText (s : State) (cause : Cause) (lo hi : Nat) : List Byte :=
  textOf s.cfg.strDiag { cause := cause, line := lineText s, lineLen := s.lineLen, lo := lo, hi := hi }

/-- The signature a forced reboot writes (spec/47_handoff_watchdog.md R264, R265). -/
def signatureFor (p : Params) : Stage → Byte × Byte
  | .bootloader => (0x00, 0x00)
  | .application => (p.magic0, p.magic1)

/-- The stage a pass runs in (spec/10_state.md R24). -/
def passSeq : Mode → Seq
  | .flash => .passFlash
  | .verify => .passVerify

end Sys2Proof.Machine
end

