-- ==== Sys2Proof/Machine/Flags.lean ====
section
/-! DEFINITION. The flag computations: the latched error flags (spec/10_state.md R31, spec/41_transport.md R125), the running checksum
(spec/45_record_decoder.md R213, R216), and the address test (R212). -/

namespace Sys2Proof.Machine

/-- Some flag of `ERR` is set: all three are fatal (spec/42_line_reader.md R151). -/
def anyError (e : ErrFlags) : Bool := e.ovr || e.fe || e.buf

/-- The UART's reports latch their flags (R125). -/
def latchReports (e : ErrFlags) (ovr fe : Bool) : ErrFlags := { e with ovr := e.ovr || ovr, fe := e.fe || fe }

/-- A dropped byte latches `ERR.BUF` (R125). -/
def latchOverflow (e : ErrFlags) : ErrFlags := { e with buf := true }

/-- No flag set. -/
def noErrors : ErrFlags := { ovr := false, fe := false, buf := false }

/-- Step 3 (R213): the checksum of CC, AL, AH, TT. -/
def headerSum (tt : Byte) (r : Rec) : Byte := BitVec.ofNat 8 r.data.length + lowByte r.addr + highByte r.addr + tt

/-- The data bytes folded into the checksum (R214, R220). -/
def foldData (data : List Byte) (sum : Byte) : Byte := data.foldl (· + ·) sum

/-- Step 5 (R216): the total with SS is zero modulo 256. -/
def checksumOk (sum ss : Byte) : Bool := decide (sum + ss = 0)

/-- Step 2 (R212): the address fault of a data record, if any. -/
def addressFault (lastEnd : Option Nat) (a : Nat) : Option Cause :=
  match lastEnd with
  | none => if a = 0 then none else some .addrFirst
  | some e => if a < e then some .addrRegress else none

end Sys2Proof.Machine
end

