-- ==== Sys2Proof/Machine/Ops.lean ====
section
/-! DEFINITION. The operations the meanings share: the flash as a memory, the two rings, the watchdog, the critical section, output, taking an
interrupt and returning from it, raising a fault, the forced reboots, and a device reset. -/

namespace Sys2Proof.Machine

/-! ## The flash as a memory -/

/-- What an address with no entry reads as: the erased byte. The spec gives a reset flash no contents; DESIGN CHOICE (log entry 11). -/
def Memory.unlisted : Byte := erased

/-- One byte. -/
def Memory.read : Memory → Nat → Byte
  | [], _ => Memory.unlisted
  | c :: cs, a => if c.1 = a then c.2 else Memory.read cs a

/-- The entry of an address, put in its place. -/
def Memory.put : Memory → Nat → Byte → Memory
  | [], a, b => [(a, b)]
  | c :: cs, a, b =>
    if a < c.1 then (a, b) :: c :: cs else if a = c.1 then (a, b) :: cs else c :: Memory.put cs a b

/-- The entry of an address, taken out. -/
def Memory.drop (m : Memory) (a : Nat) : Memory := m.filter fun c => !decide (c.1 = a)

/-- A write keeps the canonical form: writing what an unlisted address reads as takes the entry out. -/
def Memory.write (m : Memory) (a : Nat) (b : Byte) : Memory :=
  if b = Memory.unlisted then Memory.drop m a else Memory.put m a b

/-- Bytes at consecutive addresses. -/
def Memory.writeBytes : Memory → Nat → List Byte → Memory
  | m, _, [] => m
  | m, a, b :: bs => Memory.writeBytes (Memory.write m a b) (a + 1) bs

/-- The canonical form: addresses strictly rising, no entry equal to what an unlisted address reads as. -/
abbrev Memory.wf (m : Memory) : Prop := m.Pairwise (fun c d => c.1 < d.1) ∧ ∀ c ∈ m, c.2 ≠ Memory.unlisted

/-! ## Free values -/

/-- `k` free bytes, from use `n` on (treatments U4, U5, U6, U8). -/
def freeBytes (n k : Nat) : List Byte := (List.range k).map fun j => Config.freeByte (n + j)

/-- A free bit. -/
def freeBit (n : Nat) : Bool := (Config.freeByte n).getLsbD 0

/-! ## The main flow -/

/-- Tasks put before what the main flow has still to do. -/
def push (ts : List Task) (s : State) : State := { s with main := ts ++ s.main }

/-- The tasks of `Emit(str)` (spec/00_scope.md R9): one `send_byte` a byte, in order. -/
def emit (str : List Byte) : List Task := str.map fun b => .instr (.sendByte b)

/-- An operation's result. -/
def setResult (r : Result) (s : State) : State := { s with result := r }

/-- The main flow is held until a handler has run, and `again` is then its next task (spec/41_transport.md R130). -/
def hold (again : List Task) (s : State) : State := { s with held := true, main := again ++ s.main }

/-- `critical { body }` (R128): interrupts masked around the body, the previous mask restored. -/
def masked (body : State → State) (s : State) : State :=
  let t := body { s with ie := false }
  { t with ie := s.ie }

/-! ## The watchdog (spec/47_handoff_watchdog.md) -/

/-- `Kick()` (R266). -/
def kick (s : State) : State := { s with wdtElapsed := 0 }

/-- `wdt_arm(T)` (R268). -/
def armWdt (t : Timeout) (s : State) : State := { s with wdtEn := true, wdtTimeout := t, wdtElapsed := 0 }

/-! ## The rings (spec/41_transport.md) -/

/-- The inbound ring is full (spec/10_state.md R22). -/
def rxFull (s : State) : Bool := decide (nextCursor s.rxHead s.cfg.rxSlots = s.rxTail)

/-- The outbound ring is full (R22). -/
def txFull (s : State) : Bool := decide (nextCursor s.txHead s.cfg.txSlots = s.txTail)

/-- The body of `receive_byte` (R122). -/
def takeRx (s : State) : State :=
  if s.rxHead = s.rxTail then { s with result := .noByte }
  else kick { s with result := .byte (byteOf s.rxb s.rxTail), rxTail := nextCursor s.rxTail s.cfg.rxSlots }

/-- A byte stored in the outbound ring, which has room (R121). -/
def storeTx (b : Byte) (s : State) : State :=
  kick { s with txb := s.txb.set s.txHead b, txHead := nextCursor s.txHead s.cfg.txSlots }

/-- A byte stored in the inbound ring, which has room (R125). -/
def storeRx (b : Byte) (s : State) : State :=
  kick { s with rxb := s.rxb.set s.rxHead b, rxHead := nextCursor s.rxHead s.cfg.rxSlots }

/-! ## Interrupts (spec/60_exceptions.md) -/

/-- A source is pending (R292). -/
def pending (h : Source) (s : State) : Bool :=
  match h with
  | .rx => s.rxPend
  | .tx => s.txRdy && !decide (s.txHead = s.txTail)
  | .tick => s.tickPend

/-- A handler can start (R293). -/
def canServe (h : Source) (s : State) : Bool := pending h s && s.ie && s.inHandler.isNone

/-- Taking an interrupt (R296): the main flow stops between two of its tasks. No program counter or status is saved. -/
def enterHandler (h : Source) (s : State) : State := { s with ie := false, inHandler := some h }

/-- The return from an interrupt (R297): a held main flow goes on (R130). -/
def exitHandler (s : State) : State := { s with inHandler := none, ie := true, held := false }

/-- A handler, from its entry or from inside it, to its exit; nothing where it cannot start (R293, R296, R297). -/
def runHandler (h : Source) (body : State → State) (s : State) : State :=
  if s.inHandler = some h then exitHandler (body s)
  else if canServe h s then exitHandler (body (enterHandler h s))
  else s

/-! ## Faults -/

/-- `raise X(lo, hi)` inside `process_record` (spec/45_record_decoder.md R222). -/
def raiseFault (cause : Cause) (lo hi : Nat) (s : State) : State :=
  push (emit (diagText s cause lo hi)) { s with status := .error, result := .status .error }

/-- `TransportFault(e)` (spec/60_exceptions.md R298): the report, then the forced reboot; the main flow does not return to what it did. -/
def raiseTransport (e : ErrFlags) (s : State) : State :=
  { s with main := emit (textOf s.cfg.strFault e) ++ [.instr .forceRebootToBootloader] }

/-! ## Forced reboots and handoff -/

/-- The first write of a forced reboot (spec/47_handoff_watchdog.md R264, R265): `SIG[0]`. `SIG[1]` and the rest come next, each a step of its own, since a reset can
fall between any two of them (spec/70_reset_and_hazards.md R320) and `SIG` survives one; the operation never returns to what the main flow did. -/
def startReboot (stage : Stage) (s : State) : State :=
  { s with sig0 := (signatureFor s.cfg stage).1, main := [.micro (.rebootSig1 stage), .micro (.rebootArm stage)] }

/-- The second write of a forced reboot: `SIG[1]`. -/
def writeRebootSig1 (stage : Stage) (s : State) : State := { s with sig1 := (signatureFor s.cfg stage).2 }

/-- What the two forced reboots share after their writes of `SIG`. -/
def armReboot (s : State) : State := armWdt .short { s with rebootArmed := true }

/-- The end of a forced reboot: the watchdog armed, then the idle loop with interrupts as they are (R264), or the empty loop with interrupts masked (R265). -/
def enterReboot (stage : Stage) (s : State) : State :=
  match stage with
  | .bootloader => { armReboot s with seq := .rebootBl, main := [.micro .idleLoop] }
  | .application => { armReboot s with ie := false, seq := .rebootApp, main := [.micro .spin] }

/-- `jump_app()` (R263): the signal, control passing to flash address `APP_ENTRY` (R70), and no further step of the CORE until the next reset. -/
def handOver (s : State) : State := { s with seq := .app, main := [], handoff := some appEntry }

/-! ## The flash device (spec/44_page_flash.md) -/

/-- `flash_busy` (spec/10_state.md R39). -/
def flashBusy (s : State) : Bool := s.flashOp.isSome

/-- `MemRead(FLASH, a, 1)` for an address in range (spec/20_memory.md R66): while the flash is unreadable the byte is a free value (U4). -/
def memRead (a : Nat) (s : State) : Byte × State :=
  if s.rwwOk && !flashBusy s then (Memory.read s.flash a, s)
  else (Config.freeByte s.freeCount, { s with freeCount := s.freeCount + 1 })

/-- The device completes its operation (R194, R196); FTEMP is then a free value (U6). -/
def completeFlash (s : State) : State :=
  match s.flashOp with
  | none => s
  | some (.erase a) =>
    { s with
      flash := Memory.writeBytes s.flash a (List.replicate s.cfg.pageSize erased)
      flashOp := none
      flashSession := some (a, 0) }
  | some (.commit a) =>
    { s with
      flash := Memory.writeBytes s.flash a (window s.ftemp s.cfg.pageSize)
      ftemp := freeBytes s.freeCount s.cfg.pageSize
      freeCount := s.freeCount + s.cfg.pageSize
      flashOp := none
      flashSession := none }

/-! ## Resets (spec/70_reset_and_hazards.md) -/

/-- The reset kinds (R320). -/
inductive ResetKind where
  | powerOn
  | external
  | watchdog
  deriving DecidableEq, Repr

/-- The page a reset cuts (U5): one being erased or committed, or erased and not yet committed. -/
def cutPage (s : State) : Option Nat :=
  match s.flashOp with
  | some (.erase a) => some a
  | some (.commit a) => some a
  | none => s.flashSession.map Prod.fst

/-- The flash after a reset: unchanged, but for free bytes in the page the reset cuts (R321, U5). -/
def cutFlash (s : State) : Memory :=
  match cutPage s with
  | none => s.flash
  | some a => Memory.writeBytes s.flash a (freeBytes s.freeCount s.cfg.pageSize)

/-- The free values used once the flash is cut. -/
def cutCount (s : State) : Nat :=
  match cutPage s with
  | none => s.freeCount
  | some _ => s.freeCount + s.cfg.pageSize

/-- A device reset (R320 to R325). What survives: the flash, `SIG` across a watchdog reset (R324), and what is no state of the CORE (the
parameters, the inputs still to come, the log of the transmitter). -/
def deviceReset (k : ResetKind) (s : State) : State :=
  let n := cutCount s
  { State.powerUp s.cfg with
    flash := cutFlash s
    sig0 := match k with
      | .watchdog => s.sig0
      | _ => Config.freeByte n
    sig1 := match k with
      | .watchdog => s.sig1
      | _ => Config.freeByte (n + 1)
    rcExt := match k with
      | .powerOn => false
      | .external => true
      | .watchdog => freeBit (n + 2)
    rcWdt := match k with
      | .powerOn => false
      | .external => freeBit (n + 2)
      | .watchdog => true
    env := s.env
    menuPlan := s.menuPlan
    txLog := s.txLog
    freeCount := n + 3 }

end Sys2Proof.Machine
end

