-- ==== Sys2Proof/Machine/PageFlash.lean ====
section
/-! DEFINITION. The Page Buffer and Flash Writer (spec/44_page_flash.md): the CORE's operations on the page, and the five calls of the flash
self-programming interface. An erase or a commit ends when the flash device completes it (`completeFlash`). -/

namespace Sys2Proof.Machine

/-- `PAGE` all `ERASED` (R191). -/
def clearPage (s : State) : State := { s with page := List.replicate s.cfg.pageSize erased }

/-- `reset_page()` (R191). -/
def execResetPage (s : State) : Out := .next (clearPage s)

/-- The hardware steps of a page write, in order (R192). -/
def pageWriteSteps (s : State) : List Task :=
  let base := pageBase s.cfg s.curPage
  .instr (.hwstep (.erasePage base))
    :: ((List.range (s.cfg.pageSize / 2)).map fun k => .instr (.hwstep (.fillWord (base + 2 * k) (pairWord s.page k))))
    ++ [.instr (.hwstep (.commitPage base))]

/-- `write_current_page()` (R192). -/
def execWriteCurrentPage (s : State) : Out := .next (push (pageWriteSteps s) s)

/-- The operation of a flash call. -/
def callInstr : FlashCall → Instr
  | .erasePage a => .flashErasePage a
  | .fillWord a w => .flashFillWord a w
  | .commitPage a => .flashCommitPage a
  | .rwwEnable => .flashRwwEnable

/-- `hwstep { call }` (R199): masked from the call to the end of its completion wait. -/
def beginHwstep (call : FlashCall) (s : State) : State :=
  push [.instr (callInstr call), .instr .flashWait, .micro (.unmask s.ie)] { s with ie := false }

/-- `hwstep { call }` (R199). -/
def execHwstep (call : FlashCall) (s : State) : Out := .next (beginHwstep call s)

/-- `rww_reenable()` (R193). -/
def execRwwReenable (s : State) : Out := .next (push [.instr (.hwstep .rwwEnable)] s)

/-- `flash_read_byte(a)` (R200). -/
def execFlashReadByte (a : Nat) (s : State) : Out :=
  if inFlash s.cfg a then .next (setResult (.byte (memRead a s).1) (memRead a s).2) else .refused .outsideFlash

/-- `FlashErasePage(a)` (R194). -/
def execFlashErasePage (a : Nat) (s : State) : Out :=
  if flashBusy s || !pageAligned s.cfg a then .refused .flashProtocol
  else if !inFlash s.cfg a then .refused .outsideFlash
  else .next { s with flashOp := some (.erase a), flashSession := none, rwwOk := false }

/-- The pair that the word at `a` fills next, where the protocol allows the call (R195, U11): inside the page being written, in ascending
order, once each. -/
def fillPair (a : Nat) (s : State) : Option (Nat × Nat) :=
  match s.flashSession with
  | none => none
  | some (base, k) => if a = base + 2 * k ∧ 2 * k < s.cfg.pageSize then some (base, k) else none

/-- `FlashFillWord(a, w)` (R195). -/
def execFlashFillWord (a : Nat) (w : Word) (s : State) : Out :=
  if flashBusy s then .refused .flashProtocol
  else match fillPair a s with
    | none => .refused .flashProtocol
    | some (base, k) => .next { s with
        ftemp := (s.ftemp.set (offsetOf s.cfg a) (lowByte w)).set (offsetOf s.cfg a + 1) (highByte w)
        flashSession := some (base, k + 1) }

/-- `FlashCommitPage(a)` (R196): the page at `a` is erased and all its words are filled. -/
def execFlashCommitPage (a : Nat) (s : State) : Out :=
  if flashBusy s || !pageAligned s.cfg a then .refused .flashProtocol
  else if !inFlash s.cfg a then .refused .outsideFlash
  else if s.flashSession = some (a, s.cfg.pageSize / 2) then
    .next { s with flashOp := some (.commit a), rwwOk := false }
  else .refused .flashProtocol

/-- `FlashWait()` (R197): while an operation is in flight the wait goes on. -/
def execFlashWait (s : State) : Out :=
  if flashBusy s then .next (push [.instr .flashWait] s) else .next s

/-- `FlashRwwEnable()` (R198). -/
def execFlashRwwEnable (s : State) : Out :=
  if flashBusy s then .refused .flashProtocol else .next { s with rwwOk := true }

end Sys2Proof.Machine
end

