-- ==== Sys2Proof/Machine/Transport.lean ====
section
/-! DEFINITION. The Transport (spec/41_transport.md): the contract operations, the three handlers, the critical section and the clock read. -/

namespace Sys2Proof.Machine

/-- `send_byte(b)` (R121): stored when there is room, else the caller is held and tries again. -/
def execSendByte (b : Byte) (s : State) : Out :=
  if txFull s then .next (hold [.instr (.sendByte b)] s) else .next (masked (storeTx b) s)

/-- `receive_byte()` (R122). -/
def execReceiveByte (s : State) : Out := .next (masked takeRx s)

/-- `available()` (R123). -/
def execAvailable (s : State) : Out :=
  .next (masked (fun t => setResult (.bool (!decide (t.rxHead = t.rxTail))) t) s)

/-- `flush()` (R124): returns on an empty outbound ring, else the caller is held and looks again. -/
def execFlush (s : State) : Out :=
  if s.txHead = s.txTail then .next s else .next (hold [.instr .flush] s)

/-- The body of `rx_handler` (R125). -/
def rxBody (s : State) : State :=
  let t := { s with err := latchReports s.err s.rxOvr s.rxFe, rxPend := false }
  if rxFull t then { t with err := latchOverflow t.err } else storeRx t.rxByte t

/-- `rx_handler` (R125). -/
def execRxHandler (s : State) : Out := .next (runHandler .rx rxBody s)

/-- The body of `tx_handler` (R126): `uart_tx(b)` is the new last entry of the log. -/
def txBody (s : State) : State :=
  kick { s with
    txTail := nextCursor s.txTail s.cfg.txSlots
    txLog := s.txLog ++ [byteOf s.txb s.txTail]
    txRdy := false }

/-- `tx_handler` (R126). -/
def execTxHandler (s : State) : Out := .next (runHandler .tx txBody s)

/-- The body of `tick_handler` (R127). -/
def tickBody (s : State) : State := { s with ms := (s.ms + 1) % 2 ^ s.cfg.msWidth, tickPend := false }

/-- `tick_handler` (R127). -/
def execTickHandler (s : State) : Out := .next (runHandler .tick tickBody s)

/-- One access of a critical section (R128). -/
def access (x : Access) (s : State) : State :=
  match x with
  | .readErr => setResult (.errs s.err) s
  | .readMs => setResult (.clock s.ms) s
  | .testAvailable => setResult (.bool (!decide (s.rxHead = s.rxTail))) s
  | .testDrained => setResult (.bool (decide (s.txHead = s.txTail))) s
  | .takeRx => takeRx s
  | .putTx b => if txFull s then setResult (.bool false) s else setResult (.bool true) (storeTx b s)
  | .kick => kick s

/-- `critical { body }` (R128), one step. -/
def execCritical (body : List Access) (s : State) : Out :=
  .next (masked (fun t => body.foldl (fun u x => access x u) t) s)

/-- `ms_now()` (R129). -/
def execMsNow (s : State) : Out := .next (masked (fun t => setResult (.clock t.ms) t) s)

/-- `idle` (R130). -/
def execIdle (s : State) : Out := .next (hold [] s)

/-- `next(c, N)` (R131). -/
def execNext (c n : Nat) (s : State) : Out := .next (setResult (.cursor (nextCursor c n)) s)

/-- The writes of `transport_init()` (R132). -/
def initTransport (s : State) : State := { s with rxHead := 0, rxTail := 0, txHead := 0, txTail := 0, err := noErrors }

/-- `transport_init()` (R132). -/
def execTransportInit (s : State) : Out := .next (initTransport s)

end Sys2Proof.Machine
end

