-- ==== Sys2Proof/Machine/BootSequencer.lean ====
section
/-! DEFINITION. The Boot Sequencer (spec/46_boot_sequencer.md): the main flow, the two passes, and the line classes. -/

namespace Sys2Proof.Machine

/-- `boot_main` (R240): its straight line up to the end of the flash pass; `passEnd` goes on from there. -/
def execBootMain (s : State) : Out :=
  .next (push ([.instr .bootDecide, .instr .blInit] ++ emit s.cfg.strStartup
    ++ [.micro (.enterPass .flash), .instr (.runPass .flash), .micro (.passEnd .flash)]) s)

/-- `bl_init()` (R241): interrupts are enabled last. The listing leaves `rx_pend` and `tick_pend` alone, and so a byte or a tick that came
since the reset stays pending (R40, R293), although R42 gives both as false after `bl_init`: DESIGN CHOICE (log entry 37). -/
def execBlInit (s : State) : Out :=
  let t := initTransport s
  let t := { t with lineLen := 0, lineDone := false, curPage := 0, lastEnd := none, count := 0,
                    status := .waiting, tRunning := false, ms := 0 }
  .next { armWdt .deadman t with ie := true }

/-- The writes at the start of a pass (R242). -/
def startPass (m : Mode) (s : State) : State :=
  let t := { s with mode := m, status := .waiting, count := 0, tRunning := false }
  match m with
  | .flash => clearPage t
  | .verify => t

/-- `run_pass(m)` (R242): the start of the pass, the banner, the prompt, then the loop. -/
def execRunPass (m : Mode) (s : State) : Out :=
  .next (push (emit (bannerText s.cfg m) ++ emit s.cfg.strPrompt ++ [.micro .passLoop]) (startPass m s))

/-- The loop head of `run_pass` (R242): `return status` when the pass has ended. -/
def passLoop (s : State) : State :=
  match s.status with
  | .waiting => push [.instr .pollLine, .micro .passRoute] s
  | .inProgress => push [.instr .pollLine, .micro .passRoute] s
  | .ok => setResult (.status .ok) s
  | .error => setResult (.status .error) s

/-- The loop body of `run_pass` after `poll_line` (R242): a completed line is routed by its class (spec/30_encoding.md R92). -/
def passRoute (s : State) : State :=
  if s.result = .bool true then push [.fetch (.line (lineText s)), .micro .passLoop] s else push [.micro .passLoop] s

/-- `boot_main` after a pass (R240): R247 on ERROR; else the elapsed time is reported (R248), and the verify pass or the reboot into the
application (R249) follows. -/
def passEnd (m : Mode) (s : State) : State :=
  if s.status = .error then push [.instr .forceRebootToBootloader] s
  else match m with
    | .flash => push [.instr .msNow, .micro .elapsed, .micro (.enterPass .verify), .instr (.runPass .verify),
        .micro (.passEnd .verify)] s
    | .verify => push [.instr .msNow, .micro .elapsed, .instr .forceRebootToApp] s

/-- The elapsed-time report (R248). -/
def reportElapsed (s : State) : State :=
  match s.result with
  | .clock t => push (emit (textOf s.cfg.strElapsed (elapsedTime s.cfg s.tStart t))) s
  | _ => s

/-- Line class RECORD (R243, R244): the first record of a pass starts the elapsed-time measurement. -/
def execLineRecord (s : State) : Out :=
  .next (push [.instr (.processRecord s.mode)] (if s.tRunning then s else { s with tStart := s.ms, tRunning := true }))

/-- Line class COMMAND (R246). -/
def execLineCommand (_c : Byte) (s : State) : Out := .next (push [.instr .menu] s)

/-- Line class EMPTY (R245). -/
def execLineEmpty (s : State) : Out := .next (push (emit s.cfg.strPrompt) s)

/-- What one act of the menu is (R246). -/
def menuTask : MenuAct → Task
  | .emit b => .instr (.sendByte b)
  | .flush => .instr .flush
  | .readFlash a => .instr (.flashReadByte a)
  | .readClock => .instr .msNow

/-- `menu(LINE)` (R246): the acts the collaborator chooses, then it returns. -/
def execMenu (s : State) : Out :=
  match s.menuPlan with
  | [] => .next s
  | acts :: later => .next (push (acts.map menuTask) { s with menuPlan := later })

end Sys2Proof.Machine
end

