-- ==== Sys2Proof/Machine/Handoff.lean ====
section
/-! DEFINITION. Boot Handoff and Watchdog Guard (spec/47_handoff_watchdog.md), the entry of a transport fault (spec/60_exceptions.md R298) and the
three reset events (spec/70_reset_and_hazards.md R321 to R323). -/

namespace Sys2Proof.Machine

/-- A plain power-up: no reset cause is set (R262). -/
def plainPowerUp (s : State) : Bool := !s.rcExt && !s.rcWdt

/-- `SIG` = `MAGIC` (spec/10_state.md R32). -/
def sigIsMagic (s : State) : Bool := decide (s.sig0 = s.cfg.magic0) && decide (s.sig1 = s.cfg.magic1)

/-- `boot_decide()` (R262). One step writes both bytes of `SIG`: no reset that keeps `SIG` can fall between
them, because the watchdog is not armed here: DEDUCED (log entry 36). -/
def execBootDecide (s : State) : Out :=
  if plainPowerUp s || sigIsMagic s then .next (handOver { s with sig0 := 0x00, sig1 := 0x00 })
  else .next { s with sig0 := s.cfg.magic0, sig1 := s.cfg.magic1, seq := .blInit }

/-- `jump_app()` (R263). -/
def execJumpApp (s : State) : Out := .next (handOver s)

/-- `force_reboot_to_bootloader()` (R264) up to its write of `SIG[0]`; the main flow goes on with the rest of it, and it never returns. -/
def execForceRebootToBootloader (s : State) : Out :=
  .next (startReboot .bootloader s)

/-- `force_reboot_to_app()` (R265) up to its write of `SIG[0]`; the main flow goes on with the rest of it, and it never returns. -/
def execForceRebootToApp (s : State) : Out :=
  .next (startReboot .application s)

/-- `Kick()` (R266). -/
def execKick (s : State) : Out := .next (kick s)

/-- `wdt_arm(T)` (R268). -/
def execWdtArm (t : Timeout) (s : State) : Out := .next (armWdt t s)

/-- `TransportFault(e)` (R298). -/
def execTransportFault (e : ErrFlags) (s : State) : Out := .next (raiseTransport e s)

/-- `power_on` (R321). -/
def execPowerOn (s : State) : Out := .next (deviceReset .powerOn s)

/-- `ext_reset` (R322). -/
def execExtReset (s : State) : Out := .next (deviceReset .external s)

/-- `wdt_expire` (R323). -/
def execWdtExpire (s : State) : Out := .next (deviceReset .watchdog s)

end Sys2Proof.Machine
end

