-- ==== Sys2Proof/Machine/HexDecoder.lean ====
section
/-! DEFINITION. The Hex Decoder (spec/43_hex_decoder.md): the six conversions and the rows of format HEXDIGIT. All are pure (R170): only the
result is written. -/

namespace Sys2Proof.Machine

/-- The value of a hex digit (R94). -/
def digitResult (v : Nibble) (s : State) : State := setResult (.nibble v) s

/-- The digit `0` (R94). -/
def execHex0 (s : State) : Out := .next (digitResult 0 s)

/-- The digit `1` (R94). -/
def execHex1 (s : State) : Out := .next (digitResult 1 s)

/-- The digit `2` (R94). -/
def execHex2 (s : State) : Out := .next (digitResult 2 s)

/-- The digit `3` (R94). -/
def execHex3 (s : State) : Out := .next (digitResult 3 s)

/-- The digit `4` (R94). -/
def execHex4 (s : State) : Out := .next (digitResult 4 s)

/-- The digit `5` (R94). -/
def execHex5 (s : State) : Out := .next (digitResult 5 s)

/-- The digit `6` (R94). -/
def execHex6 (s : State) : Out := .next (digitResult 6 s)

/-- The digit `7` (R94). -/
def execHex7 (s : State) : Out := .next (digitResult 7 s)

/-- The digit `8` (R94). -/
def execHex8 (s : State) : Out := .next (digitResult 8 s)

/-- The digit `9` (R94). -/
def execHex9 (s : State) : Out := .next (digitResult 9 s)

/-- The digit `A` (R94). -/
def execHexA (s : State) : Out := .next (digitResult 10 s)

/-- The digit `B` (R94). -/
def execHexB (s : State) : Out := .next (digitResult 11 s)

/-- The digit `C` (R94). -/
def execHexC (s : State) : Out := .next (digitResult 12 s)

/-- The digit `D` (R94). -/
def execHexD (s : State) : Out := .next (digitResult 13 s)

/-- The digit `E` (R94). -/
def execHexE (s : State) : Out := .next (digitResult 14 s)

/-- The digit `F` (R94). -/
def execHexF (s : State) : Out := .next (digitResult 15 s)

/-- The digit `a` (R94). -/
def execHexLowerA (s : State) : Out := .next (digitResult 10 s)

/-- The digit `b` (R94). -/
def execHexLowerB (s : State) : Out := .next (digitResult 11 s)

/-- The digit `c` (R94). -/
def execHexLowerC (s : State) : Out := .next (digitResult 12 s)

/-- The digit `d` (R94). -/
def execHexLowerD (s : State) : Out := .next (digitResult 13 s)

/-- The digit `e` (R94). -/
def execHexLowerE (s : State) : Out := .next (digitResult 14 s)

/-- The digit `f` (R94). -/
def execHexLowerF (s : State) : Out := .next (digitResult 15 s)

/-- Every other character reads as digit 0, silently (R94, spec/60_exceptions.md R289). -/
def execHexNonhex (_c : Byte) (s : State) : Out := .next (digitResult 0 s)

/-- `hex_nibble_to_dec(c)` (R171). -/
def execHexNibbleToDec (c : Byte) (s : State) : Out := .next (digitResult (hexval c) s)

/-- `hex_nibble_to_hex(v)` (R172). -/
def execHexNibbleToHex (v : Nibble) (s : State) : Out := .next (setResult (.char (hexchar v)) s)

/-- `hex_byte_to_dec(c1, c0)` (R173). -/
def execHexByteToDec (c1 c0 : Byte) (s : State) : Out := .next (setResult (.byte (hexByteToBin c1 c0)) s)

/-- `hex_byte_to_hex(b)` (R174). -/
def execHexByteToHex (b : Byte) (s : State) : Out := .next (setResult (.chars (binByteToHex b)) s)

/-- `hex_word_to_dec(c3, c2, c1, c0)` (R175). -/
def execHexWordToDec (c3 c2 c1 c0 : Byte) (s : State) : Out := .next (setResult (.word (hexWordToBin c3 c2 c1 c0)) s)

/-- `hex_word_to_hex(w)` (R176). -/
def execHexWordToHex (w : Word) (s : State) : Out := .next (setResult (.chars (binWordToHex w)) s)

end Sys2Proof.Machine
end

