-- ==== Sys2Proof/Machine/LineReader.lean ====
section
/-! DEFINITION. The Line Reader (spec/42_line_reader.md): `poll_line` and its byte classes. A byte class runs as the unit that
`poll_line` took from the ring, and its result is `poll_line`'s. -/

namespace Sys2Proof.Machine

/-- The first two lines of `poll_line` (R153). -/
def startLine (s : State) : State := if s.lineDone then { s with lineLen := 0, lineDone := false } else s

/-- `poll_line()` (R150) up to its `receive_byte`: the new line (R153), the fatal-flag check (R151). -/
def execPollLine (s : State) : Out :=
  let t := startLine s
  if anyError t.err then .next (raiseTransport t.err t)
  else .next (push [.instr .receiveByte, .micro .pollGot] t)

/-- `poll_line()` after its `receive_byte`: no byte (R152), or the class of the byte. -/
def pollGot (s : State) : State :=
  match s.result with
  | .byte b => push [.fetch (.byte b)] s
  | _ => setResult (.bool false) s

/-- A line is complete: `line_done <- true; return true`. -/
def completeLine (s : State) : State := { s with lineDone := true, result := .bool true }

/-- A line terminator (R155, R156, R159). -/
def terminator (s : State) : State :=
  if s.lineLen = 0 then setResult (.bool false) s
  else if byteOf s.line 0 = chColon then completeLine s
  else push (emit strCrlf ++ [.micro .lineEnd]) s

/-- Byte class ESC (R154). -/
def execByteEsc (s : State) : Out := .next (completeLine { s with lineLen := 0 })

/-- Byte class CR (R155, R156). -/
def execByteCr (s : State) : Out := .next (terminator s)

/-- Byte class LF (R155, R156). -/
def execByteLf (s : State) : Out := .next (terminator s)

/-- Byte class OTHER (R157, R158). -/
def execByteOther (b : Byte) (s : State) : Out :=
  if s.lineLen < s.cfg.lineCap then
    .next (setResult (.bool false) { s with line := s.line.set s.lineLen b, lineLen := s.lineLen + 1 })
  else .next (setResult (.bool false) s)

end Sys2Proof.Machine
end

