-- ==== Sys2Proof/Machine/RecordDecoder.lean ====
section
/-! DEFINITION. The Decoder/Flasher (spec/45_record_decoder.md): `process_record` and its rows by type and mode. The listing is R210's. The steps between two
page writes touch only what no handler touches (spec/20_memory.md R79), and run as one step (log entry 8). -/

namespace Sys2Proof.Machine

/-- `process_record(m)` (R210), step 1 (R211): the record is decoded and its row runs next. -/
def execProcessRecord (m : Mode) (s : State) : Out :=
  match readRec (lineText s) with
  | none => .refused .shortRecord
  | some _ => .next (push [.fetch (.hexrec m (lineText s))] s)

/-- The first and last column of the checksum field (spec/30_encoding.md R95). -/
def checksumCols (r : Rec) : Nat × Nat := (9 + 2 * r.data.length, 10 + 2 * r.data.length)

/-- Step 5 failed (R216). -/
def raiseChecksum (r : Rec) (s : State) : State := raiseFault .checksum (checksumCols r).1 (checksumCols r).2 s

/-- Step 7 (R219): the record's end address and byte count, the progress message, then the status. -/
def acceptData (m : Mode) (r : Rec) (s : State) : State :=
  push (emit (progressText s.cfg m (s.count + r.data.length)) ++ [.micro .dataDone])
    { s with lastEnd := some (r.addr.toNat + r.data.length), count := s.count + r.data.length }

/-- The end of step 7: `status <- IN_PROGRESS; return IN_PROGRESS`. -/
def dataDone (s : State) : State := { s with status := .inProgress, result := .status .inProgress }

/-- Steps 5 and 7 of a data record (R216, R219). -/
def finishData (m : Mode) (r : Rec) (sum : Byte) (s : State) : State :=
  if checksumOk sum r.ss then acceptData m r s else raiseChecksum r s

/-- How far step 4 of a data record in a flash pass comes without a page write. -/
inductive StageOut where
  /-- A byte's address is outside the flash (U3). -/
  | outside
  /-- The byte for address `a` is in another page; `rest` are it and the bytes after it. -/
  | crossing (rest : List Byte) (a : Nat) (sum : Byte) (s : State)
  /-- All bytes are staged. -/
  | staged (sum : Byte) (s : State)
  deriving DecidableEq, Repr

/-- Step 4 in a flash pass (R214), from the byte for address `a` on. -/
def stageBytes : List Byte → Nat → Byte → State → StageOut
  | [], _, sum, s => .staged sum s
  | d :: ds, a, sum, s =>
    if !inFlash s.cfg a then .outside
    else if pageOf s.cfg a = s.curPage then
      stageBytes ds (a + 1) (sum + d) { s with page := s.page.set (offsetOf s.cfg a) d }
    else .crossing (d :: ds) a sum s

/-- Steps 4, 5 and 7 of a data record in a flash pass, from the byte for address `a` on (R214): a byte in another page makes the page write, the
reset of the buffer and the new `cur_page` come first. -/
def stageFrom (r : Rec) (data : List Byte) (a : Nat) (sum : Byte) (s : State) : Out :=
  match stageBytes data a sum s with
  | .outside => .refused .outsideFlash
  | .crossing rest a' sum' t =>
    .next (push [.instr .writeCurrentPage, .instr .resetPage, .micro (.stageResume r rest a' sum')] t)
  | .staged sum' t => .next (finishData .flash r sum' t)

/-- After the page write: `cur_page <- page(a)`, and step 4 goes on (R214). -/
def stageResume (r : Rec) (rest : List Byte) (a : Nat) (sum : Byte) (s : State) : Out :=
  if inFlash s.cfg a then stageFrom r rest a sum { s with curPage := pageOf s.cfg a } else .refused .outsideFlash

/-- How step 4 of a data record in a verify pass ends. -/
inductive CompareOut where
  /-- A byte's address is outside the flash (U3). -/
  | outside
  /-- Data byte `i` differs from the flash. -/
  | mismatch (i : Nat) (s : State)
  /-- All bytes are equal. -/
  | equal (sum : Byte) (s : State)
  deriving DecidableEq, Repr

/-- Step 4 in a verify pass (R215), from data byte `i` at address `a` on. -/
def compareBytes : List Byte → Nat → Nat → Byte → State → CompareOut
  | [], _, _, sum, s => .equal sum s
  | d :: ds, a, i, sum, s =>
    if !inFlash s.cfg a then .outside
    else if (memRead a s).1 = d then compareBytes ds (a + 1) (i + 1) (sum + d) (memRead a s).2
    else .mismatch i (memRead a s).2

/-- `DATA` record, FLASH mode (R212, R213, R214, R216, R219). -/
def execRecDataFlash (r : Rec) (s : State) : Out :=
  match addressFault s.lastEnd r.addr.toNat with
  | some cause => .next (raiseFault cause 3 6 s)
  | none => stageFrom r r.data r.addr.toNat (headerSum 0x00 r) s

/-- `DATA` record, VERIFY mode (R212, R213, R215, R216, R219). -/
def execRecDataVerify (r : Rec) (s : State) : Out :=
  match addressFault s.lastEnd r.addr.toNat with
  | some cause => .next (raiseFault cause 3 6 s)
  | none =>
    match compareBytes r.data r.addr.toNat 0 (headerSum 0x00 r) s with
    | .outside => .refused .outsideFlash
    | .mismatch i t => .next (raiseFault .verifyMismatch (9 + 2 * i) (10 + 2 * i) t)
    | .equal sum t => .next (finishData .verify r sum t)

/-- Steps 3 to 5 of a record whose data bytes enter the checksum only (R217, R218, R220). -/
def recordOk (tt : Byte) (r : Rec) : Bool := checksumOk (foldData r.data (headerSum tt r)) r.ss

/-- `EOF` record, FLASH mode (R217). -/
def execRecEofFlash (r : Rec) (s : State) : Out :=
  if recordOk 0x01 r then
    .next (push [.instr .writeCurrentPage, .instr .resetPage, .instr .rwwReenable, .micro .eofDone] s)
  else .next (raiseChecksum r s)

/-- `status <- OK; return OK` (R217, R218). -/
def passOk (s : State) : State := { s with status := .ok, result := .status .ok }

/-- The end of an `EOF` record in a flash pass (R217). -/
def eofDone (s : State) : State := passOk { s with curPage := 0, lastEnd := none }

/-- `EOF` record, VERIFY mode (R218). -/
def execRecEofVerify (r : Rec) (s : State) : Out :=
  if recordOk 0x01 r then .next (passOk s) else .next (raiseChecksum r s)

/-- `OTHER` record, both modes (R220). -/
def execRecOther (tt : Byte) (r : Rec) (s : State) : Out :=
  if recordOk tt r then .next (setResult (.status s.status) s) else .next (raiseChecksum r s)

end Sys2Proof.Machine
end

