-- ==== Sys2Proof/Machine/Dispatch.lean ====
section
/-! DEFINITION. One arm per instruction, in the order of spec/opcode_table.json. -/

namespace Sys2Proof.Machine

/-- The meaning of an instruction. -/
def exec (i : Instr) (s : State) : Host.Outcome State Fault Refusal :=
  match i with
  | .byteEsc => Sys2Proof.Machine.execByteEsc s
  | .byteCr => Sys2Proof.Machine.execByteCr s
  | .byteLf => Sys2Proof.Machine.execByteLf s
  | .byteOther b => Sys2Proof.Machine.execByteOther b s
  | .lineRecord => Sys2Proof.Machine.execLineRecord s
  | .lineCommand c => Sys2Proof.Machine.execLineCommand c s
  | .lineEmpty => Sys2Proof.Machine.execLineEmpty s
  | .recDataFlash r => Sys2Proof.Machine.execRecDataFlash r s
  | .recDataVerify r => Sys2Proof.Machine.execRecDataVerify r s
  | .recEofFlash r => Sys2Proof.Machine.execRecEofFlash r s
  | .recEofVerify r => Sys2Proof.Machine.execRecEofVerify r s
  | .recOther tt r => Sys2Proof.Machine.execRecOther tt r s
  | .hex0 => Sys2Proof.Machine.execHex0 s
  | .hex1 => Sys2Proof.Machine.execHex1 s
  | .hex2 => Sys2Proof.Machine.execHex2 s
  | .hex3 => Sys2Proof.Machine.execHex3 s
  | .hex4 => Sys2Proof.Machine.execHex4 s
  | .hex5 => Sys2Proof.Machine.execHex5 s
  | .hex6 => Sys2Proof.Machine.execHex6 s
  | .hex7 => Sys2Proof.Machine.execHex7 s
  | .hex8 => Sys2Proof.Machine.execHex8 s
  | .hex9 => Sys2Proof.Machine.execHex9 s
  | .hexA => Sys2Proof.Machine.execHexA s
  | .hexB => Sys2Proof.Machine.execHexB s
  | .hexC => Sys2Proof.Machine.execHexC s
  | .hexD => Sys2Proof.Machine.execHexD s
  | .hexE => Sys2Proof.Machine.execHexE s
  | .hexF => Sys2Proof.Machine.execHexF s
  | .hexLowerA => Sys2Proof.Machine.execHexLowerA s
  | .hexLowerB => Sys2Proof.Machine.execHexLowerB s
  | .hexLowerC => Sys2Proof.Machine.execHexLowerC s
  | .hexLowerD => Sys2Proof.Machine.execHexLowerD s
  | .hexLowerE => Sys2Proof.Machine.execHexLowerE s
  | .hexLowerF => Sys2Proof.Machine.execHexLowerF s
  | .hexNonhex c => Sys2Proof.Machine.execHexNonhex c s
  | .sendByte b => Sys2Proof.Machine.execSendByte b s
  | .receiveByte => Sys2Proof.Machine.execReceiveByte s
  | .available => Sys2Proof.Machine.execAvailable s
  | .flush => Sys2Proof.Machine.execFlush s
  | .rxHandler => Sys2Proof.Machine.execRxHandler s
  | .txHandler => Sys2Proof.Machine.execTxHandler s
  | .tickHandler => Sys2Proof.Machine.execTickHandler s
  | .critical body => Sys2Proof.Machine.execCritical body s
  | .msNow => Sys2Proof.Machine.execMsNow s
  | .idle => Sys2Proof.Machine.execIdle s
  | .next c n => Sys2Proof.Machine.execNext c n s
  | .transportInit => Sys2Proof.Machine.execTransportInit s
  | .pollLine => Sys2Proof.Machine.execPollLine s
  | .hexNibbleToDec c => Sys2Proof.Machine.execHexNibbleToDec c s
  | .hexNibbleToHex v => Sys2Proof.Machine.execHexNibbleToHex v s
  | .hexByteToDec c1 c0 => Sys2Proof.Machine.execHexByteToDec c1 c0 s
  | .hexByteToHex b => Sys2Proof.Machine.execHexByteToHex b s
  | .hexWordToDec c3 c2 c1 c0 => Sys2Proof.Machine.execHexWordToDec c3 c2 c1 c0 s
  | .hexWordToHex w => Sys2Proof.Machine.execHexWordToHex w s
  | .resetPage => Sys2Proof.Machine.execResetPage s
  | .writeCurrentPage => Sys2Proof.Machine.execWriteCurrentPage s
  | .rwwReenable => Sys2Proof.Machine.execRwwReenable s
  | .hwstep call => Sys2Proof.Machine.execHwstep call s
  | .flashReadByte a => Sys2Proof.Machine.execFlashReadByte a s
  | .flashErasePage a => Sys2Proof.Machine.execFlashErasePage a s
  | .flashFillWord a w => Sys2Proof.Machine.execFlashFillWord a w s
  | .flashCommitPage a => Sys2Proof.Machine.execFlashCommitPage a s
  | .flashWait => Sys2Proof.Machine.execFlashWait s
  | .flashRwwEnable => Sys2Proof.Machine.execFlashRwwEnable s
  | .processRecord m => Sys2Proof.Machine.execProcessRecord m s
  | .bootMain => Sys2Proof.Machine.execBootMain s
  | .blInit => Sys2Proof.Machine.execBlInit s
  | .runPass m => Sys2Proof.Machine.execRunPass m s
  | .menu => Sys2Proof.Machine.execMenu s
  | .bootDecide => Sys2Proof.Machine.execBootDecide s
  | .jumpApp => Sys2Proof.Machine.execJumpApp s
  | .forceRebootToBootloader => Sys2Proof.Machine.execForceRebootToBootloader s
  | .forceRebootToApp => Sys2Proof.Machine.execForceRebootToApp s
  | .kick => Sys2Proof.Machine.execKick s
  | .wdtArm t => Sys2Proof.Machine.execWdtArm t s
  | .transportFault e => Sys2Proof.Machine.execTransportFault e s
  | .powerOn => Sys2Proof.Machine.execPowerOn s
  | .extReset => Sys2Proof.Machine.execExtReset s
  | .wdtExpire => Sys2Proof.Machine.execWdtExpire s

end Sys2Proof.Machine
end

