-- ==== Sys2Proof/Machine/Schedule.lean ====
section
/-! DEFINITION. What a step is made of beside the instructions: the places inside the main flow's operations, the moves of the
environment (spec/70_reset_and_hazards.md, host table), and which move comes next. -/

namespace Sys2Proof.Machine

/-- A place inside an operation of the main flow. -/
def runMicro (m : Micro) (s : State) : Out :=
  match m with
  | .pollGot => .next (pollGot s)
  | .lineEnd => .next (completeLine s)
  | .enterPass m => .next { s with seq := passSeq m }
  | .passLoop => .next (passLoop s)
  | .passRoute => .next (passRoute s)
  | .passEnd m => .next (passEnd m s)
  | .elapsed => .next (reportElapsed s)
  | .stageResume r rest a sum => stageResume r rest a sum s
  | .dataDone => .next (dataDone s)
  | .eofDone => .next (eofDone s)
  | .unmask saved => .next { s with ie := saved }
  | .rebootSig1 stage => .next (writeRebootSig1 stage s)
  | .rebootArm stage => .next (enterReboot stage s)
  | .idleLoop => .next (hold [.micro .idleLoop] s)
  | .spin => .next (push [.micro .spin] s)

/-- The instruction that is a source's handler (spec/60_exceptions.md R292). -/
def handlerInstr : Source → Instr
  | .rx => .rxHandler
  | .tx => .txHandler
  | .tick => .tickHandler

/-- Why a unit the decoder refuses is refused. -/
def refusalOf : DecodeError → Refusal
  | .shortRecord => .shortRecord
  | .badOperands => .badOperands
  | .noFormat => .noFormat

/-- An amount of time passes (spec/47_handoff_watchdog.md R267): the watchdog fires when its timeout is reached. Amounts are natural numbers of an unnamed unit:
DESIGN CHOICE (log entry 35). -/
def passTime (dt : Nat) (s : State) : State :=
  if s.wdtEn then
    if timeoutOf s.cfg s.wdtTimeout ≤ s.wdtElapsed + dt then deviceReset .watchdog { s with wdtElapsed := s.wdtElapsed + dt }
    else { s with wdtElapsed := s.wdtElapsed + dt }
  else s

/-- The application writes one byte of `SIG` (R270). -/
def writeSig (second : Bool) (b : Byte) (s : State) : State := if second then { s with sig1 := b } else { s with sig0 := b }

/-- A move of the environment, of the interrupt arbiter or of the flash device. A move that cannot happen in the state changes nothing: a second byte while one is
pending (U12), a source that cannot be served (R293), the application's moves while it does not run (R270). -/
def envMove (m : Move) (s : State) : State :=
  match m with
  | .cpu => s
  | .serve h => if canServe h s then enterHandler h s else s
  | .uartRx b ovr fe => if s.rxPend then s else { s with rxPend := true, rxByte := b, rxOvr := ovr, rxFe := fe }
  | .uartTxReady => { s with txRdy := true }
  | .tick => { s with tickPend := true }
  | .elapse dt => passTime dt s
  | .flashDone => completeFlash s
  | .powerOn => deviceReset .powerOn s
  | .extReset => deviceReset .external s
  | .appSig second b => if s.seq = .app then writeSig second b s else s
  | .appReset => if s.seq = .app then deviceReset .watchdog s else s

/-- The main flow can make a step that is more than waiting. -/
def mainReady (s : State) : Bool :=
  match s.main with
  | [] => false
  | .instr .flashWait :: _ => !s.held && !flashBusy s
  | _ :: _ => !s.held

/-- The sources that can be served, in one of the orders R294 allows. -/
def servable (s : State) : Option Source := [Source.rx, Source.tx, Source.tick].find? fun h => canServe h s

/-- The move made when `env` names none (log entry 7): the processor, else the flash device, else a pending handler. None: the machine waits for its
environment. -/
def defaultMove (s : State) : Option Move :=
  if s.inHandler.isSome || mainReady s then some .cpu
  else if flashBusy s then some .flashDone
  else (servable s).map .serve

end Sys2Proof.Machine
end

