-- ==== Sys2Proof/Machine/Step.lean ====
section
/-! DEFINITION. One step of the machine: one move of one agent (spec/20_memory.md R72). The move is the next of `env`, or the one
`defaultMove` picks. A unit the main flow fetches is decoded here and run by `exec`. -/

namespace Sys2Proof.Machine

/-- One task of the main flow. -/
def runTask (t : Task) (s : State) : Out :=
  match t with
  | .instr i => exec i s
  | .fetch u =>
    match decode u with
    | .ok i => exec i s
    | .error e => .refused (refusalOf e)
  | .micro m => runMicro m s

/-- The next task of the main flow; nothing while the flow is held or has no task. -/
def mainStep (s : State) : Out :=
  if s.held then .next s
  else match s.main with
    | [] => .next s
    | t :: ts => runTask t { s with main := ts }

/-- The processor's step: the handler that runs, to its exit, else the main flow (spec/60_exceptions.md R296, R297). -/
def cpuStep (s : State) : Out :=
  match s.inHandler with
  | some h => exec (handlerInstr h) s
  | none => mainStep s

/-- One move. -/
def moveStep (m : Move) (s : State) : Out :=
  match m with
  | .cpu => cpuStep s
  | _ => .next (envMove m s)

/-- One step. -/
def step (s : State) : Host.Outcome State Fault Refusal :=
  match s.env with
  | m :: later => moveStep m { s with env := later }
  | [] =>
    match defaultMove s with
    | some m => moveStep m s
    | none => .next s

/-- The unit of a table row's bits as the main flow's next task, with nothing that would make another move first: the very next step
decodes it and runs it (log entry 20). -/
def State.withFetchWord (s : State) (nbits w : Nat) : State :=
  { s with main := .fetch (tableUnit nbits w) :: s.main, held := false, inHandler := none, env := [] }

end Sys2Proof.Machine
end

