-- ==== Sys2Proof/Safety.lean ====
section
/-! DEFINITION. What counts as a good state, and the notions the statements use: the value of a character and the sum of a record written out in numbers, the contents of the
rings, runs of steps, and which instruction a step runs. -/

namespace Sys2Proof.Machine

/-- The value of one character, as the table of R94 gives it. -/
def digitValue (c : Byte) : Nat :=
  if 48 ≤ c.toNat ∧ c.toNat ≤ 57 then c.toNat - 48
  else if 65 ≤ c.toNat ∧ c.toNat ≤ 70 then c.toNat - 65 + 10
  else if 97 ≤ c.toNat ∧ c.toNat ≤ 102 then c.toNat - 97 + 10
  else 0

/-- The number that the two characters at columns k, k+1 stand for (R96). -/
def columnByte (cs : List Byte) (k : Nat) : Nat := 16 * digitValue (cs.getD k 0) + digitValue (cs.getD (k + 1) 0)

/-- The sum of CC, AH, AL, TT, the data bytes and SS (R98), before it is taken modulo 256. -/
def recordTotal (tt : Byte) (r : Rec) : Nat :=
  r.data.length + r.addr.toNat / 256 + r.addr.toNat % 256 + tt.toNat + (r.data.map BitVec.toNat).sum + r.ss.toNat

/-- The address test of a data record passes (R212). -/
def addressAccepted (s : State) (r : Rec) : Prop :=
  (s.lastEnd = none ∧ r.addr.toNat = 0) ∨ ∃ e, s.lastEnd = some e ∧ e ≤ r.addr.toNat

/-- A page with `data` stored from offset `o` on. -/
def storedAt (page page' data : List Byte) (o : Nat) : Prop :=
  page'.length = page.length ∧
    ∀ k, byteOf page' k = if o ≤ k ∧ k < o + data.length then data.getD (k - o) 0 else byteOf page k

/-- The buffered bytes of a ring, oldest first (spec/10_state.md R22). -/
def ringQueue (buf : List Byte) (head tail slots : Nat) : List Byte :=
  (List.range ((head + slots - tail) % slots)).map fun k => byteOf buf ((tail + k) % slots)

/-- The inbound ring's contents. -/
def rxQueue (s : State) : List Byte := ringQueue s.rxb s.rxHead s.rxTail s.cfg.rxSlots

/-- The outbound ring's contents. -/
def txQueue (s : State) : List Byte := ringQueue s.txb s.txHead s.txTail s.cfg.txSlots

/-- `n` steps, stopping at the first refusal. -/
def steps : Nat → State → Out
  | 0, s => .next s
  | n + 1, s =>
    match step s with
    | .next t => steps n t
    | .fault f => .fault f
    | .refused r => .refused r

/-- The next step is one of the processor. -/
def cpuMoves (s : State) : Prop := (∃ later, s.env = .cpu :: later) ∨ (s.env = [] ∧ defaultMove s = some .cpu)

/-- The next step is one of the main flow, with `t` its next task. -/
def mainRuns (s : State) (t : Task) : Prop :=
  cpuMoves s ∧ s.inHandler = none ∧ s.held = false ∧ ∃ k, s.main = t :: k

/-- The next step runs instruction `i` in the main flow. -/
def runs (s : State) (i : Instr) : Prop := mainRuns s (.instr i) ∨ ∃ u, mainRuns s (.fetch u) ∧ decode u = .ok i

/-- The machine stands at the reset entry (spec/70_reset_and_hazards.md R325). -/
def atResetEntry (s : State) : Prop :=
  s.seq = .decide ∧ s.main = [.instr .bootMain] ∧ s.ie = false ∧ s.wdtEn = false ∧ s.inHandler = none ∧ s.rebootArmed = false

/-- A task of the main flow inside the body of `run_pass`'s loop (spec/46_boot_sequencer.md R242): polling, routing a line, decoding a record, the menu,
the page and the flash. -/
def bodyTask : Task → Bool
  | .fetch (.byte _) | .fetch (.line _) | .fetch (.hexrec _ _) => true
  | .instr .pollLine | .instr .receiveByte | .instr (.sendByte _) | .instr .flush | .instr .msNow | .instr .menu => true
  | .instr (.processRecord _) | .instr .writeCurrentPage | .instr .resetPage | .instr .rwwReenable | .instr (.hwstep _) => true
  | .instr (.flashReadByte _) | .instr (.flashErasePage _) | .instr (.flashFillWord _ _) | .instr (.flashCommitPage _) => true
  | .instr .flashWait | .instr .flashRwwEnable => true
  | .micro .pollGot | .micro .lineEnd | .micro (.stageResume _ _ _ _) | .micro .dataDone | .micro .eofDone | .micro (.unmask _) => true
  | _ => false

/-- A task of a report: the elapsed time (R248), and the bytes of a text. -/
def reportTask : Task → Bool
  | .instr (.sendByte _) | .instr .msNow | .micro .elapsed => true
  | _ => false

/-- What `boot_main` still does from a pass on, up to where the pass's status is looked at (R240). -/
def passFrom (m : Mode) : List Task := [.micro (.enterPass m), .instr (.runPass m), .micro (.passEnd m)]

/-- The operation of a forced reboot. -/
def rebootInstr : Stage → Instr
  | .bootloader => .forceRebootToBootloader
  | .application => .forceRebootToApp

/-- The main flow is on its way to a forced reboot: what it still reports, then the operation; or inside the operation (R264, R265). -/
def ToReboot (stage : Stage) (s : State) : Prop :=
  (∃ report, report.all reportTask = true ∧ s.main = report ++ [.instr (rebootInstr stage)]) ∨
  s.main = [.micro (.rebootSig1 stage), .micro (.rebootArm stage)] ∨ s.main = [.micro (.rebootArm stage)]

/-- The main flow is inside `run_pass(m)`: about to start it; in its loop; at its return, which comes with OK or ERROR; or on its way to the forced
reboot, which a pass in ERROR or a latched error flag brings (R240, R242, R247, spec/60_exceptions.md R298). -/
def InPass (m : Mode) (s : State) : Prop :=
  s.main = [.instr (.runPass m), .micro (.passEnd m)] ∨
  (∃ body look, body.all bodyTask = true ∧ (look = .micro .passLoop ∨ look = .micro .passRoute) ∧
    s.main = body ++ [look, .micro (.passEnd m)]) ∨
  (s.main = [.micro (.passEnd m)] ∧ (s.status = .ok ∨ s.status = .error)) ∨
  (ToReboot .bootloader s ∧ (s.status = .error ∨ anyError s.err = true))

/-- What stands in the main flow is what `boot_main` (R240) still has to do at the control state `seq` (R250). It holds at every reset; the tasks that
`State.withFetchWord` puts before the main flow are outside it. -/
def FlowOnCourse (s : State) : Prop :=
  match s.seq with
  | .decide => s.main = [.instr .bootMain] ∨
      s.main = .instr .bootDecide :: .instr .blInit :: emit s.cfg.strStartup ++ passFrom .flash
  | .blInit => s.main = .instr .blInit :: emit s.cfg.strStartup ++ passFrom .flash ∨
      ∃ report, report.all reportTask = true ∧ s.main = report ++ passFrom .flash
  | .passFlash => InPass .flash s ∨
      (s.status = .ok ∧ ∃ report, report.all reportTask = true ∧ s.main = report ++ passFrom .verify)
  | .passVerify => InPass .verify s ∨ (s.status = .ok ∧ ToReboot .application s)
  | .rebootBl => s.main = [.micro .idleLoop]
  | .rebootApp => s.main = [.micro .spin]
  | .app => s.main = []

/-- A page address the flash calls take: aligned, and inside the flash. -/
def pageAddress (p : Params) (a : Nat) : Prop := a % p.pageSize = 0 ∧ a < p.flashSize

/-- A good state: what the ranges and invariants of spec/10_state.md (R21, R22, R25, R26, R35, R36, R39) say of every state a run reaches, and
the canonical form of the flash. -/
structure Good (s : State) : Prop where
  legal : s.cfg.legal = true
  rxHead_lt : s.rxHead < s.cfg.rxSlots
  rxTail_lt : s.rxTail < s.cfg.rxSlots
  txHead_lt : s.txHead < s.cfg.txSlots
  txTail_lt : s.txTail < s.cfg.txSlots
  rxb_length : s.rxb.length = s.cfg.rxSlots
  txb_length : s.txb.length = s.cfg.txSlots
  line_length : s.line.length = s.cfg.lineCap
  lineLen_le : s.lineLen ≤ s.cfg.lineCap
  page_length : s.page.length = s.cfg.pageSize
  curPage_lt : s.curPage * s.cfg.pageSize < s.cfg.flashSize
  ms_lt : s.ms < 2 ^ s.cfg.msWidth
  tStart_lt : s.tStart < 2 ^ s.cfg.msWidth
  ftemp_length : s.ftemp.length = s.cfg.pageSize
  flash_wf : Memory.wf s.flash
  flash_range : ∀ c ∈ s.flash, c.1 < s.cfg.flashSize
  erase_at : ∀ a, s.flashOp = some (.erase a) → pageAddress s.cfg a
  commit_at : ∀ a, s.flashOp = some (.commit a) → pageAddress s.cfg a
  session_at : ∀ a k, s.flashSession = some (a, k) → pageAddress s.cfg a ∧ 2 * k ≤ s.cfg.pageSize
  watchdog : s.wdtEn = true → s.wdtElapsed < timeoutOf s.cfg s.wdtTimeout
  handler_masked : s.inHandler ≠ none → s.ie = false

end Sys2Proof.Machine
end

