-- ==== Sys2Proof/Certificates/Slice0/Obligations.lean ====
section
/-! DEFINITION. The statements for the provers. A statement whose next state is written as an update of the state before says the frame too: every field it
does not name, the flash among them, is as before. Where a clause rests on a decision of spec/92_eei_decisions.md or on a log entry
of this model, its docstring says so. -/

open Sys2Proof Sys2Proof.Machine

/-! ## Encoding -/

/-- Decode and encode agree on every well-formed instruction: no operand of any format is dropped (R91, R92, R95 to R97, R94; for the
symbolic operations the unit is the model's own, log entry 21). -/
def Obligations.DecodeOfEncodeIsTheInstruction : Prop :=
  ∀ i : Instr, i.wellFormed = true → decode (encode i) = .ok i

/-- Whatever the decoder accepts is well formed: a default row never stands for a value that has a row of its own. -/
def Obligations.DecodedInstructionsAreWellFormed : Prop :=
  ∀ (u : Wire) (i : Instr), decode u = .ok i → i.wellFormed = true

/-- R95 to R97: the fields of a record line that is long enough are read from their columns, the most significant digit first, and the row is chosen by the
whole value of TT and by the mode. -/
def Obligations.RecordFieldsComeFromTheirColumns : Prop :=
  ∀ (m : Mode) (cs : List Byte), 11 + 2 * columnByte cs 1 ≤ cs.length →
    ∃ r : Rec, r.data.length = columnByte cs 1
      ∧ r.addr.toNat = 256 * columnByte cs 3 + columnByte cs 5
      ∧ (∀ i, i < columnByte cs 1 → (r.data.getD i 0).toNat = columnByte cs (9 + 2 * i))
      ∧ r.ss.toNat = columnByte cs (9 + 2 * columnByte cs 1)
      ∧ (columnByte cs 7 = 0 → m = .flash → decode (.hexrec m cs) = .ok (.recDataFlash r))
      ∧ (columnByte cs 7 = 0 → m = .verify → decode (.hexrec m cs) = .ok (.recDataVerify r))
      ∧ (columnByte cs 7 = 1 → m = .flash → decode (.hexrec m cs) = .ok (.recEofFlash r))
      ∧ (columnByte cs 7 = 1 → m = .verify → decode (.hexrec m cs) = .ok (.recEofVerify r))
      ∧ (2 ≤ columnByte cs 7 →
          decode (.hexrec m cs) = .ok (.recOther (BitVec.ofNat 8 (columnByte cs 7)) r))

/-- `process_record` on a line that is long enough hands the line to the decoder; a short line is refused, there and by the decoder (R211, treatment U1 of
spec/93_implementation_defined.md, decision D8). -/
def Obligations.ProcessRecordNeedsTheWholeRecord : Prop :=
  ∀ (m : Mode) (s : State),
    (11 + 2 * columnByte (lineText s) 1 ≤ (lineText s).length →
      exec (.processRecord m) s = .next { s with main := .fetch (.hexrec m (lineText s)) :: s.main }) ∧
    ((lineText s).length < 11 + 2 * columnByte (lineText s) 1 →
      exec (.processRecord m) s = .refused .shortRecord ∧
        decode (.hexrec m (lineText s)) = .error .shortRecord)

/-- A few units written out from the spec's encodings decode to the instructions they stand for (the byte and line values of R91, R92, the digits of R94; the record
lines are vectors V1, V2 and V10 of spec/95_test_vectors.md). The last clause is the model's own: R104 gives an operation no encoding, and a symbolic unit is
a DESIGN CHOICE (log entry 21). -/
def Obligations.UnitsWrittenFromTheSpecDecode : Prop :=
  decode (.byte 0x1B) = .ok .byteEsc ∧ decode (.byte 0x0D) = .ok .byteCr ∧ decode (.byte 0x0A) = .ok .byteLf ∧
  decode (.byte 0x3A) = .ok (.byteOther 0x3A) ∧ decode (.line [0x3A, 0x30]) = .ok .lineRecord ∧
  decode (.line [0x68]) = .ok (.lineCommand 0x68) ∧ decode (.line []) = .ok .lineEmpty ∧
  decode (.digit 0x66) = .ok .hexLowerF ∧ decode (.digit 0x47) = .ok (.hexNonhex 0x47) ∧
  decode (.hexrec .flash [0x3A, 0x30, 0x34, 0x30, 0x30, 0x30, 0x30, 0x30, 0x30, 0x30, 0x31, 0x30, 0x32, 0x30, 0x33, 0x30,
    0x34, 0x46, 0x32]) = .ok (.recDataFlash { addr := 0, data := [1, 2, 3, 4], ss := 0xF2 }) ∧
  decode (.hexrec .verify [0x3A, 0x30, 0x30, 0x30, 0x30, 0x30, 0x30, 0x30, 0x31, 0x46, 0x46]) =
    .ok (.recEofVerify { addr := 0, data := [], ss := 0xFF }) ∧
  decode (.hexrec .flash [0x3A, 0x30, 0x32, 0x30, 0x30, 0x30, 0x30, 0x30, 0x34, 0x30, 0x30, 0x30, 0x30, 0x46, 0x41]) =
    .ok (.recOther 4 { addr := 0, data := [0, 0], ss := 0xFA }) ∧
  decode (.symbolic .flashFillWord [.nat 130, .word 0x9891]) = .ok (.flashFillWord 130 0x9891)

/-- A step runs the decoded instruction: with the main flow at a unit that decodes to `i`, or at the operation `i` itself, the step is `exec i` with the task
taken off, whether the processor's move is named by `env` or is the default. (With no move named, a `FlashWait` on a busy flash gives way to the
device: log entry 7.) -/
def Obligations.StepRunsTheDecodedInstruction : Prop :=
  ∀ (s : State) (t : Task) (k : List Task) (i : Instr), s.inHandler = none → s.held = false → s.main = t :: k →
    (t = .instr i ∨ ∃ u, t = .fetch u ∧ decode u = .ok i) →
    (∀ later, s.env = .cpu :: later → step s = exec i { s with main := k, env := later }) ∧
    (s.env = [] → t ≠ .instr .flashWait ∨ s.flashOp = none → step s = exec i { s with main := k })

/-! ## Hex digits and conversions -/

/-- R94: each of the 22 hex characters has its value, and every other character has the value 0; only the result is written. The row a character
decodes to gives the value the table of R94 gives the character, which is also its conversion (R171). -/
def Obligations.HexDigitsDecodeByTheTable : Prop :=
  (∀ s : State,
    (∀ p ∈ [(Instr.hex0, (0 : Nibble)), (.hex1, 1), (.hex2, 2), (.hex3, 3), (.hex4, 4), (.hex5, 5), (.hex6, 6), (.hex7, 7),
        (.hex8, 8), (.hex9, 9), (.hexA, 10), (.hexB, 11), (.hexC, 12), (.hexD, 13), (.hexE, 14), (.hexF, 15),
        (.hexLowerA, 10), (.hexLowerB, 11), (.hexLowerC, 12), (.hexLowerD, 13), (.hexLowerE, 14), (.hexLowerF, 15)],
      exec p.1 s = .next { s with result := .nibble p.2 }) ∧
    (∀ c : Byte, exec (.hexNonhex c) s = .next { s with result := .nibble 0 })) ∧
  (∀ (c : Byte) (s : State), ∃ (i : Instr) (v : Nibble), decode (.digit c) = .ok i ∧ v.toNat = digitValue c ∧
    exec i s = .next { s with result := .nibble v } ∧
    exec (.hexNibbleToDec c) s = .next { s with result := .nibble v })

/-- R173, R175: two characters convert to a byte and four to a word, from the values of the single characters, the most significant first; only the result is
written. -/
def Obligations.HexTextConvertsMostSignificantFirst : Prop :=
  ∀ (c3 c2 c1 c0 : Byte) (s : State), ∃ (v3 v2 v1 v0 : Nibble) (hi lo : Byte) (w : Word),
    exec (.hexNibbleToDec c3) s = .next { s with result := .nibble v3 } ∧
    exec (.hexNibbleToDec c2) s = .next { s with result := .nibble v2 } ∧
    exec (.hexNibbleToDec c1) s = .next { s with result := .nibble v1 } ∧
    exec (.hexNibbleToDec c0) s = .next { s with result := .nibble v0 } ∧
    exec (.hexByteToDec c3 c2) s = .next { s with result := .byte hi } ∧ hi.toNat = v3.toNat * 16 + v2.toNat ∧
    exec (.hexByteToDec c1 c0) s = .next { s with result := .byte lo } ∧ lo.toNat = v1.toNat * 16 + v0.toNat ∧
    exec (.hexWordToDec c3 c2 c1 c0) s = .next { s with result := .word w } ∧ w.toNat = hi.toNat * 256 + lo.toNat

/-- R172, R174, R176 (upper case is decision D29 of the spec): the character of a 4-bit value, and the characters of a byte and of a word from those of
their nibbles, the most significant first. -/
def Obligations.BinaryConvertsToUpperCaseText : Prop :=
  (∀ (v : Nibble) (s : State), ∃ c : Byte, exec (.hexNibbleToHex v) s = .next { s with result := .char c } ∧
    c.toNat = if v.toNat ≤ 9 then 48 + v.toNat else 65 + v.toNat - 10) ∧
  (∀ (b : Byte) (s : State), ∃ c1 c0 : Byte,
    exec (.hexByteToHex b) s = .next { s with result := .chars [c1, c0] } ∧
    exec (.hexNibbleToHex (BitVec.ofNat 4 (b.toNat / 16))) s = .next { s with result := .char c1 } ∧
    exec (.hexNibbleToHex (BitVec.ofNat 4 (b.toNat % 16))) s = .next { s with result := .char c0 }) ∧
  (∀ (w : Word) (s : State), ∃ c3 c2 c1 c0 : Byte,
    exec (.hexWordToHex w) s = .next { s with result := .chars [c3, c2, c1, c0] } ∧
    exec (.hexByteToHex (BitVec.ofNat 8 (w.toNat / 256))) s = .next { s with result := .chars [c3, c2] } ∧
    exec (.hexByteToHex (BitVec.ofNat 8 (w.toNat % 256))) s = .next { s with result := .chars [c1, c0] })

/-- R177: converting to text and back gives the nibble, the byte and the word again; the opposite direction is no law. -/
def Obligations.HexConversionsRoundTrip : Prop :=
  (∀ (v : Nibble) (s : State), ∃ c, exec (.hexNibbleToHex v) s = .next { s with result := .char c } ∧
    exec (.hexNibbleToDec c) s = .next { s with result := .nibble v }) ∧
  (∀ (b : Byte) (s : State), ∃ c1 c0, exec (.hexByteToHex b) s = .next { s with result := .chars [c1, c0] } ∧
    exec (.hexByteToDec c1 c0) s = .next { s with result := .byte b }) ∧
  (∀ (w : Word) (s : State), ∃ c3 c2 c1 c0,
    exec (.hexWordToHex w) s = .next { s with result := .chars [c3, c2, c1, c0] } ∧
      exec (.hexWordToDec c3 c2 c1 c0) s = .next { s with result := .word w }) ∧
  (∀ s : State, exec (.hexByteToDec 0x61 0x67) s = .next { s with result := .byte 0xA0 } ∧
    exec (.hexByteToHex 0xA0) s = .next { s with result := .chars [0x41, 0x30] })

/-! ## The Line Reader -/

/-- R154: ESC discards what was accumulated and completes a line, which is of class EMPTY; nothing is echoed, and nothing else changes. -/
def Obligations.EscCompletesAnEmptyLine : Prop :=
  ∀ s : State, ∃ t, exec .byteEsc s = .next t ∧ t = { s with lineLen := 0, lineDone := true, result := .bool true } ∧
    decode (.line (lineText t)) = .ok .lineEmpty

/-- R155, R156: CR and LF alike. With nothing accumulated the byte is ignored; a line that begins with a colon completes without an echo; any other line
completes after CR and then LF are sent. -/
def Obligations.TerminatorCompletesTheLine : Prop :=
  ∀ (i : Instr) (s : State), i = .byteCr ∨ i = .byteLf →
    (s.lineLen = 0 → exec i s = .next { s with result := .bool false }) ∧
    (s.lineLen ≠ 0 → byteOf s.line 0 = 0x3A → exec i s = .next { s with lineDone := true, result := .bool true }) ∧
    (s.lineLen ≠ 0 → byteOf s.line 0 ≠ 0x3A → exec i s = .next { s with
      main := .instr (.sendByte 0x0D) :: .instr (.sendByte 0x0A) :: .micro .lineEnd :: s.main }) ∧
    runMicro .lineEnd s = .next { s with lineDone := true, result := .bool true }

/-- R157: any other byte is stored as it came while there is room, and the line stays open; nothing else changes. -/
def Obligations.OtherByteIsStoredWhileThereIsRoom : Prop :=
  ∀ (b : Byte) (s : State), s.lineLen < s.cfg.lineCap → exec (.byteOther b) s =
    .next { s with line := s.line.set s.lineLen b, lineLen := s.lineLen + 1, result := .bool false }

/-- R158 (that an over-long line stays open is decision D4): once the capacity is exhausted any other byte is dropped, silently. -/
def Obligations.ByteBeyondTheCapacityIsDropped : Prop :=
  ∀ (b : Byte) (s : State), s.cfg.lineCap ≤ s.lineLen →
    exec (.byteOther b) s = .next { s with result := .bool false }

/-- R150 with R153 and R151 (decisions D5, D6): with no error flag set `poll_line` starts a new line after a completed one and goes to the ring;
R152: an empty ring gives false, and a byte is decoded by its class. -/
def Obligations.PollLineTakesOneByte : Prop :=
  ∀ s : State, s.err = { ovr := false, fe := false, buf := false } →
    (s.lineDone = false → exec .pollLine s = .next { s with
      main := .instr .receiveByte :: .micro .pollGot :: s.main }) ∧
    (s.lineDone = true → exec .pollLine s = .next { s with
      lineLen := 0, lineDone := false, main := .instr .receiveByte :: .micro .pollGot :: s.main }) ∧
    (s.result = .noByte → runMicro .pollGot s = .next { s with result := .bool false }) ∧
    (∀ b, s.result = .byte b → runMicro .pollGot s = .next { s with main := .fetch (.byte b) :: s.main })

/-- R151, R298 (all three flags are fatal: conflict C3): with any flag set `poll_line` abandons the main flow, reports, and forces the reboot into the
bootloader, whatever the ring holds; the error flags stay set. `TransportFault(e)` does so by itself. -/
def Obligations.TransportFaultAbandonsTheMainFlow : Prop :=
  (∀ (e : ErrFlags) (s : State), exec (.transportFault e) s = .next { s with
    main := emit (textOf s.cfg.strFault e) ++ [.instr .forceRebootToBootloader] }) ∧
  (∀ s : State, s.err.ovr = true ∨ s.err.fe = true ∨ s.err.buf = true →
    (s.lineDone = false → exec .pollLine s = exec (.transportFault s.err) s) ∧
    (s.lineDone = true → exec .pollLine s = exec (.transportFault s.err) { s with lineLen := 0, lineDone := false }))

/-! ## The Boot Sequencer's lines -/

/-- R243, R244: a record line goes to `process_record` with the pass's mode, and the first one of a pass starts the elapsed-time measurement. R245
(decision D42), R246 (decision D31, log entry 18): an empty line shows the prompt again; a command line goes to the menu, which does what the
collaborator chooses among its liberties and returns. -/
def Obligations.LinesAreRoutedByTheirClass : Prop :=
  ∀ s : State,
    (s.tRunning = true → exec .lineRecord s = .next { s with main := .instr (.processRecord s.mode) :: s.main }) ∧
    (s.tRunning = false → exec .lineRecord s = .next { s with
      tStart := s.ms, tRunning := true, main := .instr (.processRecord s.mode) :: s.main }) ∧
    exec .lineEmpty s = .next { s with main := emit s.cfg.strPrompt ++ s.main } ∧
    (∀ c, exec (.lineCommand c) s = .next { s with main := .instr .menu :: s.main }) ∧
    (s.menuPlan = [] → exec .menu s = .next s) ∧
    (∀ acts later, s.menuPlan = acts :: later → exec .menu s = .next { s with
      menuPlan := later, main := acts.map menuTask ++ s.main })

/-! ## The Transport -/

/-- R121 (that the enqueue kicks the watchdog is decision D20; how a caller is held is log entry 9): with room the byte is stored; on a full ring nothing is stored, and the caller is held and
tries again. -/
def Obligations.SendByteStoresOrHoldsTheCaller : Prop :=
  ∀ (b : Byte) (s : State),
    ((s.txHead + 1) % s.cfg.txSlots ≠ s.txTail → exec (.sendByte b) s = .next { s with
      txb := s.txb.set s.txHead b, txHead := (s.txHead + 1) % s.cfg.txSlots, wdtElapsed := 0 }) ∧
    ((s.txHead + 1) % s.cfg.txSlots = s.txTail → exec (.sendByte b) s = .next { s with
      held := true, main := .instr (.sendByte b) :: s.main })

/-- R122 (the tail's advance modulo `RX_SLOTS` is R131, decision D3): `receive_byte` gives the oldest byte, advances the tail and kicks the watchdog; on an empty ring it signals that there is none. -/
def Obligations.ReceiveByteTakesTheOldestByte : Prop :=
  ∀ s : State,
    (s.rxHead = s.rxTail → exec .receiveByte s = .next { s with result := .noByte }) ∧
    (s.rxHead ≠ s.rxTail → exec .receiveByte s = .next { s with
      result := .byte (byteOf s.rxb s.rxTail), rxTail := (s.rxTail + 1) % s.cfg.rxSlots, wdtElapsed := 0 })

/-- R123, R129: the two reads have no effect but their results. -/
def Obligations.AvailableAndClockAreReads : Prop :=
  ∀ s : State, exec .msNow s = .next { s with result := .clock s.ms } ∧
    (s.rxHead = s.rxTail → exec .available s = .next { s with result := .bool false }) ∧
    (s.rxHead ≠ s.rxTail → exec .available s = .next { s with result := .bool true })

/-- R124 (drained means an empty ring: decision D38), R130 (how a caller is held is log entry 9): `flush` returns at once on an empty ring and holds the caller otherwise; `idle` holds the
caller. -/
def Obligations.FlushAndIdleHoldTheCaller : Prop :=
  ∀ s : State,
    (s.txHead = s.txTail → exec .flush s = .next s) ∧
    (s.txHead ≠ s.txTail → exec .flush s = .next { s with held := true, main := .instr .flush :: s.main }) ∧
    exec .idle s = .next { s with held := true }

/-- R128 (mask and restore: decision D28; the accesses a body is made of are log entry 19): an empty body changes nothing, a body is its first access and then the rest, and
each access reads or updates the shared state as its rule says, with the interrupt mask as before. -/
def Obligations.CriticalSectionRestoresTheMask : Prop :=
  ∀ s : State,
    (∀ body, ∃ t, exec (.critical body) s = .next t ∧ t.ie = s.ie ∧ t.flash = s.flash ∧ t.main = s.main) ∧
    exec (.critical []) s = .next s ∧
    exec (.critical [.readErr]) s = .next { s with result := .errs s.err } ∧
    exec (.critical [.readMs]) s = exec .msNow s ∧
    exec (.critical [.testAvailable]) s = exec .available s ∧
    exec (.critical [.testDrained]) s = .next { s with result := .bool (decide (s.txHead = s.txTail)) } ∧
    exec (.critical [.takeRx]) s = exec .receiveByte s ∧
    exec (.critical [.kick]) s = exec .kick s ∧
    (∀ b, (s.txHead + 1) % s.cfg.txSlots = s.txTail → exec (.critical [.putTx b]) s = .next { s with result := .bool false }) ∧
    (∀ b, (s.txHead + 1) % s.cfg.txSlots ≠ s.txTail → exec (.critical [.putTx b]) s = .next { s with
      txb := s.txb.set s.txHead b, txHead := (s.txHead + 1) % s.cfg.txSlots, wdtElapsed := 0, result := .bool true }) ∧
    (∀ x body, ∃ t, exec (.critical [x]) s = .next t ∧ t.ie = s.ie ∧
      exec (.critical (x :: body)) s = exec (.critical body) t)

/-- R131 (decision D3) and R132 (decisions D3, D33): the cursor advance, and the initial values of the Transport. -/
def Obligations.CursorAdvanceAndTransportInit : Prop :=
  ∀ s : State,
    (∀ c n, 2 ≤ n → c + 1 < n → exec (.next c n) s = .next { s with result := .cursor (c + 1) }) ∧
    (∀ n, 2 ≤ n → exec (.next (n - 1) n) s = .next { s with result := .cursor 0 }) ∧
    exec .transportInit s = .next { s with
      rxHead := 0, rxTail := 0, txHead := 0, txTail := 0, err := { ovr := false, fe := false, buf := false } }

/-! ## The handlers -/

/-- R125 between R296 and R297 (the handler as one instruction: log entry 16; that a byte with a fault report is stored, and that a dropped byte does not kick, is decision D19): a pending byte is stored, or
dropped with `ERR.BUF` latched and the cursors unmoved when the ring is full; the UART's reports are latched; a held main flow goes on. It holds from the entry on and from inside the
handler; inside it, the processor's step is the handler, whether its move is named by `env` or is the default (log entry 7). -/
def Obligations.RxHandlerStoresOrDropsTheByte : Prop :=
  ∀ s : State, s.rxPend = true → s.inHandler = some .rx ∨ (s.ie = true ∧ s.inHandler = none) →
    ((s.rxHead + 1) % s.cfg.rxSlots ≠ s.rxTail → exec .rxHandler s = .next { s with
      err := { ovr := s.err.ovr || s.rxOvr, fe := s.err.fe || s.rxFe, buf := s.err.buf },
      rxPend := false, rxb := s.rxb.set s.rxHead s.rxByte, rxHead := (s.rxHead + 1) % s.cfg.rxSlots,
      wdtElapsed := 0, held := false, inHandler := none, ie := true }) ∧
    ((s.rxHead + 1) % s.cfg.rxSlots = s.rxTail → exec .rxHandler s = .next { s with
      err := { ovr := s.err.ovr || s.rxOvr, fe := s.err.fe || s.rxFe, buf := true },
      rxPend := false, held := false, inHandler := none, ie := true }) ∧
    (s.inHandler = some .rx → (∀ later, s.env = .cpu :: later → step s = exec .rxHandler { s with env := later }) ∧
      (s.env = [] → step s = exec .rxHandler s))

/-- R126 between R296 and R297 (the handler as one instruction: log entry 16; the guard on an empty ring is decision D26, the kick decision D20): the oldest byte goes to the transmitter. It holds from the entry on and from inside the handler; inside it, the
processor's step is the handler, whether its move is named by `env` or is the default (log entry 7). -/
def Obligations.TxHandlerSendsTheOldestByte : Prop :=
  ∀ s : State, s.txRdy = true → s.txHead ≠ s.txTail → s.inHandler = some .tx ∨ (s.ie = true ∧ s.inHandler = none) →
    exec .txHandler s = .next { s with
      txTail := (s.txTail + 1) % s.cfg.txSlots, txLog := s.txLog ++ [byteOf s.txb s.txTail], txRdy := false,
      wdtElapsed := 0, held := false, inHandler := none, ie := true } ∧
    (s.inHandler = some .tx → (∀ later, s.env = .cpu :: later → step s = exec .txHandler { s with env := later }) ∧
      (s.env = [] → step s = exec .txHandler s))

/-- R127 between R296 and R297 (the handler as one instruction: log entry 16; the wrap is decision D27): the clock advances by one, modulo its width; the watchdog is not kicked. It holds from the entry on and from inside the handler; inside it, the
processor's step is the handler, whether its move is named by `env` or is the default (log entry 7). -/
def Obligations.TickHandlerAdvancesTheClock : Prop :=
  ∀ s : State, s.tickPend = true → s.inHandler = some .tick ∨ (s.ie = true ∧ s.inHandler = none) →
    exec .tickHandler s = .next { s with
      ms := (s.ms + 1) % 2 ^ s.cfg.msWidth, tickPend := false, held := false, inHandler := none, ie := true } ∧
    (s.inHandler = some .tick → (∀ later, s.env = .cpu :: later → step s = exec .tickHandler { s with env := later }) ∧
      (s.env = [] → step s = exec .tickHandler s))

/-- R293 (decision D25), R296, R297 (entry and body as two steps: log entry 16): a source that is not pending, or masked, or that finds a handler running, is not served, neither by
its instruction nor by the arbiter, whose move then changes nothing but the list of moves (log entry 6); one that can be served is entered with interrupts
masked, and its handler ends with interrupts enabled, no handler running and the main flow released and where it stopped. -/
def Obligations.HandlersEnterMaskedAndDoNotNest : Prop :=
  (∀ (s : State), s.ie = false ∨ s.inHandler ≠ none →
    (s.inHandler ≠ some .rx → exec .rxHandler s = .next s) ∧ (s.inHandler ≠ some .tx → exec .txHandler s = .next s) ∧
    (s.inHandler ≠ some .tick → exec .tickHandler s = .next s)) ∧
  (∀ (s : State),
    (s.inHandler ≠ some .rx → s.rxPend = false → exec .rxHandler s = .next s) ∧
    (s.inHandler ≠ some .tx → s.txRdy = false ∨ s.txHead = s.txTail → exec .txHandler s = .next s) ∧
    (s.inHandler ≠ some .tick → s.tickPend = false → exec .tickHandler s = .next s)) ∧
  (∀ (s : State) (h : Source) (later : List Move), s.env = .serve h :: later → s.ie = true → s.inHandler = none →
    ((h = .rx ∧ s.rxPend = true) ∨ (h = .tx ∧ s.txRdy = true ∧ s.txHead ≠ s.txTail) ∨ (h = .tick ∧ s.tickPend = true) →
      step s = .next { s with env := later, ie := false, inHandler := some h }) ∧
    (¬((h = .rx ∧ s.rxPend = true) ∨ (h = .tx ∧ s.txRdy = true ∧ s.txHead ≠ s.txTail) ∨ (h = .tick ∧ s.tickPend = true)) →
      step s = .next { s with env := later })) ∧
  (∀ (s : State) (h : Source) (later : List Move), s.env = .serve h :: later → s.ie = false ∨ s.inHandler ≠ none →
    step s = .next { s with env := later }) ∧
  (∀ (s : State) (h : Source) (later : List Move), s.env = .cpu :: later → s.inHandler = some h →
    ∃ t, step s = .next t ∧ t.inHandler = none ∧ t.ie = true ∧ t.held = false ∧ t.main = s.main ∧ t.flash = s.flash ∧
      t.page = s.page ∧ t.line = s.line ∧ t.status = s.status)

/-! ## The rings as queues -/

/-- R22, R122, R125 as one queue (the cursor arithmetic is decision D3): in a good state the inbound ring is a queue of at most `RX_SLOTS` - 1 bytes; `receive_byte` takes the
oldest; the handler appends the newest, and on a full ring drops it, latches `ERR.BUF` and leaves the buffered bytes. -/
def Obligations.InboundRingIsABoundedQueue : Prop :=
  ∀ s : State, Good s →
    (rxQueue s).length ≤ s.cfg.rxSlots - 1 ∧
    (rxQueue s = [] → exec .receiveByte s = .next { s with result := .noByte }) ∧
    (∀ b q, rxQueue s = b :: q → ∃ t, exec .receiveByte s = .next t ∧ t.result = .byte b ∧ rxQueue t = q) ∧
    (s.rxPend = true → s.ie = true ∨ s.inHandler = some .rx → (rxQueue s).length < s.cfg.rxSlots - 1 →
      ∃ t, exec .rxHandler s = .next t ∧ rxQueue t = rxQueue s ++ [s.rxByte] ∧ t.err.buf = s.err.buf) ∧
    (s.rxPend = true → s.ie = true ∨ s.inHandler = some .rx → (rxQueue s).length = s.cfg.rxSlots - 1 →
      ∃ t, exec .rxHandler s = .next t ∧ rxQueue t = rxQueue s ∧ t.err.buf = true)

/-- R73 for output (the log of the transmitter is log entry 24): in every step from a good state, the bytes transmitted followed by the bytes still buffered only grow at their end: nothing is removed, reordered or
transmitted twice, but where the ring is initialised again or the device is reset. -/
def Obligations.OutputIsNeverDroppedOrReordered : Prop :=
  ∀ s t : State, Good s → step s = .next t →
    (∃ new, t.txLog ++ txQueue t = s.txLog ++ txQueue s ++ new) ∨ runs s .transportInit ∨ runs s .blInit ∨ atResetEntry t

/-! ## The page and the flash -/

/-- R191: every byte of the Page Buffer becomes the erased byte; `cur_page` stays. -/
def Obligations.ResetPageErasesTheBuffer : Prop :=
  ∀ s : State, exec .resetPage s = .next { s with page := List.replicate s.cfg.pageSize 0xFF }

/-- R192, R62, R193 and R199 (what one hardware step is: decision D17): a page write is an erase, a fill for each little-endian pair in ascending order, and a commit, each a
hardware step; the re-enable is one hardware step; a hardware step masks interrupts, calls, waits, and restores the mask. -/
def Obligations.PageWriteIsMaskedStepByStep : Prop :=
  (∀ s : State, exec .writeCurrentPage s = .next { s with
    main := .instr (.hwstep (.erasePage (s.curPage * s.cfg.pageSize)))
      :: (List.range (s.cfg.pageSize / 2)).map (fun k => .instr (.hwstep (.fillWord (s.curPage * s.cfg.pageSize + 2 * k)
          (BitVec.ofNat 16 ((byteOf s.page (2 * k)).toNat + 256 * (byteOf s.page (2 * k + 1)).toNat)))))
      ++ .instr (.hwstep (.commitPage (s.curPage * s.cfg.pageSize))) :: s.main }) ∧
  (∀ s : State, exec .rwwReenable s = .next { s with main := .instr (.hwstep .rwwEnable) :: s.main }) ∧
  (∀ (s : State) (c : FlashCall), exec (.hwstep c) s = .next { s with
    ie := false,
    main := .instr (match c with
        | .erasePage a => .flashErasePage a
        | .fillWord a w => .flashFillWord a w
        | .commitPage a => .flashCommitPage a
        | .rwwEnable => .flashRwwEnable)
      :: .instr .flashWait :: .micro (.unmask s.ie) :: s.main }) ∧
  (∀ (s : State) (b : Bool), runMicro (.unmask b) s = .next { s with ie := b })

/-- R194, R195, R196 (decision D18, and the order of calls of treatment U11, log entry 10): a call inside the protocol starts an erase or a commit, or
fills one word, the low byte at the lower offset. R197, R198 (decision D18): the wait returns when nothing is in flight and goes on waiting otherwise; the re-enable
makes the flash readable. -/
def Obligations.FlashCallsStartTheirOperation : Prop :=
  (∀ (s : State) (a : Nat), s.flashOp = none →
    (pageAddress s.cfg a → exec (.flashErasePage a) s = .next { s with
      flashOp := some (.erase a), flashSession := none, rwwOk := false }) ∧
    (∀ base k w, s.flashSession = some (base, k) → a = base + 2 * k → 2 * k < s.cfg.pageSize →
      exec (.flashFillWord a w) s = .next { s with
        ftemp := (s.ftemp.set (a % s.cfg.pageSize) (BitVec.ofNat 8 (w.toNat % 256))).set (a % s.cfg.pageSize + 1)
          (BitVec.ofNat 8 (w.toNat / 256))
        flashSession := some (base, k + 1) }) ∧
    (pageAddress s.cfg a → s.flashSession = some (a, s.cfg.pageSize / 2) →
      exec (.flashCommitPage a) s = .next { s with flashOp := some (.commit a), rwwOk := false }) ∧
    exec .flashWait s = .next s ∧ exec .flashRwwEnable s = .next { s with rwwOk := true }) ∧
  (∀ s : State, s.flashOp ≠ none → exec .flashWait s = .next { s with main := .instr .flashWait :: s.main })

/-- Treatments U11 and U3 of spec/93_implementation_defined.md (the order that is tracked is log entry 10): a flash call outside the CORE's protocol is refused. -/
def Obligations.FlashCallsOutsideTheProtocolAreRefused : Prop :=
  ∀ (s : State) (a : Nat) (w : Word),
    (s.flashOp ≠ none → exec (.flashErasePage a) s = .refused .flashProtocol ∧
      exec (.flashFillWord a w) s = .refused .flashProtocol ∧ exec (.flashCommitPage a) s = .refused .flashProtocol ∧
      exec .flashRwwEnable s = .refused .flashProtocol) ∧
    (a % s.cfg.pageSize ≠ 0 → exec (.flashErasePage a) s = .refused .flashProtocol ∧
      exec (.flashCommitPage a) s = .refused .flashProtocol) ∧
    (s.flashOp = none → a % s.cfg.pageSize = 0 → s.cfg.flashSize ≤ a →
      exec (.flashErasePage a) s = .refused .outsideFlash ∧ exec (.flashCommitPage a) s = .refused .outsideFlash) ∧
    (pageAddress s.cfg a → s.flashSession ≠ some (a, s.cfg.pageSize / 2) →
      exec (.flashCommitPage a) s = .refused .flashProtocol) ∧
    (s.flashSession = none → exec (.flashFillWord a w) s = .refused .flashProtocol) ∧
    (∀ base k, s.flashSession = some (base, k) → a ≠ base + 2 * k ∨ s.cfg.pageSize ≤ 2 * k →
      exec (.flashFillWord a w) s = .refused .flashProtocol)

/-- R66, R67, R200: a byte in range is read when the flash is readable; while it is not, the value is free (U4, log entry 13) and the read still completes; an address outside is
refused (U3). -/
def Obligations.FlashReadGivesTheByteAtItsAddress : Prop :=
  ∀ (a : Nat) (s : State),
    (a < s.cfg.flashSize → s.rwwOk = true → s.flashOp = none →
      exec (.flashReadByte a) s = .next { s with result := .byte (Memory.read s.flash a) }) ∧
    (a < s.cfg.flashSize → s.rwwOk = false ∨ s.flashOp ≠ none →
      ∃ b : Byte, exec (.flashReadByte a) s = .next { s with result := .byte b, freeCount := s.freeCount + 1 }) ∧
    (s.cfg.flashSize ≤ a → exec (.flashReadByte a) s = .refused .outsideFlash)

/-- R194, R196 (decision D18): when the device completes, an erase has made the bytes of its page 0xFF, and a commit has made them the bytes of FTEMP, whose contents are then
free (U6, log entry 12); every other byte of the flash reads as before, and nothing else changes. -/
def Obligations.DeviceCompletesEraseAndCommit : Prop :=
  ∀ (s : State) (later : List Move) (a : Nat), s.env = .flashDone :: later →
    (s.flashOp = some (.erase a) → ∃ t, step s = .next t ∧
      t = { s with env := later, flash := t.flash, flashOp := none, flashSession := some (a, 0) } ∧
      ∀ x, Memory.read t.flash x = if a ≤ x ∧ x < a + s.cfg.pageSize then 0xFF else Memory.read s.flash x) ∧
    (s.flashOp = some (.commit a) → ∃ t, step s = .next t ∧
      t = { s with
        env := later, flash := t.flash, flashOp := none, flashSession := none, ftemp := t.ftemp,
        freeCount := t.freeCount } ∧
      ∀ x, Memory.read t.flash x =
        if a ≤ x ∧ x < a + s.cfg.pageSize then byteOf s.ftemp (x - a) else Memory.read s.flash x)

/-- R192 (its effect rests on decision D18), R62: a page write that runs to its end puts the Page Buffer into the staged page of the flash, byte for byte in index order, and changes no other
byte of it; the Page Buffer, `cur_page` and the interrupt mask are as before, and the flash is unreadable. It runs with no move of the environment but the device's completions (log entry 7), so no handler interleaves. -/
def Obligations.PageWriteReachesTheFlash : Prop :=
  ∀ (s : State) (k : List Task), Good s → s.env = [] → s.inHandler = none → s.held = false → s.flashOp = none →
    s.main = .instr .writeCurrentPage :: k →
    ∃ n t, steps n s = .next t ∧
      t = { s with main := k, flash := t.flash, ftemp := t.ftemp, freeCount := t.freeCount, flashSession := none, rwwOk := false } ∧
      ∀ x, Memory.read t.flash x =
        if s.curPage * s.cfg.pageSize ≤ x ∧ x < s.curPage * s.cfg.pageSize + s.cfg.pageSize
        then byteOf s.page (x - s.curPage * s.cfg.pageSize) else Memory.read s.flash x

/-! ## Records -/

/-- R212, R222 (that nothing else changes is decision D35), R300: a first data record that does not start at 0, and a data record that starts below the last end address, end the pass as ERROR with the
address field marked, in both modes, before any data byte is looked at. -/
def Obligations.AddressFaultsEndThePass : Prop :=
  ∀ (r : Rec) (s : State) (i : Instr), i = .recDataFlash r ∨ i = .recDataVerify r →
    (s.lastEnd = none → r.addr.toNat ≠ 0 → exec i s = .next { s with
      status := .error, result := .status .error, main := emit (diagText s .addrFirst 3 6) ++ s.main }) ∧
    (∀ e, s.lastEnd = some e → r.addr.toNat < e → exec i s = .next { s with
      status := .error, result := .status .error, main := emit (diagText s .addrRegress 3 6) ++ s.main })

/-- R214, R216, R219 (the end address is decision D11; the progress text is log entry 17): an accepted data record whose bytes all lie in the staged page puts each byte at its offset, sets the end address and the count, and
reports progress; `status` becomes IN_PROGRESS after the report. -/
def Obligations.DataRecordIsStagedInThePage : Prop :=
  ∀ (r : Rec) (s : State), Good s → addressAccepted s r → recordTotal 0 r % 256 = 0 →
    (∀ i, i < r.data.length → (r.addr.toNat + i) / s.cfg.pageSize = s.curPage ∧ r.addr.toNat + i < s.cfg.flashSize) →
    (∃ page', exec (.recDataFlash r) s = .next { s with
        page := page', lastEnd := some (r.addr.toNat + r.data.length), count := s.count + r.data.length,
        main := emit (progressText s.cfg .flash (s.count + r.data.length)) ++ .micro .dataDone :: s.main } ∧
      storedAt s.page page' r.data (r.addr.toNat % s.cfg.pageSize)) ∧
    runMicro .dataDone s = .next { s with status := .inProgress, result := .status .inProgress }

/-- R214 (decision D13; the byte loop between two page writes as one step: log entry 8; the progress text: log entry 17): the first byte that falls into another page makes the page write come first, with the bytes before it staged; the record goes on from that byte with `cur_page`
at its page, to its end or to the next byte that falls into another page, which makes the next page write come first in the same way. -/
def Obligations.DataRecordCrossesAPage : Prop :=
  (∀ (r : Rec) (s : State) (n : Nat), Good s → addressAccepted s r → n < r.data.length →
    (∀ i, i < n → (r.addr.toNat + i) / s.cfg.pageSize = s.curPage) → (r.addr.toNat + n) / s.cfg.pageSize ≠ s.curPage →
    r.addr.toNat + n < s.cfg.flashSize →
    ∃ (page' : List Byte) (sum : Byte), exec (.recDataFlash r) s = .next { s with
        page := page',
        main := .instr .writeCurrentPage :: .instr .resetPage
          :: .micro (.stageResume r (r.data.drop n) (r.addr.toNat + n) sum) :: s.main } ∧
      storedAt s.page page' (r.data.take n) (r.addr.toNat % s.cfg.pageSize) ∧
      sum.toNat = (r.data.length + r.addr.toNat / 256 + r.addr.toNat % 256
        + ((r.data.take n).map BitVec.toNat).sum) % 256) ∧
  (∀ (r : Rec) (s : State) (rest : List Byte) (a : Nat) (sum : Byte), Good s → a < s.cfg.flashSize →
    (∀ i, i < rest.length → (a + i) / s.cfg.pageSize = a / s.cfg.pageSize ∧ a + i < s.cfg.flashSize) →
    (sum.toNat + (rest.map BitVec.toNat).sum + r.ss.toNat) % 256 = 0 →
    ∃ page', runMicro (.stageResume r rest a sum) s = .next { s with
        curPage := a / s.cfg.pageSize, page := page',
        lastEnd := some (r.addr.toNat + r.data.length), count := s.count + r.data.length,
        main := emit (progressText s.cfg .flash (s.count + r.data.length)) ++ .micro .dataDone :: s.main } ∧
      storedAt s.page page' rest (a % s.cfg.pageSize)) ∧
  (∀ (r : Rec) (s : State) (rest : List Byte) (a : Nat) (sum : Byte) (n : Nat), Good s → n < rest.length →
    (∀ i, i < n → (a + i) / s.cfg.pageSize = a / s.cfg.pageSize) → (a + n) / s.cfg.pageSize ≠ a / s.cfg.pageSize →
    a + n < s.cfg.flashSize →
    ∃ (page' : List Byte) (sum' : Byte), runMicro (.stageResume r rest a sum) s = .next { s with
        curPage := a / s.cfg.pageSize, page := page',
        main := .instr .writeCurrentPage :: .instr .resetPage
          :: .micro (.stageResume r (rest.drop n) (a + n) sum') :: s.main } ∧
      storedAt s.page page' (rest.take n) (a % s.cfg.pageSize) ∧
      sum'.toNat = (sum.toNat + ((rest.take n).map BitVec.toNat).sum) % 256)

/-- R215, R219 (decision D11; the progress text: log entry 17): in a verify pass on a readable flash a record whose bytes all equal the flash is accepted, and the Page Buffer and the
flash are not written. R215, R287, R295: the first byte that differs from the flash ends the pass as ERROR with that byte's columns marked, whatever
the checksum. -/
def Obligations.VerifyComparesEveryByte : Prop :=
  ∀ (r : Rec) (s : State), s.rwwOk = true → s.flashOp = none → addressAccepted s r →
    (recordTotal 0 r % 256 = 0 →
      (∀ i, i < r.data.length → r.addr.toNat + i < s.cfg.flashSize ∧
        Memory.read s.flash (r.addr.toNat + i) = r.data.getD i 0) →
      exec (.recDataVerify r) s = .next { s with
        lastEnd := some (r.addr.toNat + r.data.length), count := s.count + r.data.length,
        main := emit (progressText s.cfg .verify (s.count + r.data.length)) ++ .micro .dataDone :: s.main }) ∧
    (∀ n, n < r.data.length → (∀ i, i < n → Memory.read s.flash (r.addr.toNat + i) = r.data.getD i 0) →
      r.addr.toNat + n < s.cfg.flashSize → Memory.read s.flash (r.addr.toNat + n) ≠ r.data.getD n 0 →
      exec (.recDataVerify r) s = .next { s with
        status := .error, result := .status .error,
        main := emit (diagText s .verifyMismatch (9 + 2 * n) (10 + 2 * n)) ++ s.main })

/-- R216, R286, R300, R336 (conflict C5; that a checksum diagnostic marks SS is decision D30; that the data bytes of an end-of-file record and of a record of another type enter the checksum only is decision D15, conflict C6, log entry 33; the
flash contents after a page write rest on decision D18, log entry 10): a record of any type whose sum is not 0 modulo 256 ends the pass as ERROR with the checksum field marked; in a flash pass the bytes of a data record are already
staged, and nothing else has changed. The fifth clause is the rest of a record after a page write: it, too, is staged before the fault. The last clause runs such a record from its start (vector V9, program P7 of spec/95_test_vectors.md): the page it
left has been erased and written with the record's leading bytes in it, its remaining bytes stand in the new buffer, and neither is put back (decision D35), nor is the flash made readable. It runs with no move of the
environment but the device's completions (log entry 7). -/
def Obligations.WrongChecksumEndsThePass : Prop :=
  ∀ (r : Rec) (s : State),
    (∀ i, (i = .recEofFlash r ∨ i = .recEofVerify r) → recordTotal 1 r % 256 ≠ 0 → exec i s = .next { s with
      status := .error, result := .status .error,
      main := emit (diagText s .checksum (9 + 2 * r.data.length) (10 + 2 * r.data.length)) ++ s.main }) ∧
    (∀ tt, recordTotal tt r % 256 ≠ 0 → exec (.recOther tt r) s = .next { s with
      status := .error, result := .status .error,
      main := emit (diagText s .checksum (9 + 2 * r.data.length) (10 + 2 * r.data.length)) ++ s.main }) ∧
    (s.rwwOk = true → s.flashOp = none → addressAccepted s r → recordTotal 0 r % 256 ≠ 0 →
      (∀ i, i < r.data.length → r.addr.toNat + i < s.cfg.flashSize ∧
        Memory.read s.flash (r.addr.toNat + i) = r.data.getD i 0) →
      exec (.recDataVerify r) s = .next { s with
        status := .error, result := .status .error,
        main := emit (diagText s .checksum (9 + 2 * r.data.length) (10 + 2 * r.data.length)) ++ s.main }) ∧
    (Good s → addressAccepted s r → recordTotal 0 r % 256 ≠ 0 →
      (∀ i, i < r.data.length → (r.addr.toNat + i) / s.cfg.pageSize = s.curPage ∧ r.addr.toNat + i < s.cfg.flashSize) →
      ∃ page', exec (.recDataFlash r) s = .next { s with
          page := page', status := .error, result := .status .error,
          main := emit (diagText s .checksum (9 + 2 * r.data.length) (10 + 2 * r.data.length)) ++ s.main } ∧
        storedAt s.page page' r.data (r.addr.toNat % s.cfg.pageSize)) ∧
    (∀ (rest : List Byte) (a : Nat) (sum : Byte), Good s → a < s.cfg.flashSize →
      (∀ i, i < rest.length → (a + i) / s.cfg.pageSize = a / s.cfg.pageSize ∧ a + i < s.cfg.flashSize) →
      (sum.toNat + (rest.map BitVec.toNat).sum + r.ss.toNat) % 256 ≠ 0 →
      ∃ page', runMicro (.stageResume r rest a sum) s = .next { s with
          curPage := a / s.cfg.pageSize, page := page', status := .error, result := .status .error,
          main := emit (diagText s .checksum (9 + 2 * r.data.length) (10 + 2 * r.data.length)) ++ s.main } ∧
        storedAt s.page page' rest (a % s.cfg.pageSize)) ∧
    (∀ (n : Nat) (k : List Task), Good s → addressAccepted s r → recordTotal 0 r % 256 ≠ 0 → n < r.data.length →
      (∀ i, i < n → (r.addr.toNat + i) / s.cfg.pageSize = s.curPage) → (r.addr.toNat + n) / s.cfg.pageSize ≠ s.curPage →
      (∀ i, n ≤ i → i < r.data.length →
        (r.addr.toNat + i) / s.cfg.pageSize = (r.addr.toNat + n) / s.cfg.pageSize ∧ r.addr.toNat + i < s.cfg.flashSize) →
      s.env = [] → s.inHandler = none → s.held = false → s.flashOp = none → s.main = .instr (.recDataFlash r) :: k →
      ∃ m t, steps m s = .next t ∧
        t = { s with
          main := emit (diagText s .checksum (9 + 2 * r.data.length) (10 + 2 * r.data.length)) ++ k
          flash := t.flash, ftemp := t.ftemp, freeCount := t.freeCount, flashSession := none, rwwOk := false
          page := t.page, curPage := (r.addr.toNat + n) / s.cfg.pageSize, status := .error, result := .status .error } ∧
        storedAt (List.replicate s.cfg.pageSize 0xFF) t.page (r.data.drop n) ((r.addr.toNat + n) % s.cfg.pageSize) ∧
        ∀ x, Memory.read t.flash x =
          if s.curPage * s.cfg.pageSize ≤ x ∧ x < s.curPage * s.cfg.pageSize + s.cfg.pageSize then
            if r.addr.toNat ≤ x ∧ x < r.addr.toNat + n then r.data.getD (x - r.addr.toNat) 0
            else byteOf s.page (x - s.curPage * s.cfg.pageSize)
          else Memory.read s.flash x)

/-- R67 (treatment U3, decision D10): a data record whose bytes before byte `n` are staged or equal and whose byte `n` lies outside the flash is refused; so is
one that goes on after a page write and whose remaining bytes leave the flash. -/
def Obligations.DataOutsideTheFlashIsRefused : Prop :=
  ∀ (r : Rec) (s : State) (n : Nat), addressAccepted s r → n < r.data.length → s.cfg.flashSize ≤ r.addr.toNat + n →
    ((∀ i, i < n → (r.addr.toNat + i) / s.cfg.pageSize = s.curPage) →
      exec (.recDataFlash r) s = .refused .outsideFlash) ∧
    (s.rwwOk = true → s.flashOp = none → (∀ i, i < n → Memory.read s.flash (r.addr.toNat + i) = r.data.getD i 0) →
      exec (.recDataVerify r) s = .refused .outsideFlash) ∧
    (∀ (rest : List Byte) (a : Nat) (sum : Byte) (k : Nat), k < rest.length →
      (∀ i, i < k → (a + i) / s.cfg.pageSize = a / s.cfg.pageSize) → s.cfg.flashSize ≤ a + k →
      runMicro (.stageResume r rest a sum) s = .refused .outsideFlash)

/-- R217, R218, R220 (the bytes of these records enter the checksum only: decision D15, log entry 33): a valid end-of-file record of a flash pass writes the staged page, resets the buffer, re-enables the flash and then ends the
pass as OK with the address state reset; one of a verify pass ends the pass as OK and changes nothing else; a valid record of another type changes
nothing. -/
def Obligations.EndOfFileAndOtherRecords : Prop :=
  ∀ (r : Rec) (s : State),
    (recordTotal 1 r % 256 = 0 → exec (.recEofFlash r) s = .next { s with
      main := .instr .writeCurrentPage :: .instr .resetPage :: .instr .rwwReenable :: .micro .eofDone :: s.main }) ∧
    runMicro .eofDone s = .next { s with curPage := 0, lastEnd := none, status := .ok, result := .status .ok } ∧
    (recordTotal 1 r % 256 = 0 → exec (.recEofVerify r) s = .next { s with status := .ok, result := .status .ok }) ∧
    (∀ tt, recordTotal tt r % 256 = 0 → exec (.recOther tt r) s = .next { s with result := .status s.status })

/-- R217, R193, R332 (decisions D14, D18; for an end-of-file record that carries data bytes also decision D15, log entry 33, by which they enter the
checksum only): the end-of-file record of a flash pass, run to its end, leaves the staged page in the flash, the Page Buffer erased, the flash readable, the address state reset and the status OK, so that the verify pass starts on a readable flash; it changes nothing else but FTEMP. It runs with no move of the environment but the device's completions (log entry 7). -/
def Obligations.EndOfFileMakesTheFlashReadable : Prop :=
  ∀ (r : Rec) (s : State) (k : List Task), Good s → recordTotal 1 r % 256 = 0 → s.env = [] → s.inHandler = none →
    s.held = false → s.flashOp = none → s.main = .instr (.recEofFlash r) :: k →
    ∃ n t, steps n s = .next t ∧
      t = { s with
        main := k, flash := t.flash, ftemp := t.ftemp, freeCount := t.freeCount, flashSession := none, rwwOk := true,
        page := List.replicate s.cfg.pageSize 0xFF, curPage := 0, lastEnd := none, status := .ok, result := .status .ok } ∧
      ∀ x, Memory.read t.flash x =
        if s.curPage * s.cfg.pageSize ≤ x ∧ x < s.curPage * s.cfg.pageSize + s.cfg.pageSize
        then byteOf s.page (x - s.curPage * s.cfg.pageSize) else Memory.read s.flash x

/-! ## The Boot Sequencer -/

/-- R240, R242 (what is counted and timed per pass: decisions D16, D34): the order of the main flow up to the first pass, the start of a pass with its banner and prompt, and its loop: poll while WAITING or
IN_PROGRESS, route a completed line by its class, return the status otherwise. -/
def Obligations.PassesPollUntilTheyEnd : Prop :=
  ∀ s : State,
    exec .bootMain s = .next { s with
      main := .instr .bootDecide :: .instr .blInit :: emit s.cfg.strStartup ++ .micro (.enterPass .flash) :: .instr (.runPass .flash) :: .micro (.passEnd .flash) :: s.main } ∧
    exec (.runPass .flash) s = .next { s with
      mode := .flash, status := .waiting, count := 0, tRunning := false, page := List.replicate s.cfg.pageSize 0xFF,
      main := emit s.cfg.strBannerFlash ++ emit s.cfg.strPrompt ++ .micro .passLoop :: s.main } ∧
    exec (.runPass .verify) s = .next { s with
      mode := .verify, status := .waiting, count := 0, tRunning := false,
      main := emit s.cfg.strBannerVerify ++ emit s.cfg.strPrompt ++ .micro .passLoop :: s.main } ∧
    (∀ m, runMicro (.enterPass m) s = .next { s with seq := match m with
      | .flash => .passFlash
      | .verify => .passVerify }) ∧
    (s.status = .waiting ∨ s.status = .inProgress →
      runMicro .passLoop s = .next { s with main := .instr .pollLine :: .micro .passRoute :: s.main }) ∧
    (s.status = .ok ∨ s.status = .error → runMicro .passLoop s = .next { s with result := .status s.status }) ∧
    (s.result = .bool true → runMicro .passRoute s = .next { s with
      main := .fetch (.line (s.line.take s.lineLen)) :: .micro .passLoop :: s.main }) ∧
    (s.result = .bool false → runMicro .passRoute s = .next { s with main := .micro .passLoop :: s.main })

/-- R247, R248, R249: a pass that ended as ERROR forces the reboot into the bootloader; one that ended OK reports the elapsed time and goes on to the verify pass, or after it to the reboot into the application. -/
def Obligations.PassEndsInRebootOrNextPass : Prop :=
  ∀ s : State,
    (∀ m, s.status = .error → runMicro (.passEnd m) s = .next { s with
      main := .instr .forceRebootToBootloader :: s.main }) ∧
    (s.status = .ok → runMicro (.passEnd .flash) s = .next { s with
      main := .instr .msNow :: .micro .elapsed :: .micro (.enterPass .verify) :: .instr (.runPass .verify)
        :: .micro (.passEnd .verify) :: s.main }) ∧
    (s.status = .ok → runMicro (.passEnd .verify) s = .next { s with
      main := .instr .msNow :: .micro .elapsed :: .instr .forceRebootToApp :: s.main }) ∧
    (∀ t, s.result = .clock t → s.tStart < 2 ^ s.cfg.msWidth → t < 2 ^ s.cfg.msWidth →
      runMicro .elapsed s = .next { s with main := emit (textOf s.cfg.strElapsed
        (if s.tStart ≤ t then t - s.tStart else t + 2 ^ s.cfg.msWidth - s.tStart)) ++ s.main })

/-- R241 (decisions D3, D5, D12, D13, D16, D21, D27, D33): everything `bl_init` initialises, with interrupts enabled and the deadman armed.
That it leaves `rx_pend` and `tick_pend` as they are is the model's choice (log entry 37). -/
def Obligations.BlInitPreparesTheStage : Prop :=
  ∀ s : State, exec .blInit s = .next { s with
    rxHead := 0, rxTail := 0, txHead := 0, txTail := 0, err := { ovr := false, fe := false, buf := false },
    lineLen := 0, lineDone := false, curPage := 0, lastEnd := none, count := 0, status := .waiting, tRunning := false,
    ms := 0, wdtEn := true, wdtTimeout := .deadman, wdtElapsed := 0, ie := true }

/-! ## Handoff, watchdog, resets -/

/-- R262 (both bytes of SIG in one step, which no watchdog reset can cut: log entry 36; the value written on the bootloader branch is
conflict C2, decision D39; that the address handed over, APP_ENTRY of R70, is 0 is decision D24; where it is recorded is log entry 24): a
plain power-up or the magic enters the application at APP_ENTRY with the signature cleared; otherwise the signature becomes the magic and the bootloader runs. -/
def Obligations.BootDecideFollowsItsTable : Prop :=
  ∀ s : State,
    ((s.rcExt = false ∧ s.rcWdt = false) ∨ (s.sig0 = s.cfg.magic0 ∧ s.sig1 = s.cfg.magic1) →
      exec .bootDecide s = .next { s with
        sig0 := 0, sig1 := 0, seq := .app, main := [], handoff := some 0 }) ∧
    ((s.rcExt = true ∨ s.rcWdt = true) → ¬(s.sig0 = s.cfg.magic0 ∧ s.sig1 = s.cfg.magic1) →
      exec .bootDecide s = .next { s with sig0 := s.cfg.magic0, sig1 := s.cfg.magic1, seq := .blInit })

/-- R264, R265, R65, R260: what the two forced reboots write, one byte of SIG a step, so that a reset can fall between them (R320); the one to the bootloader then idles, interrupts as they were; the one to the
application spins with interrupts masked. Left alone, three steps bring the operation to its loop. R263 (APP_ENTRY of R70, which is 0 by decision D24; log entry 24), R266, R268 (decision D21): the handoff, the kick and the arming. -/
def Obligations.HandoffRebootsAndWatchdog : Prop :=
  ∀ s : State,
    exec .forceRebootToBootloader s = .next { s with
      sig0 := 0, main := [.micro (.rebootSig1 .bootloader), .micro (.rebootArm .bootloader)] } ∧
    exec .forceRebootToApp s = .next { s with
      sig0 := s.cfg.magic0, main := [.micro (.rebootSig1 .application), .micro (.rebootArm .application)] } ∧
    runMicro (.rebootSig1 .bootloader) s = .next { s with sig1 := 0 } ∧
    runMicro (.rebootSig1 .application) s = .next { s with sig1 := s.cfg.magic1 } ∧
    runMicro (.rebootArm .bootloader) s = .next { s with
      rebootArmed := true, wdtEn := true, wdtTimeout := .short, wdtElapsed := 0, seq := .rebootBl,
      main := [.micro .idleLoop] } ∧
    runMicro (.rebootArm .application) s = .next { s with
      rebootArmed := true, wdtEn := true, wdtTimeout := .short, wdtElapsed := 0, ie := false, seq := .rebootApp,
      main := [.micro .spin] } ∧
    (∀ k, s.env = [] → s.inHandler = none → s.held = false →
      (s.main = .instr .forceRebootToBootloader :: k → steps 3 s = .next { s with
        sig0 := 0, sig1 := 0, rebootArmed := true, wdtEn := true, wdtTimeout := .short, wdtElapsed := 0,
        seq := .rebootBl, main := [.micro .idleLoop] }) ∧
      (s.main = .instr .forceRebootToApp :: k → steps 3 s = .next { s with
        sig0 := s.cfg.magic0, sig1 := s.cfg.magic1, rebootArmed := true, wdtEn := true, wdtTimeout := .short,
        wdtElapsed := 0, ie := false, seq := .rebootApp, main := [.micro .spin] })) ∧
    runMicro .idleLoop s = .next { s with held := true, main := .micro .idleLoop :: s.main } ∧
    runMicro .spin s = .next { s with main := .micro .spin :: s.main } ∧
    exec .jumpApp s = .next { s with seq := .app, main := [], handoff := some 0 } ∧
    exec .kick s = .next { s with wdtElapsed := 0 } ∧
    (∀ t, exec (.wdtArm t) s = .next { s with wdtEn := true, wdtTimeout := t, wdtElapsed := 0 })

/-- R321, R322, R323, R324, R325 (the entry values are decisions D21 and D25; that no flash operation is in flight and that the flash is readable are decision D18, and the latter is general knowledge, G4 of
spec/93_implementation_defined.md with R77, log entry 29; what R42 calls unspecified is not stated): each reset event brings the machine to the reset entry with its cause flag, nothing pending and the flash
readable; a watchdog reset keeps the signature; the flash is unchanged, but for the page whose erase or commit the reset cuts (U5). -/
def Obligations.ResetEventsReachTheEntry : Prop :=
  ∀ (i : Instr) (s : State), i = .powerOn ∨ i = .extReset ∨ i = .wdtExpire →
    ∃ t, exec i s = .next t ∧ atResetEntry t ∧ t.held = false ∧ t.rxPend = false ∧ t.tickPend = false ∧ t.txRdy = true ∧
      t.rwwOk = true ∧ t.flashOp = none ∧ t.cfg = s.cfg ∧
      (i = .powerOn → t.rcExt = false ∧ t.rcWdt = false) ∧ (i = .extReset → t.rcExt = true) ∧
      (i = .wdtExpire → t.rcWdt = true ∧ t.sig0 = s.sig0 ∧ t.sig1 = s.sig1) ∧
      (s.flashOp = none → s.flashSession = none → t.flash = s.flash) ∧
      (∀ a, s.flashOp = some (.erase a) ∨ s.flashOp = some (.commit a) ∨
          (s.flashOp = none ∧ ∃ k, s.flashSession = some (a, k)) →
        ∀ x, ¬(a ≤ x ∧ x < a + s.cfg.pageSize) → Memory.read t.flash x = Memory.read s.flash x)

/-- R264, R265, R269, R323 with R262 (for legal parameters, whose magic is not (0, 0): decision D43): after the watchdog reset that ends it, a forced reboot to the bootloader comes out in the bootloader and one to the application in the
application; a deadman expiry while the signature is the magic comes out in the application. R320: a watchdog reset between the two bytes of SIG finds the first byte new and the second old, and comes out by that pair. -/
def Obligations.RebootsComeOutWhereTheyShould : Prop :=
  ∀ s : State, s.cfg.legal = true →
    (∃ t u v w x, exec .forceRebootToBootloader s = .next t ∧ runMicro (.rebootSig1 .bootloader) t = .next u ∧
      runMicro (.rebootArm .bootloader) u = .next v ∧ exec .wdtExpire v = .next w ∧ exec .bootDecide w = .next x ∧
      x.seq = .blInit ∧ x.sig0 = s.cfg.magic0 ∧ x.sig1 = s.cfg.magic1) ∧
    (∃ t u v w x, exec .forceRebootToApp s = .next t ∧ runMicro (.rebootSig1 .application) t = .next u ∧
      runMicro (.rebootArm .application) u = .next v ∧ exec .wdtExpire v = .next w ∧ exec .bootDecide w = .next x ∧
      x.seq = .app ∧ x.sig0 = 0 ∧ x.sig1 = 0) ∧
    (s.sig0 = s.cfg.magic0 → s.sig1 = s.cfg.magic1 →
      ∃ u v, exec .wdtExpire s = .next u ∧ exec .bootDecide u = .next v ∧ v.seq = .app) ∧
    (∃ t u v, exec .forceRebootToBootloader s = .next t ∧ exec .wdtExpire t = .next u ∧ exec .bootDecide u = .next v ∧
      u.sig0 = 0 ∧ u.sig1 = s.sig1 ∧
      v.seq = if s.cfg.magic0 = 0 ∧ s.sig1 = s.cfg.magic1 then .app else .blInit) ∧
    (∃ t u v, exec .forceRebootToApp s = .next t ∧ exec .wdtExpire t = .next u ∧ exec .bootDecide u = .next v ∧
      u.sig0 = s.cfg.magic0 ∧ u.sig1 = s.sig1 ∧ v.seq = if s.sig1 = s.cfg.magic1 then .app else .blInit)

/-- R6, R40, R293 (decision D25), R270 (decision D24), R320, treatment U12: the events of the UART, the timer, the application, the power supply and the reset input; the last two do what the reset events of their
names do. R267 (time as an input: decision D41, log entry 15; amounts as natural numbers: log entry 35): time adds to the elapsed time of an armed watchdog, and when the timeout is reached the device is reset with cause watchdog and the
signature kept. The clauses by which a byte received while one is pending (log entry 27) and a move of the application while it does not run (log entry 28) change nothing but the list of
moves (log entry 6) are the model's choices. -/
def Obligations.EnvironmentEventsAndTime : Prop :=
  ∀ (s : State) (later : List Move),
    (∀ b ovr fe, s.env = .uartRx b ovr fe :: later →
      (s.rxPend = false → step s = .next { s with env := later, rxPend := true, rxByte := b, rxOvr := ovr, rxFe := fe }) ∧
      (s.rxPend = true → step s = .next { s with env := later })) ∧
    (s.env = .uartTxReady :: later → step s = .next { s with env := later, txRdy := true }) ∧
    (s.env = .tick :: later → step s = .next { s with env := later, tickPend := true }) ∧
    (∀ b, s.env = .appSig false b :: later →
      (s.seq = .app → step s = .next { s with env := later, sig0 := b }) ∧
      (s.seq ≠ .app → step s = .next { s with env := later })) ∧
    (∀ b, s.env = .appSig true b :: later →
      (s.seq = .app → step s = .next { s with env := later, sig1 := b }) ∧
      (s.seq ≠ .app → step s = .next { s with env := later })) ∧
    (s.env = .appReset :: later →
      (s.seq = .app → step s = exec .wdtExpire { s with env := later }) ∧
      (s.seq ≠ .app → step s = .next { s with env := later })) ∧
    (s.env = .powerOn :: later → step s = exec .powerOn { s with env := later }) ∧
    (s.env = .extReset :: later → step s = exec .extReset { s with env := later }) ∧
    (∀ dt, s.env = .elapse dt :: later →
      (s.wdtEn = false → step s = .next { s with env := later }) ∧
      (s.wdtEn = true → s.wdtElapsed + dt < timeoutOf s.cfg s.wdtTimeout →
        step s = .next { s with env := later, wdtElapsed := s.wdtElapsed + dt }) ∧
      (s.wdtEn = true → timeoutOf s.cfg s.wdtTimeout ≤ s.wdtElapsed + dt →
        ∃ t, step s = .next t ∧ atResetEntry t ∧ t.rcWdt = true ∧ t.sig0 = s.sig0 ∧ t.sig1 = s.sig1))

/-! ## Whole-machine rules -/

/-- R42, R325: the values the spec gives the state after a power-up, for every choice of the parameters (the clauses of `seq`, `IE`, the watchdog, the flash
device and the event sources are decisions D1, D18, D21, D25), and the state is good for every legal choice, with what stands in the main flow on course; that State.reset is the power-up
state of the sample parameters is the model's choice (log entries 1 and 2). The values this model
chose (log entry 3) are not stated. -/
def Obligations.PowerUpStateIsTheSpecsAndGood : Prop :=
  (∀ p : Params, atResetEntry (State.powerUp p) ∧ (State.powerUp p).rcExt = false ∧ (State.powerUp p).rcWdt = false ∧
    (State.powerUp p).flashOp = none ∧ (State.powerUp p).rwwOk = true ∧ (State.powerUp p).rxPend = false ∧
    (State.powerUp p).tickPend = false ∧ (State.powerUp p).txRdy = true ∧ (p.legal = true → Good (State.powerUp p)) ∧ FlowOnCourse (State.powerUp p)) ∧
  State.reset = State.powerUp Params.sample ∧ Good State.reset ∧ FlowOnCourse State.reset

/-- R21, R22, R25, R26, R35, R36, R39 as one invariant: every step from a good state gives a good state, whatever the instruction, the handler or the event: cursors and lengths in range, the staged page and every listed byte inside the
flash, the flash in canonical form, the clock in its width, an armed watchdog below its timeout, interrupts masked in a handler. -/
def Obligations.EveryStepKeepsGoodStates : Prop :=
  ∀ s t : State, Good s → step s = .next t → Good t

/-- R38 (decision D18), R324, U5: in every step, a byte of the flash reads differently only inside a page whose erase or commit is in flight, or inside a page that is erased and not committed when a reset
strikes. -/
def Obligations.FlashChangesOnlyUnderTheDevice : Prop :=
  ∀ (s t : State) (x : Nat), step s = .next t → Memory.read t.flash x ≠ Memory.read s.flash x →
    ∃ a, a ≤ x ∧ x < a + s.cfg.pageSize ∧
      (s.flashOp = some (.erase a) ∨ s.flashOp = some (.commit a) ∨
        (s.flashOp = none ∧ (∃ k, s.flashSession = some (a, k)) ∧ atResetEntry t))

/-- R250 (decision D1). In every state, a change of `seq` is made by a reset, `boot_decide`, `jump_app`, the entry of a pass, or the end of a forced reboot, and goes where that operation goes. Where what stands in the
main flow is on course (`FlowOnCourse`, which every reset establishes and every step keeps), a change of `seq` that is no reset is one of the rows of R250's table, leaves the state the row names, and comes with the pass
status, or for a transport fault with the latched flag, that the row asks for: so there is no way from the verify pass back to the flash pass, from a reboot or from the application without a reset, nor to the application
but from `DECIDE`. -/
def Obligations.SeqChangesOnlyByItsTransitions : Prop :=
  (∀ s t : State, step s = .next t → t.seq ≠ s.seq →
    atResetEntry t ∨ (runs s .bootDecide ∧ (t.seq = .app ∨ t.seq = .blInit)) ∨ (runs s .jumpApp ∧ t.seq = .app) ∨
      (mainRuns s (.micro (.enterPass .flash)) ∧ t.seq = .passFlash) ∨
      (mainRuns s (.micro (.enterPass .verify)) ∧ t.seq = .passVerify) ∨
      (mainRuns s (.micro (.rebootArm .bootloader)) ∧ t.seq = .rebootBl) ∨
      (mainRuns s (.micro (.rebootArm .application)) ∧ t.seq = .rebootApp)) ∧
  (∀ s t : State, FlowOnCourse s → step s = .next t → t.seq ≠ s.seq →
    atResetEntry t ∨ (s.seq = .decide ∧ runs s .bootDecide ∧ (t.seq = .app ∨ t.seq = .blInit)) ∨
      (s.seq = .blInit ∧ t.seq = .passFlash) ∨ (s.seq = .passFlash ∧ s.status = .ok ∧ t.seq = .passVerify) ∨
      ((s.seq = .passFlash ∨ s.seq = .passVerify) ∧
        (s.status = .error ∨ s.err.ovr = true ∨ s.err.fe = true ∨ s.err.buf = true) ∧ t.seq = .rebootBl) ∨
      (s.seq = .passVerify ∧ s.status = .ok ∧ t.seq = .rebootApp))

/-- R249, R334. In every state, the reboot into the application is put before the main flow at one place only: at the end of a verify pass that did not end as ERROR; and its inner places come only from the operation. A run that starts on course (`FlowOnCourse`, as
every reset does) outside the verify pass and that reboot comes to the reboot only after both passes returned OK: it left a flash pass whose status was OK, stayed in the verify pass, and ran the operation and its end with the status OK. -/
def Obligations.RebootToAppOnlyAfterVerify : Prop :=
  (∀ s t : State, step s = .next t → Task.instr .forceRebootToApp ∈ t.main →
    Task.instr .forceRebootToApp ∈ s.main ∨ (mainRuns s (.micro (.passEnd .verify)) ∧ s.status ≠ .error)) ∧
  (∀ s t : State, step s = .next t → Task.micro (.rebootArm .application) ∈ t.main →
    Task.micro (.rebootArm .application) ∈ s.main ∨ runs s .forceRebootToApp) ∧
  (∀ (n : Nat) (s t : State), FlowOnCourse s → s.seq ≠ .passVerify → s.seq ≠ .rebootApp → steps n s = .next t →
    t.seq = .rebootApp →
    ∃ (i j k : Nat) (u v w : State), i < j ∧ j < k ∧ k < n ∧
      steps i s = .next u ∧ u.seq = .passFlash ∧ u.status = .ok ∧ mainRuns u (.micro (.enterPass .verify)) ∧
      steps j s = .next v ∧ v.status = .ok ∧ runs v .forceRebootToApp ∧
      steps k s = .next w ∧ w.status = .ok ∧ mainRuns w (.micro (.rebootArm .application)) ∧
      ∀ l x, i < l → l ≤ k → steps l s = .next x → x.seq = .passVerify)

/-- R31 (cleared by `bl_init` only: decision D33): no step clears a latched error flag, but the Transport's initialisation and a reset. -/
def Obligations.ErrorFlagsStayLatched : Prop :=
  ∀ s t : State, step s = .next t →
    (s.err.ovr = true ∧ t.err.ovr = false) ∨ (s.err.fe = true ∧ t.err.fe = false) ∨ (s.err.buf = true ∧ t.err.buf = false) →
    runs s .transportInit ∨ runs s .blInit ∨ atResetEntry t

/-- R32, R260: outside the application each byte of the signature is written only by `boot_decide`, the two forced reboots and a reset, `boot_decide` writes (0, 0) or the magic, and a forced reboot writes the byte of its own signature, the second byte in a
step of its own; the parameters never change. -/
def Obligations.SignatureIsWrittenByItsOwners : Prop :=
  ∀ s t : State, step s = .next t → t.cfg = s.cfg ∧
    (s.seq ≠ .app → t.sig0 ≠ s.sig0 ∨ t.sig1 ≠ s.sig1 →
      atResetEntry t ∨
      (runs s .bootDecide ∧ ((t.sig0 = 0 ∧ t.sig1 = 0) ∨ (t.sig0 = s.cfg.magic0 ∧ t.sig1 = s.cfg.magic1))) ∨
      (runs s .forceRebootToBootloader ∧ t.sig0 = 0 ∧ t.sig1 = s.sig1) ∨
      (runs s .forceRebootToApp ∧ t.sig0 = s.cfg.magic0 ∧ t.sig1 = s.sig1) ∨
      (mainRuns s (.micro (.rebootSig1 .bootloader)) ∧ t.sig0 = s.sig0 ∧ t.sig1 = 0) ∨
      (mainRuns s (.micro (.rebootSig1 .application)) ∧ t.sig0 = s.sig0 ∧ t.sig1 = s.cfg.magic1))

/-- R240, R250 (decision D1; the finer position of the main flow is log entry 8): from every state in which what stands in the main flow is what `boot_main` still has to do at the control state, every step, of the processor, a handler or
the environment, gives such a state. -/
def Obligations.EveryStepKeepsTheFlowOnCourse : Prop :=
  ∀ s t : State, FlowOnCourse s → step s = .next t → FlowOnCourse t
end

