-- ==== Sys2Proof/Laws/Memory.lean ====
section
/-! SUPPORT. The laws of the flash as a memory: what a read after a write gives, and that every operation keeps the canonical form. -/

namespace Sys2Proof.Machine

@[simp] theorem Memory.read_nil (a : Nat) : Memory.read [] a = Memory.unlisted := rfl

theorem Memory.read_cons (c : Host.Cell) (m : Memory) (a : Nat) :
    Memory.read (c :: m) a = if c.1 = a then c.2 else Memory.read m a := rfl

theorem Memory.read_put (m : Memory) (a x : Nat) (b : Byte) :
    Memory.read (Memory.put m a b) x = if a = x then b else Memory.read m x := by
  induction m with
  | nil => simp [Memory.put, Memory.read_cons]
  | cons c cs ih =>
    unfold Memory.put
    split
    · simp [Memory.read_cons]
    · split
      · rename_i _ h
        subst h
        simp only [Memory.read_cons]
        split <;> rfl
      · simp only [Memory.read_cons, ih]
        by_cases h1 : c.1 = x
        · simp only [h1, if_true]
          rw [if_neg]
          omega
        · simp [h1]

theorem Memory.read_drop (m : Memory) (a x : Nat) :
    Memory.read (Memory.drop m a) x = if a = x then Memory.unlisted else Memory.read m x := by
  induction m with
  | nil => simp [Memory.drop]
  | cons c cs ih =>
    by_cases h : c.1 = a
    · have : Memory.drop (c :: cs) a = Memory.drop cs a := by simp [Memory.drop, h]
      rw [this, ih]
      by_cases hx : a = x
      · simp [hx]
      · simp [hx, Memory.read_cons, h]
    · have : Memory.drop (c :: cs) a = c :: Memory.drop cs a := by simp [Memory.drop, h]
      rw [this, Memory.read_cons, Memory.read_cons, ih]
      by_cases hx : c.1 = x
      · have : a ≠ x := by omega
        simp [hx, this]
      · simp [hx]

/-- A read after a write: the value written at its address, what was there before at every other. -/
theorem Memory.read_write (m : Memory) (a x : Nat) (b : Byte) :
    Memory.read (Memory.write m a b) x = if a = x then b else Memory.read m x := by
  unfold Memory.write
  split
  · rename_i h
    rw [Memory.read_drop, h]
  · exact Memory.read_put m a x b

/-- A read after a block write. -/
theorem Memory.read_writeBytes (bs : List Byte) (m : Memory) (a x : Nat) :
    Memory.read (Memory.writeBytes m a bs) x =
      if a ≤ x ∧ x < a + bs.length then bs.getD (x - a) 0 else Memory.read m x := by
  induction bs generalizing m a with
  | nil =>
    have : ¬ (a ≤ x ∧ x < a) := by omega
    simp [Memory.writeBytes, this]
  | cons b bs ih =>
    rw [Memory.writeBytes, ih, Memory.read_write]
    simp only [List.length_cons]
    by_cases h : a = x
    · subst h
      have h1 : ¬ (a + 1 ≤ a ∧ a < a + 1 + bs.length) := by omega
      have h2 : a ≤ a ∧ a < a + (bs.length + 1) := by omega
      rw [if_neg h1, if_pos h2]
      simp
    · by_cases h2 : a + 1 ≤ x ∧ x < a + 1 + bs.length
      · have h3 : a ≤ x ∧ x < a + (bs.length + 1) := by omega
        rw [if_pos h2, if_pos h3]
        have : x - a = (x - (a + 1)) + 1 := by omega
        rw [this, List.getD_cons_succ]
      · have h3 : ¬ (a ≤ x ∧ x < a + (bs.length + 1)) := by omega
        rw [if_neg h2, if_neg h3, if_neg h]

theorem Memory.mem_put {m : Memory} {a : Nat} {b : Byte} {c : Host.Cell} (h : c ∈ Memory.put m a b) :
    c = (a, b) ∨ c ∈ m := by
  induction m with
  | nil => simpa [Memory.put] using h
  | cons d ds ih =>
    unfold Memory.put at h
    split at h
    · simpa using h
    · split at h
      · simp only [List.mem_cons] at h ⊢
        tauto
      · simp only [List.mem_cons] at h ⊢
        rcases h with h | h
        · tauto
        · have := ih h
          tauto

theorem Memory.wf_nil : Memory.wf [] := ⟨List.Pairwise.nil, by simp⟩

theorem Memory.wf_put {m : Memory} (a : Nat) {b : Byte} (hm : Memory.wf m) (hb : b ≠ Memory.unlisted) :
    Memory.wf (Memory.put m a b) := by
  refine ⟨?_, ?_⟩
  · have hp := hm.1
    clear hm
    induction m with
    | nil => simp [Memory.put]
    | cons d ds ih =>
      rw [List.pairwise_cons] at hp
      unfold Memory.put
      split
      · rename_i h
        refine List.pairwise_cons.2 ⟨?_, List.pairwise_cons.2 hp⟩
        intro c hc
        rcases List.mem_cons.1 hc with rfl | hc
        · exact h
        · exact lt_trans h (hp.1 c hc)
      · split
        · rename_i h
          exact List.pairwise_cons.2 ⟨fun c hc => by simpa [h] using hp.1 c hc, hp.2⟩
        · rename_i h1 h2
          refine List.pairwise_cons.2 ⟨?_, ih hp.2⟩
          intro c hc
          rcases Memory.mem_put hc with rfl | hc
          · show d.1 < a
            omega
          · exact hp.1 c hc
  · intro c hc
    rcases Memory.mem_put hc with rfl | hc
    · exact hb
    · exact hm.2 c hc

theorem Memory.wf_drop {m : Memory} (a : Nat) (hm : Memory.wf m) : Memory.wf (Memory.drop m a) :=
  ⟨hm.1.filter _, fun c hc => hm.2 c (List.mem_filter.1 hc).1⟩

/-- A write keeps the canonical form. -/
theorem Memory.wf_write {m : Memory} (a : Nat) (b : Byte) (hm : Memory.wf m) : Memory.wf (Memory.write m a b) := by
  unfold Memory.write
  split
  · exact Memory.wf_drop a hm
  · rename_i h
    exact Memory.wf_put a hm h

/-- A block write keeps the canonical form. -/
theorem Memory.wf_writeBytes (bs : List Byte) {m : Memory} (a : Nat) (hm : Memory.wf m) :
    Memory.wf (Memory.writeBytes m a bs) := by
  induction bs generalizing m a with
  | nil => exact hm
  | cons b bs ih => exact ih (a + 1) (Memory.wf_write a b hm)

/-- The flash after reset is in canonical form. -/
theorem Memory.wf_reset : Memory.wf State.reset.flash := Memory.wf_nil

/-- The entries of a write: one at its address, and ones that were there before. -/
theorem Memory.mem_write {m : Memory} {a : Nat} {b : Byte} {c : Host.Cell} (h : c ∈ Memory.write m a b) :
    c.1 = a ∨ c ∈ m := by
  unfold Memory.write at h
  split at h
  · exact Or.inr (List.mem_filter.1 h).1
  · rcases Memory.mem_put h with rfl | h
    · exact Or.inl rfl
    · exact Or.inr h

/-- The entries of a block write: ones inside the block, and ones that were there before. -/
theorem Memory.mem_writeBytes (bs : List Byte) {m : Memory} {a : Nat} {c : Host.Cell}
    (h : c ∈ Memory.writeBytes m a bs) : (a ≤ c.1 ∧ c.1 < a + bs.length) ∨ c ∈ m := by
  induction bs generalizing m a with
  | nil => exact Or.inr h
  | cons b bs ih =>
    rw [Memory.writeBytes] at h
    simp only [List.length_cons]
    rcases ih h with h | h
    · exact Or.inl (by omega)
    · rcases Memory.mem_write h with h | h
      · exact Or.inl (by omega)
      · exact Or.inr h

end Sys2Proof.Machine
end

