-- ==== Sys2Proof/Laws/State.lean ====
section
/-! SUPPORT. What each shared update leaves in each field of the state: one lemma per field per update, so that no proof unfolds an
update. -/

namespace Sys2Proof.Machine

/-! ## push -/

@[simp] theorem push_rxHead (ts : List Task) (s : State) : (push ts s).rxHead = s.rxHead := rfl
@[simp] theorem push_rxTail (ts : List Task) (s : State) : (push ts s).rxTail = s.rxTail := rfl
@[simp] theorem push_txHead (ts : List Task) (s : State) : (push ts s).txHead = s.txHead := rfl
@[simp] theorem push_txTail (ts : List Task) (s : State) : (push ts s).txTail = s.txTail := rfl
@[simp] theorem push_rxb (ts : List Task) (s : State) : (push ts s).rxb = s.rxb := rfl
@[simp] theorem push_txb (ts : List Task) (s : State) : (push ts s).txb = s.txb := rfl
@[simp] theorem push_err (ts : List Task) (s : State) : (push ts s).err = s.err := rfl
@[simp] theorem push_line (ts : List Task) (s : State) : (push ts s).line = s.line := rfl
@[simp] theorem push_lineLen (ts : List Task) (s : State) : (push ts s).lineLen = s.lineLen := rfl
@[simp] theorem push_lineDone (ts : List Task) (s : State) : (push ts s).lineDone = s.lineDone := rfl
@[simp] theorem push_page (ts : List Task) (s : State) : (push ts s).page = s.page := rfl
@[simp] theorem push_curPage (ts : List Task) (s : State) : (push ts s).curPage = s.curPage := rfl
@[simp] theorem push_lastEnd (ts : List Task) (s : State) : (push ts s).lastEnd = s.lastEnd := rfl
@[simp] theorem push_count (ts : List Task) (s : State) : (push ts s).count = s.count := rfl
@[simp] theorem push_status (ts : List Task) (s : State) : (push ts s).status = s.status := rfl
@[simp] theorem push_mode (ts : List Task) (s : State) : (push ts s).mode = s.mode := rfl
@[simp] theorem push_seq (ts : List Task) (s : State) : (push ts s).seq = s.seq := rfl
@[simp] theorem push_tStart (ts : List Task) (s : State) : (push ts s).tStart = s.tStart := rfl
@[simp] theorem push_tRunning (ts : List Task) (s : State) : (push ts s).tRunning = s.tRunning := rfl
@[simp] theorem push_sig0 (ts : List Task) (s : State) : (push ts s).sig0 = s.sig0 := rfl
@[simp] theorem push_sig1 (ts : List Task) (s : State) : (push ts s).sig1 = s.sig1 := rfl
@[simp] theorem push_rcExt (ts : List Task) (s : State) : (push ts s).rcExt = s.rcExt := rfl
@[simp] theorem push_rcWdt (ts : List Task) (s : State) : (push ts s).rcWdt = s.rcWdt := rfl
@[simp] theorem push_wdtEn (ts : List Task) (s : State) : (push ts s).wdtEn = s.wdtEn := rfl
@[simp] theorem push_wdtTimeout (ts : List Task) (s : State) : (push ts s).wdtTimeout = s.wdtTimeout := rfl
@[simp] theorem push_wdtElapsed (ts : List Task) (s : State) : (push ts s).wdtElapsed = s.wdtElapsed := rfl
@[simp] theorem push_rebootArmed (ts : List Task) (s : State) : (push ts s).rebootArmed = s.rebootArmed := rfl
@[simp] theorem push_ie (ts : List Task) (s : State) : (push ts s).ie = s.ie := rfl
@[simp] theorem push_inHandler (ts : List Task) (s : State) : (push ts s).inHandler = s.inHandler := rfl
@[simp] theorem push_ms (ts : List Task) (s : State) : (push ts s).ms = s.ms := rfl
@[simp] theorem push_flash (ts : List Task) (s : State) : (push ts s).flash = s.flash := rfl
@[simp] theorem push_ftemp (ts : List Task) (s : State) : (push ts s).ftemp = s.ftemp := rfl
@[simp] theorem push_flashOp (ts : List Task) (s : State) : (push ts s).flashOp = s.flashOp := rfl
@[simp] theorem push_rwwOk (ts : List Task) (s : State) : (push ts s).rwwOk = s.rwwOk := rfl
@[simp] theorem push_rxPend (ts : List Task) (s : State) : (push ts s).rxPend = s.rxPend := rfl
@[simp] theorem push_rxByte (ts : List Task) (s : State) : (push ts s).rxByte = s.rxByte := rfl
@[simp] theorem push_rxOvr (ts : List Task) (s : State) : (push ts s).rxOvr = s.rxOvr := rfl
@[simp] theorem push_rxFe (ts : List Task) (s : State) : (push ts s).rxFe = s.rxFe := rfl
@[simp] theorem push_txRdy (ts : List Task) (s : State) : (push ts s).txRdy = s.txRdy := rfl
@[simp] theorem push_tickPend (ts : List Task) (s : State) : (push ts s).tickPend = s.tickPend := rfl
@[simp] theorem push_cfg (ts : List Task) (s : State) : (push ts s).cfg = s.cfg := rfl
@[simp] theorem push_flashSession (ts : List Task) (s : State) : (push ts s).flashSession = s.flashSession := rfl
@[simp] theorem push_main (ts : List Task) (s : State) : (push ts s).main = ts ++ s.main := rfl
@[simp] theorem push_held (ts : List Task) (s : State) : (push ts s).held = s.held := rfl
@[simp] theorem push_result (ts : List Task) (s : State) : (push ts s).result = s.result := rfl
@[simp] theorem push_env (ts : List Task) (s : State) : (push ts s).env = s.env := rfl
@[simp] theorem push_menuPlan (ts : List Task) (s : State) : (push ts s).menuPlan = s.menuPlan := rfl
@[simp] theorem push_txLog (ts : List Task) (s : State) : (push ts s).txLog = s.txLog := rfl
@[simp] theorem push_handoff (ts : List Task) (s : State) : (push ts s).handoff = s.handoff := rfl
@[simp] theorem push_freeCount (ts : List Task) (s : State) : (push ts s).freeCount = s.freeCount := rfl

/-! ## setResult -/

@[simp] theorem setResult_rxHead (r : Result) (s : State) : (setResult r s).rxHead = s.rxHead := rfl
@[simp] theorem setResult_rxTail (r : Result) (s : State) : (setResult r s).rxTail = s.rxTail := rfl
@[simp] theorem setResult_txHead (r : Result) (s : State) : (setResult r s).txHead = s.txHead := rfl
@[simp] theorem setResult_txTail (r : Result) (s : State) : (setResult r s).txTail = s.txTail := rfl
@[simp] theorem setResult_rxb (r : Result) (s : State) : (setResult r s).rxb = s.rxb := rfl
@[simp] theorem setResult_txb (r : Result) (s : State) : (setResult r s).txb = s.txb := rfl
@[simp] theorem setResult_err (r : Result) (s : State) : (setResult r s).err = s.err := rfl
@[simp] theorem setResult_line (r : Result) (s : State) : (setResult r s).line = s.line := rfl
@[simp] theorem setResult_lineLen (r : Result) (s : State) : (setResult r s).lineLen = s.lineLen := rfl
@[simp] theorem setResult_lineDone (r : Result) (s : State) : (setResult r s).lineDone = s.lineDone := rfl
@[simp] theorem setResult_page (r : Result) (s : State) : (setResult r s).page = s.page := rfl
@[simp] theorem setResult_curPage (r : Result) (s : State) : (setResult r s).curPage = s.curPage := rfl
@[simp] theorem setResult_lastEnd (r : Result) (s : State) : (setResult r s).lastEnd = s.lastEnd := rfl
@[simp] theorem setResult_count (r : Result) (s : State) : (setResult r s).count = s.count := rfl
@[simp] theorem setResult_status (r : Result) (s : State) : (setResult r s).status = s.status := rfl
@[simp] theorem setResult_mode (r : Result) (s : State) : (setResult r s).mode = s.mode := rfl
@[simp] theorem setResult_seq (r : Result) (s : State) : (setResult r s).seq = s.seq := rfl
@[simp] theorem setResult_tStart (r : Result) (s : State) : (setResult r s).tStart = s.tStart := rfl
@[simp] theorem setResult_tRunning (r : Result) (s : State) : (setResult r s).tRunning = s.tRunning := rfl
@[simp] theorem setResult_sig0 (r : Result) (s : State) : (setResult r s).sig0 = s.sig0 := rfl
@[simp] theorem setResult_sig1 (r : Result) (s : State) : (setResult r s).sig1 = s.sig1 := rfl
@[simp] theorem setResult_rcExt (r : Result) (s : State) : (setResult r s).rcExt = s.rcExt := rfl
@[simp] theorem setResult_rcWdt (r : Result) (s : State) : (setResult r s).rcWdt = s.rcWdt := rfl
@[simp] theorem setResult_wdtEn (r : Result) (s : State) : (setResult r s).wdtEn = s.wdtEn := rfl
@[simp] theorem setResult_wdtTimeout (r : Result) (s : State) : (setResult r s).wdtTimeout = s.wdtTimeout := rfl
@[simp] theorem setResult_wdtElapsed (r : Result) (s : State) : (setResult r s).wdtElapsed = s.wdtElapsed := rfl
@[simp] theorem setResult_rebootArmed (r : Result) (s : State) : (setResult r s).rebootArmed = s.rebootArmed := rfl
@[simp] theorem setResult_ie (r : Result) (s : State) : (setResult r s).ie = s.ie := rfl
@[simp] theorem setResult_inHandler (r : Result) (s : State) : (setResult r s).inHandler = s.inHandler := rfl
@[simp] theorem setResult_ms (r : Result) (s : State) : (setResult r s).ms = s.ms := rfl
@[simp] theorem setResult_flash (r : Result) (s : State) : (setResult r s).flash = s.flash := rfl
@[simp] theorem setResult_ftemp (r : Result) (s : State) : (setResult r s).ftemp = s.ftemp := rfl
@[simp] theorem setResult_flashOp (r : Result) (s : State) : (setResult r s).flashOp = s.flashOp := rfl
@[simp] theorem setResult_rwwOk (r : Result) (s : State) : (setResult r s).rwwOk = s.rwwOk := rfl
@[simp] theorem setResult_rxPend (r : Result) (s : State) : (setResult r s).rxPend = s.rxPend := rfl
@[simp] theorem setResult_rxByte (r : Result) (s : State) : (setResult r s).rxByte = s.rxByte := rfl
@[simp] theorem setResult_rxOvr (r : Result) (s : State) : (setResult r s).rxOvr = s.rxOvr := rfl
@[simp] theorem setResult_rxFe (r : Result) (s : State) : (setResult r s).rxFe = s.rxFe := rfl
@[simp] theorem setResult_txRdy (r : Result) (s : State) : (setResult r s).txRdy = s.txRdy := rfl
@[simp] theorem setResult_tickPend (r : Result) (s : State) : (setResult r s).tickPend = s.tickPend := rfl
@[simp] theorem setResult_cfg (r : Result) (s : State) : (setResult r s).cfg = s.cfg := rfl
@[simp] theorem setResult_flashSession (r : Result) (s : State) : (setResult r s).flashSession = s.flashSession := rfl
@[simp] theorem setResult_main (r : Result) (s : State) : (setResult r s).main = s.main := rfl
@[simp] theorem setResult_held (r : Result) (s : State) : (setResult r s).held = s.held := rfl
@[simp] theorem setResult_result (r : Result) (s : State) : (setResult r s).result = r := rfl
@[simp] theorem setResult_env (r : Result) (s : State) : (setResult r s).env = s.env := rfl
@[simp] theorem setResult_menuPlan (r : Result) (s : State) : (setResult r s).menuPlan = s.menuPlan := rfl
@[simp] theorem setResult_txLog (r : Result) (s : State) : (setResult r s).txLog = s.txLog := rfl
@[simp] theorem setResult_handoff (r : Result) (s : State) : (setResult r s).handoff = s.handoff := rfl
@[simp] theorem setResult_freeCount (r : Result) (s : State) : (setResult r s).freeCount = s.freeCount := rfl

/-! ## hold -/

@[simp] theorem hold_rxHead (ts : List Task) (s : State) : (hold ts s).rxHead = s.rxHead := rfl
@[simp] theorem hold_rxTail (ts : List Task) (s : State) : (hold ts s).rxTail = s.rxTail := rfl
@[simp] theorem hold_txHead (ts : List Task) (s : State) : (hold ts s).txHead = s.txHead := rfl
@[simp] theorem hold_txTail (ts : List Task) (s : State) : (hold ts s).txTail = s.txTail := rfl
@[simp] theorem hold_rxb (ts : List Task) (s : State) : (hold ts s).rxb = s.rxb := rfl
@[simp] theorem hold_txb (ts : List Task) (s : State) : (hold ts s).txb = s.txb := rfl
@[simp] theorem hold_err (ts : List Task) (s : State) : (hold ts s).err = s.err := rfl
@[simp] theorem hold_line (ts : List Task) (s : State) : (hold ts s).line = s.line := rfl
@[simp] theorem hold_lineLen (ts : List Task) (s : State) : (hold ts s).lineLen = s.lineLen := rfl
@[simp] theorem hold_lineDone (ts : List Task) (s : State) : (hold ts s).lineDone = s.lineDone := rfl
@[simp] theorem hold_page (ts : List Task) (s : State) : (hold ts s).page = s.page := rfl
@[simp] theorem hold_curPage (ts : List Task) (s : State) : (hold ts s).curPage = s.curPage := rfl
@[simp] theorem hold_lastEnd (ts : List Task) (s : State) : (hold ts s).lastEnd = s.lastEnd := rfl
@[simp] theorem hold_count (ts : List Task) (s : State) : (hold ts s).count = s.count := rfl
@[simp] theorem hold_status (ts : List Task) (s : State) : (hold ts s).status = s.status := rfl
@[simp] theorem hold_mode (ts : List Task) (s : State) : (hold ts s).mode = s.mode := rfl
@[simp] theorem hold_seq (ts : List Task) (s : State) : (hold ts s).seq = s.seq := rfl
@[simp] theorem hold_tStart (ts : List Task) (s : State) : (hold ts s).tStart = s.tStart := rfl
@[simp] theorem hold_tRunning (ts : List Task) (s : State) : (hold ts s).tRunning = s.tRunning := rfl
@[simp] theorem hold_sig0 (ts : List Task) (s : State) : (hold ts s).sig0 = s.sig0 := rfl
@[simp] theorem hold_sig1 (ts : List Task) (s : State) : (hold ts s).sig1 = s.sig1 := rfl
@[simp] theorem hold_rcExt (ts : List Task) (s : State) : (hold ts s).rcExt = s.rcExt := rfl
@[simp] theorem hold_rcWdt (ts : List Task) (s : State) : (hold ts s).rcWdt = s.rcWdt := rfl
@[simp] theorem hold_wdtEn (ts : List Task) (s : State) : (hold ts s).wdtEn = s.wdtEn := rfl
@[simp] theorem hold_wdtTimeout (ts : List Task) (s : State) : (hold ts s).wdtTimeout = s.wdtTimeout := rfl
@[simp] theorem hold_wdtElapsed (ts : List Task) (s : State) : (hold ts s).wdtElapsed = s.wdtElapsed := rfl
@[simp] theorem hold_rebootArmed (ts : List Task) (s : State) : (hold ts s).rebootArmed = s.rebootArmed := rfl
@[simp] theorem hold_ie (ts : List Task) (s : State) : (hold ts s).ie = s.ie := rfl
@[simp] theorem hold_inHandler (ts : List Task) (s : State) : (hold ts s).inHandler = s.inHandler := rfl
@[simp] theorem hold_ms (ts : List Task) (s : State) : (hold ts s).ms = s.ms := rfl
@[simp] theorem hold_flash (ts : List Task) (s : State) : (hold ts s).flash = s.flash := rfl
@[simp] theorem hold_ftemp (ts : List Task) (s : State) : (hold ts s).ftemp = s.ftemp := rfl
@[simp] theorem hold_flashOp (ts : List Task) (s : State) : (hold ts s).flashOp = s.flashOp := rfl
@[simp] theorem hold_rwwOk (ts : List Task) (s : State) : (hold ts s).rwwOk = s.rwwOk := rfl
@[simp] theorem hold_rxPend (ts : List Task) (s : State) : (hold ts s).rxPend = s.rxPend := rfl
@[simp] theorem hold_rxByte (ts : List Task) (s : State) : (hold ts s).rxByte = s.rxByte := rfl
@[simp] theorem hold_rxOvr (ts : List Task) (s : State) : (hold ts s).rxOvr = s.rxOvr := rfl
@[simp] theorem hold_rxFe (ts : List Task) (s : State) : (hold ts s).rxFe = s.rxFe := rfl
@[simp] theorem hold_txRdy (ts : List Task) (s : State) : (hold ts s).txRdy = s.txRdy := rfl
@[simp] theorem hold_tickPend (ts : List Task) (s : State) : (hold ts s).tickPend = s.tickPend := rfl
@[simp] theorem hold_cfg (ts : List Task) (s : State) : (hold ts s).cfg = s.cfg := rfl
@[simp] theorem hold_flashSession (ts : List Task) (s : State) : (hold ts s).flashSession = s.flashSession := rfl
@[simp] theorem hold_main (ts : List Task) (s : State) : (hold ts s).main = ts ++ s.main := rfl
@[simp] theorem hold_held (ts : List Task) (s : State) : (hold ts s).held = true := rfl
@[simp] theorem hold_result (ts : List Task) (s : State) : (hold ts s).result = s.result := rfl
@[simp] theorem hold_env (ts : List Task) (s : State) : (hold ts s).env = s.env := rfl
@[simp] theorem hold_menuPlan (ts : List Task) (s : State) : (hold ts s).menuPlan = s.menuPlan := rfl
@[simp] theorem hold_txLog (ts : List Task) (s : State) : (hold ts s).txLog = s.txLog := rfl
@[simp] theorem hold_handoff (ts : List Task) (s : State) : (hold ts s).handoff = s.handoff := rfl
@[simp] theorem hold_freeCount (ts : List Task) (s : State) : (hold ts s).freeCount = s.freeCount := rfl

/-! ## kick -/

@[simp] theorem kick_rxHead (s : State) : (kick s).rxHead = s.rxHead := rfl
@[simp] theorem kick_rxTail (s : State) : (kick s).rxTail = s.rxTail := rfl
@[simp] theorem kick_txHead (s : State) : (kick s).txHead = s.txHead := rfl
@[simp] theorem kick_txTail (s : State) : (kick s).txTail = s.txTail := rfl
@[simp] theorem kick_rxb (s : State) : (kick s).rxb = s.rxb := rfl
@[simp] theorem kick_txb (s : State) : (kick s).txb = s.txb := rfl
@[simp] theorem kick_err (s : State) : (kick s).err = s.err := rfl
@[simp] theorem kick_line (s : State) : (kick s).line = s.line := rfl
@[simp] theorem kick_lineLen (s : State) : (kick s).lineLen = s.lineLen := rfl
@[simp] theorem kick_lineDone (s : State) : (kick s).lineDone = s.lineDone := rfl
@[simp] theorem kick_page (s : State) : (kick s).page = s.page := rfl
@[simp] theorem kick_curPage (s : State) : (kick s).curPage = s.curPage := rfl
@[simp] theorem kick_lastEnd (s : State) : (kick s).lastEnd = s.lastEnd := rfl
@[simp] theorem kick_count (s : State) : (kick s).count = s.count := rfl
@[simp] theorem kick_status (s : State) : (kick s).status = s.status := rfl
@[simp] theorem kick_mode (s : State) : (kick s).mode = s.mode := rfl
@[simp] theorem kick_seq (s : State) : (kick s).seq = s.seq := rfl
@[simp] theorem kick_tStart (s : State) : (kick s).tStart = s.tStart := rfl
@[simp] theorem kick_tRunning (s : State) : (kick s).tRunning = s.tRunning := rfl
@[simp] theorem kick_sig0 (s : State) : (kick s).sig0 = s.sig0 := rfl
@[simp] theorem kick_sig1 (s : State) : (kick s).sig1 = s.sig1 := rfl
@[simp] theorem kick_rcExt (s : State) : (kick s).rcExt = s.rcExt := rfl
@[simp] theorem kick_rcWdt (s : State) : (kick s).rcWdt = s.rcWdt := rfl
@[simp] theorem kick_wdtEn (s : State) : (kick s).wdtEn = s.wdtEn := rfl
@[simp] theorem kick_wdtTimeout (s : State) : (kick s).wdtTimeout = s.wdtTimeout := rfl
@[simp] theorem kick_wdtElapsed (s : State) : (kick s).wdtElapsed = 0 := rfl
@[simp] theorem kick_rebootArmed (s : State) : (kick s).rebootArmed = s.rebootArmed := rfl
@[simp] theorem kick_ie (s : State) : (kick s).ie = s.ie := rfl
@[simp] theorem kick_inHandler (s : State) : (kick s).inHandler = s.inHandler := rfl
@[simp] theorem kick_ms (s : State) : (kick s).ms = s.ms := rfl
@[simp] theorem kick_flash (s : State) : (kick s).flash = s.flash := rfl
@[simp] theorem kick_ftemp (s : State) : (kick s).ftemp = s.ftemp := rfl
@[simp] theorem kick_flashOp (s : State) : (kick s).flashOp = s.flashOp := rfl
@[simp] theorem kick_rwwOk (s : State) : (kick s).rwwOk = s.rwwOk := rfl
@[simp] theorem kick_rxPend (s : State) : (kick s).rxPend = s.rxPend := rfl
@[simp] theorem kick_rxByte (s : State) : (kick s).rxByte = s.rxByte := rfl
@[simp] theorem kick_rxOvr (s : State) : (kick s).rxOvr = s.rxOvr := rfl
@[simp] theorem kick_rxFe (s : State) : (kick s).rxFe = s.rxFe := rfl
@[simp] theorem kick_txRdy (s : State) : (kick s).txRdy = s.txRdy := rfl
@[simp] theorem kick_tickPend (s : State) : (kick s).tickPend = s.tickPend := rfl
@[simp] theorem kick_cfg (s : State) : (kick s).cfg = s.cfg := rfl
@[simp] theorem kick_flashSession (s : State) : (kick s).flashSession = s.flashSession := rfl
@[simp] theorem kick_main (s : State) : (kick s).main = s.main := rfl
@[simp] theorem kick_held (s : State) : (kick s).held = s.held := rfl
@[simp] theorem kick_result (s : State) : (kick s).result = s.result := rfl
@[simp] theorem kick_env (s : State) : (kick s).env = s.env := rfl
@[simp] theorem kick_menuPlan (s : State) : (kick s).menuPlan = s.menuPlan := rfl
@[simp] theorem kick_txLog (s : State) : (kick s).txLog = s.txLog := rfl
@[simp] theorem kick_handoff (s : State) : (kick s).handoff = s.handoff := rfl
@[simp] theorem kick_freeCount (s : State) : (kick s).freeCount = s.freeCount := rfl

/-! ## armWdt -/

@[simp] theorem armWdt_rxHead (t : Timeout) (s : State) : (armWdt t s).rxHead = s.rxHead := rfl
@[simp] theorem armWdt_rxTail (t : Timeout) (s : State) : (armWdt t s).rxTail = s.rxTail := rfl
@[simp] theorem armWdt_txHead (t : Timeout) (s : State) : (armWdt t s).txHead = s.txHead := rfl
@[simp] theorem armWdt_txTail (t : Timeout) (s : State) : (armWdt t s).txTail = s.txTail := rfl
@[simp] theorem armWdt_rxb (t : Timeout) (s : State) : (armWdt t s).rxb = s.rxb := rfl
@[simp] theorem armWdt_txb (t : Timeout) (s : State) : (armWdt t s).txb = s.txb := rfl
@[simp] theorem armWdt_err (t : Timeout) (s : State) : (armWdt t s).err = s.err := rfl
@[simp] theorem armWdt_line (t : Timeout) (s : State) : (armWdt t s).line = s.line := rfl
@[simp] theorem armWdt_lineLen (t : Timeout) (s : State) : (armWdt t s).lineLen = s.lineLen := rfl
@[simp] theorem armWdt_lineDone (t : Timeout) (s : State) : (armWdt t s).lineDone = s.lineDone := rfl
@[simp] theorem armWdt_page (t : Timeout) (s : State) : (armWdt t s).page = s.page := rfl
@[simp] theorem armWdt_curPage (t : Timeout) (s : State) : (armWdt t s).curPage = s.curPage := rfl
@[simp] theorem armWdt_lastEnd (t : Timeout) (s : State) : (armWdt t s).lastEnd = s.lastEnd := rfl
@[simp] theorem armWdt_count (t : Timeout) (s : State) : (armWdt t s).count = s.count := rfl
@[simp] theorem armWdt_status (t : Timeout) (s : State) : (armWdt t s).status = s.status := rfl
@[simp] theorem armWdt_mode (t : Timeout) (s : State) : (armWdt t s).mode = s.mode := rfl
@[simp] theorem armWdt_seq (t : Timeout) (s : State) : (armWdt t s).seq = s.seq := rfl
@[simp] theorem armWdt_tStart (t : Timeout) (s : State) : (armWdt t s).tStart = s.tStart := rfl
@[simp] theorem armWdt_tRunning (t : Timeout) (s : State) : (armWdt t s).tRunning = s.tRunning := rfl
@[simp] theorem armWdt_sig0 (t : Timeout) (s : State) : (armWdt t s).sig0 = s.sig0 := rfl
@[simp] theorem armWdt_sig1 (t : Timeout) (s : State) : (armWdt t s).sig1 = s.sig1 := rfl
@[simp] theorem armWdt_rcExt (t : Timeout) (s : State) : (armWdt t s).rcExt = s.rcExt := rfl
@[simp] theorem armWdt_rcWdt (t : Timeout) (s : State) : (armWdt t s).rcWdt = s.rcWdt := rfl
@[simp] theorem armWdt_wdtEn (t : Timeout) (s : State) : (armWdt t s).wdtEn = true := rfl
@[simp] theorem armWdt_wdtTimeout (t : Timeout) (s : State) : (armWdt t s).wdtTimeout = t := rfl
@[simp] theorem armWdt_wdtElapsed (t : Timeout) (s : State) : (armWdt t s).wdtElapsed = 0 := rfl
@[simp] theorem armWdt_rebootArmed (t : Timeout) (s : State) : (armWdt t s).rebootArmed = s.rebootArmed := rfl
@[simp] theorem armWdt_ie (t : Timeout) (s : State) : (armWdt t s).ie = s.ie := rfl
@[simp] theorem armWdt_inHandler (t : Timeout) (s : State) : (armWdt t s).inHandler = s.inHandler := rfl
@[simp] theorem armWdt_ms (t : Timeout) (s : State) : (armWdt t s).ms = s.ms := rfl
@[simp] theorem armWdt_flash (t : Timeout) (s : State) : (armWdt t s).flash = s.flash := rfl
@[simp] theorem armWdt_ftemp (t : Timeout) (s : State) : (armWdt t s).ftemp = s.ftemp := rfl
@[simp] theorem armWdt_flashOp (t : Timeout) (s : State) : (armWdt t s).flashOp = s.flashOp := rfl
@[simp] theorem armWdt_rwwOk (t : Timeout) (s : State) : (armWdt t s).rwwOk = s.rwwOk := rfl
@[simp] theorem armWdt_rxPend (t : Timeout) (s : State) : (armWdt t s).rxPend = s.rxPend := rfl
@[simp] theorem armWdt_rxByte (t : Timeout) (s : State) : (armWdt t s).rxByte = s.rxByte := rfl
@[simp] theorem armWdt_rxOvr (t : Timeout) (s : State) : (armWdt t s).rxOvr = s.rxOvr := rfl
@[simp] theorem armWdt_rxFe (t : Timeout) (s : State) : (armWdt t s).rxFe = s.rxFe := rfl
@[simp] theorem armWdt_txRdy (t : Timeout) (s : State) : (armWdt t s).txRdy = s.txRdy := rfl
@[simp] theorem armWdt_tickPend (t : Timeout) (s : State) : (armWdt t s).tickPend = s.tickPend := rfl
@[simp] theorem armWdt_cfg (t : Timeout) (s : State) : (armWdt t s).cfg = s.cfg := rfl
@[simp] theorem armWdt_flashSession (t : Timeout) (s : State) : (armWdt t s).flashSession = s.flashSession := rfl
@[simp] theorem armWdt_main (t : Timeout) (s : State) : (armWdt t s).main = s.main := rfl
@[simp] theorem armWdt_held (t : Timeout) (s : State) : (armWdt t s).held = s.held := rfl
@[simp] theorem armWdt_result (t : Timeout) (s : State) : (armWdt t s).result = s.result := rfl
@[simp] theorem armWdt_env (t : Timeout) (s : State) : (armWdt t s).env = s.env := rfl
@[simp] theorem armWdt_menuPlan (t : Timeout) (s : State) : (armWdt t s).menuPlan = s.menuPlan := rfl
@[simp] theorem armWdt_txLog (t : Timeout) (s : State) : (armWdt t s).txLog = s.txLog := rfl
@[simp] theorem armWdt_handoff (t : Timeout) (s : State) : (armWdt t s).handoff = s.handoff := rfl
@[simp] theorem armWdt_freeCount (t : Timeout) (s : State) : (armWdt t s).freeCount = s.freeCount := rfl

/-! ## enterHandler -/

@[simp] theorem enterHandler_rxHead (h : Source) (s : State) : (enterHandler h s).rxHead = s.rxHead := rfl
@[simp] theorem enterHandler_rxTail (h : Source) (s : State) : (enterHandler h s).rxTail = s.rxTail := rfl
@[simp] theorem enterHandler_txHead (h : Source) (s : State) : (enterHandler h s).txHead = s.txHead := rfl
@[simp] theorem enterHandler_txTail (h : Source) (s : State) : (enterHandler h s).txTail = s.txTail := rfl
@[simp] theorem enterHandler_rxb (h : Source) (s : State) : (enterHandler h s).rxb = s.rxb := rfl
@[simp] theorem enterHandler_txb (h : Source) (s : State) : (enterHandler h s).txb = s.txb := rfl
@[simp] theorem enterHandler_err (h : Source) (s : State) : (enterHandler h s).err = s.err := rfl
@[simp] theorem enterHandler_line (h : Source) (s : State) : (enterHandler h s).line = s.line := rfl
@[simp] theorem enterHandler_lineLen (h : Source) (s : State) : (enterHandler h s).lineLen = s.lineLen := rfl
@[simp] theorem enterHandler_lineDone (h : Source) (s : State) : (enterHandler h s).lineDone = s.lineDone := rfl
@[simp] theorem enterHandler_page (h : Source) (s : State) : (enterHandler h s).page = s.page := rfl
@[simp] theorem enterHandler_curPage (h : Source) (s : State) : (enterHandler h s).curPage = s.curPage := rfl
@[simp] theorem enterHandler_lastEnd (h : Source) (s : State) : (enterHandler h s).lastEnd = s.lastEnd := rfl
@[simp] theorem enterHandler_count (h : Source) (s : State) : (enterHandler h s).count = s.count := rfl
@[simp] theorem enterHandler_status (h : Source) (s : State) : (enterHandler h s).status = s.status := rfl
@[simp] theorem enterHandler_mode (h : Source) (s : State) : (enterHandler h s).mode = s.mode := rfl
@[simp] theorem enterHandler_seq (h : Source) (s : State) : (enterHandler h s).seq = s.seq := rfl
@[simp] theorem enterHandler_tStart (h : Source) (s : State) : (enterHandler h s).tStart = s.tStart := rfl
@[simp] theorem enterHandler_tRunning (h : Source) (s : State) : (enterHandler h s).tRunning = s.tRunning := rfl
@[simp] theorem enterHandler_sig0 (h : Source) (s : State) : (enterHandler h s).sig0 = s.sig0 := rfl
@[simp] theorem enterHandler_sig1 (h : Source) (s : State) : (enterHandler h s).sig1 = s.sig1 := rfl
@[simp] theorem enterHandler_rcExt (h : Source) (s : State) : (enterHandler h s).rcExt = s.rcExt := rfl
@[simp] theorem enterHandler_rcWdt (h : Source) (s : State) : (enterHandler h s).rcWdt = s.rcWdt := rfl
@[simp] theorem enterHandler_wdtEn (h : Source) (s : State) : (enterHandler h s).wdtEn = s.wdtEn := rfl
@[simp] theorem enterHandler_wdtTimeout (h : Source) (s : State) : (enterHandler h s).wdtTimeout = s.wdtTimeout := rfl
@[simp] theorem enterHandler_wdtElapsed (h : Source) (s : State) : (enterHandler h s).wdtElapsed = s.wdtElapsed := rfl
@[simp] theorem enterHandler_rebootArmed (h : Source) (s : State) : (enterHandler h s).rebootArmed = s.rebootArmed := rfl
@[simp] theorem enterHandler_ie (h : Source) (s : State) : (enterHandler h s).ie = false := rfl
@[simp] theorem enterHandler_inHandler (h : Source) (s : State) : (enterHandler h s).inHandler = some h := rfl
@[simp] theorem enterHandler_ms (h : Source) (s : State) : (enterHandler h s).ms = s.ms := rfl
@[simp] theorem enterHandler_flash (h : Source) (s : State) : (enterHandler h s).flash = s.flash := rfl
@[simp] theorem enterHandler_ftemp (h : Source) (s : State) : (enterHandler h s).ftemp = s.ftemp := rfl
@[simp] theorem enterHandler_flashOp (h : Source) (s : State) : (enterHandler h s).flashOp = s.flashOp := rfl
@[simp] theorem enterHandler_rwwOk (h : Source) (s : State) : (enterHandler h s).rwwOk = s.rwwOk := rfl
@[simp] theorem enterHandler_rxPend (h : Source) (s : State) : (enterHandler h s).rxPend = s.rxPend := rfl
@[simp] theorem enterHandler_rxByte (h : Source) (s : State) : (enterHandler h s).rxByte = s.rxByte := rfl
@[simp] theorem enterHandler_rxOvr (h : Source) (s : State) : (enterHandler h s).rxOvr = s.rxOvr := rfl
@[simp] theorem enterHandler_rxFe (h : Source) (s : State) : (enterHandler h s).rxFe = s.rxFe := rfl
@[simp] theorem enterHandler_txRdy (h : Source) (s : State) : (enterHandler h s).txRdy = s.txRdy := rfl
@[simp] theorem enterHandler_tickPend (h : Source) (s : State) : (enterHandler h s).tickPend = s.tickPend := rfl
@[simp] theorem enterHandler_cfg (h : Source) (s : State) : (enterHandler h s).cfg = s.cfg := rfl
@[simp] theorem enterHandler_flashSession (h : Source) (s : State) : (enterHandler h s).flashSession = s.flashSession := rfl
@[simp] theorem enterHandler_main (h : Source) (s : State) : (enterHandler h s).main = s.main := rfl
@[simp] theorem enterHandler_held (h : Source) (s : State) : (enterHandler h s).held = s.held := rfl
@[simp] theorem enterHandler_result (h : Source) (s : State) : (enterHandler h s).result = s.result := rfl
@[simp] theorem enterHandler_env (h : Source) (s : State) : (enterHandler h s).env = s.env := rfl
@[simp] theorem enterHandler_menuPlan (h : Source) (s : State) : (enterHandler h s).menuPlan = s.menuPlan := rfl
@[simp] theorem enterHandler_txLog (h : Source) (s : State) : (enterHandler h s).txLog = s.txLog := rfl
@[simp] theorem enterHandler_handoff (h : Source) (s : State) : (enterHandler h s).handoff = s.handoff := rfl
@[simp] theorem enterHandler_freeCount (h : Source) (s : State) : (enterHandler h s).freeCount = s.freeCount := rfl

/-! ## exitHandler -/

@[simp] theorem exitHandler_rxHead (s : State) : (exitHandler s).rxHead = s.rxHead := rfl
@[simp] theorem exitHandler_rxTail (s : State) : (exitHandler s).rxTail = s.rxTail := rfl
@[simp] theorem exitHandler_txHead (s : State) : (exitHandler s).txHead = s.txHead := rfl
@[simp] theorem exitHandler_txTail (s : State) : (exitHandler s).txTail = s.txTail := rfl
@[simp] theorem exitHandler_rxb (s : State) : (exitHandler s).rxb = s.rxb := rfl
@[simp] theorem exitHandler_txb (s : State) : (exitHandler s).txb = s.txb := rfl
@[simp] theorem exitHandler_err (s : State) : (exitHandler s).err = s.err := rfl
@[simp] theorem exitHandler_line (s : State) : (exitHandler s).line = s.line := rfl
@[simp] theorem exitHandler_lineLen (s : State) : (exitHandler s).lineLen = s.lineLen := rfl
@[simp] theorem exitHandler_lineDone (s : State) : (exitHandler s).lineDone = s.lineDone := rfl
@[simp] theorem exitHandler_page (s : State) : (exitHandler s).page = s.page := rfl
@[simp] theorem exitHandler_curPage (s : State) : (exitHandler s).curPage = s.curPage := rfl
@[simp] theorem exitHandler_lastEnd (s : State) : (exitHandler s).lastEnd = s.lastEnd := rfl
@[simp] theorem exitHandler_count (s : State) : (exitHandler s).count = s.count := rfl
@[simp] theorem exitHandler_status (s : State) : (exitHandler s).status = s.status := rfl
@[simp] theorem exitHandler_mode (s : State) : (exitHandler s).mode = s.mode := rfl
@[simp] theorem exitHandler_seq (s : State) : (exitHandler s).seq = s.seq := rfl
@[simp] theorem exitHandler_tStart (s : State) : (exitHandler s).tStart = s.tStart := rfl
@[simp] theorem exitHandler_tRunning (s : State) : (exitHandler s).tRunning = s.tRunning := rfl
@[simp] theorem exitHandler_sig0 (s : State) : (exitHandler s).sig0 = s.sig0 := rfl
@[simp] theorem exitHandler_sig1 (s : State) : (exitHandler s).sig1 = s.sig1 := rfl
@[simp] theorem exitHandler_rcExt (s : State) : (exitHandler s).rcExt = s.rcExt := rfl
@[simp] theorem exitHandler_rcWdt (s : State) : (exitHandler s).rcWdt = s.rcWdt := rfl
@[simp] theorem exitHandler_wdtEn (s : State) : (exitHandler s).wdtEn = s.wdtEn := rfl
@[simp] theorem exitHandler_wdtTimeout (s : State) : (exitHandler s).wdtTimeout = s.wdtTimeout := rfl
@[simp] theorem exitHandler_wdtElapsed (s : State) : (exitHandler s).wdtElapsed = s.wdtElapsed := rfl
@[simp] theorem exitHandler_rebootArmed (s : State) : (exitHandler s).rebootArmed = s.rebootArmed := rfl
@[simp] theorem exitHandler_ie (s : State) : (exitHandler s).ie = true := rfl
@[simp] theorem exitHandler_inHandler (s : State) : (exitHandler s).inHandler = none := rfl
@[simp] theorem exitHandler_ms (s : State) : (exitHandler s).ms = s.ms := rfl
@[simp] theorem exitHandler_flash (s : State) : (exitHandler s).flash = s.flash := rfl
@[simp] theorem exitHandler_ftemp (s : State) : (exitHandler s).ftemp = s.ftemp := rfl
@[simp] theorem exitHandler_flashOp (s : State) : (exitHandler s).flashOp = s.flashOp := rfl
@[simp] theorem exitHandler_rwwOk (s : State) : (exitHandler s).rwwOk = s.rwwOk := rfl
@[simp] theorem exitHandler_rxPend (s : State) : (exitHandler s).rxPend = s.rxPend := rfl
@[simp] theorem exitHandler_rxByte (s : State) : (exitHandler s).rxByte = s.rxByte := rfl
@[simp] theorem exitHandler_rxOvr (s : State) : (exitHandler s).rxOvr = s.rxOvr := rfl
@[simp] theorem exitHandler_rxFe (s : State) : (exitHandler s).rxFe = s.rxFe := rfl
@[simp] theorem exitHandler_txRdy (s : State) : (exitHandler s).txRdy = s.txRdy := rfl
@[simp] theorem exitHandler_tickPend (s : State) : (exitHandler s).tickPend = s.tickPend := rfl
@[simp] theorem exitHandler_cfg (s : State) : (exitHandler s).cfg = s.cfg := rfl
@[simp] theorem exitHandler_flashSession (s : State) : (exitHandler s).flashSession = s.flashSession := rfl
@[simp] theorem exitHandler_main (s : State) : (exitHandler s).main = s.main := rfl
@[simp] theorem exitHandler_held (s : State) : (exitHandler s).held = false := rfl
@[simp] theorem exitHandler_result (s : State) : (exitHandler s).result = s.result := rfl
@[simp] theorem exitHandler_env (s : State) : (exitHandler s).env = s.env := rfl
@[simp] theorem exitHandler_menuPlan (s : State) : (exitHandler s).menuPlan = s.menuPlan := rfl
@[simp] theorem exitHandler_txLog (s : State) : (exitHandler s).txLog = s.txLog := rfl
@[simp] theorem exitHandler_handoff (s : State) : (exitHandler s).handoff = s.handoff := rfl
@[simp] theorem exitHandler_freeCount (s : State) : (exitHandler s).freeCount = s.freeCount := rfl

/-! ## handOver -/

@[simp] theorem handOver_rxHead (s : State) : (handOver s).rxHead = s.rxHead := rfl
@[simp] theorem handOver_rxTail (s : State) : (handOver s).rxTail = s.rxTail := rfl
@[simp] theorem handOver_txHead (s : State) : (handOver s).txHead = s.txHead := rfl
@[simp] theorem handOver_txTail (s : State) : (handOver s).txTail = s.txTail := rfl
@[simp] theorem handOver_rxb (s : State) : (handOver s).rxb = s.rxb := rfl
@[simp] theorem handOver_txb (s : State) : (handOver s).txb = s.txb := rfl
@[simp] theorem handOver_err (s : State) : (handOver s).err = s.err := rfl
@[simp] theorem handOver_line (s : State) : (handOver s).line = s.line := rfl
@[simp] theorem handOver_lineLen (s : State) : (handOver s).lineLen = s.lineLen := rfl
@[simp] theorem handOver_lineDone (s : State) : (handOver s).lineDone = s.lineDone := rfl
@[simp] theorem handOver_page (s : State) : (handOver s).page = s.page := rfl
@[simp] theorem handOver_curPage (s : State) : (handOver s).curPage = s.curPage := rfl
@[simp] theorem handOver_lastEnd (s : State) : (handOver s).lastEnd = s.lastEnd := rfl
@[simp] theorem handOver_count (s : State) : (handOver s).count = s.count := rfl
@[simp] theorem handOver_status (s : State) : (handOver s).status = s.status := rfl
@[simp] theorem handOver_mode (s : State) : (handOver s).mode = s.mode := rfl
@[simp] theorem handOver_seq (s : State) : (handOver s).seq = .app := rfl
@[simp] theorem handOver_tStart (s : State) : (handOver s).tStart = s.tStart := rfl
@[simp] theorem handOver_tRunning (s : State) : (handOver s).tRunning = s.tRunning := rfl
@[simp] theorem handOver_sig0 (s : State) : (handOver s).sig0 = s.sig0 := rfl
@[simp] theorem handOver_sig1 (s : State) : (handOver s).sig1 = s.sig1 := rfl
@[simp] theorem handOver_rcExt (s : State) : (handOver s).rcExt = s.rcExt := rfl
@[simp] theorem handOver_rcWdt (s : State) : (handOver s).rcWdt = s.rcWdt := rfl
@[simp] theorem handOver_wdtEn (s : State) : (handOver s).wdtEn = s.wdtEn := rfl
@[simp] theorem handOver_wdtTimeout (s : State) : (handOver s).wdtTimeout = s.wdtTimeout := rfl
@[simp] theorem handOver_wdtElapsed (s : State) : (handOver s).wdtElapsed = s.wdtElapsed := rfl
@[simp] theorem handOver_rebootArmed (s : State) : (handOver s).rebootArmed = s.rebootArmed := rfl
@[simp] theorem handOver_ie (s : State) : (handOver s).ie = s.ie := rfl
@[simp] theorem handOver_inHandler (s : State) : (handOver s).inHandler = s.inHandler := rfl
@[simp] theorem handOver_ms (s : State) : (handOver s).ms = s.ms := rfl
@[simp] theorem handOver_flash (s : State) : (handOver s).flash = s.flash := rfl
@[simp] theorem handOver_ftemp (s : State) : (handOver s).ftemp = s.ftemp := rfl
@[simp] theorem handOver_flashOp (s : State) : (handOver s).flashOp = s.flashOp := rfl
@[simp] theorem handOver_rwwOk (s : State) : (handOver s).rwwOk = s.rwwOk := rfl
@[simp] theorem handOver_rxPend (s : State) : (handOver s).rxPend = s.rxPend := rfl
@[simp] theorem handOver_rxByte (s : State) : (handOver s).rxByte = s.rxByte := rfl
@[simp] theorem handOver_rxOvr (s : State) : (handOver s).rxOvr = s.rxOvr := rfl
@[simp] theorem handOver_rxFe (s : State) : (handOver s).rxFe = s.rxFe := rfl
@[simp] theorem handOver_txRdy (s : State) : (handOver s).txRdy = s.txRdy := rfl
@[simp] theorem handOver_tickPend (s : State) : (handOver s).tickPend = s.tickPend := rfl
@[simp] theorem handOver_cfg (s : State) : (handOver s).cfg = s.cfg := rfl
@[simp] theorem handOver_flashSession (s : State) : (handOver s).flashSession = s.flashSession := rfl
@[simp] theorem handOver_main (s : State) : (handOver s).main = [] := rfl
@[simp] theorem handOver_held (s : State) : (handOver s).held = s.held := rfl
@[simp] theorem handOver_result (s : State) : (handOver s).result = s.result := rfl
@[simp] theorem handOver_env (s : State) : (handOver s).env = s.env := rfl
@[simp] theorem handOver_menuPlan (s : State) : (handOver s).menuPlan = s.menuPlan := rfl
@[simp] theorem handOver_txLog (s : State) : (handOver s).txLog = s.txLog := rfl
@[simp] theorem handOver_handoff (s : State) : (handOver s).handoff = some appEntry := rfl
@[simp] theorem handOver_freeCount (s : State) : (handOver s).freeCount = s.freeCount := rfl

/-! ## storeTx -/

@[simp] theorem storeTx_rxHead (b : Byte) (s : State) : (storeTx b s).rxHead = s.rxHead := rfl
@[simp] theorem storeTx_rxTail (b : Byte) (s : State) : (storeTx b s).rxTail = s.rxTail := rfl
@[simp] theorem storeTx_txHead (b : Byte) (s : State) : (storeTx b s).txHead = nextCursor s.txHead s.cfg.txSlots := rfl
@[simp] theorem storeTx_txTail (b : Byte) (s : State) : (storeTx b s).txTail = s.txTail := rfl
@[simp] theorem storeTx_rxb (b : Byte) (s : State) : (storeTx b s).rxb = s.rxb := rfl
@[simp] theorem storeTx_txb (b : Byte) (s : State) : (storeTx b s).txb = s.txb.set s.txHead b := rfl
@[simp] theorem storeTx_err (b : Byte) (s : State) : (storeTx b s).err = s.err := rfl
@[simp] theorem storeTx_line (b : Byte) (s : State) : (storeTx b s).line = s.line := rfl
@[simp] theorem storeTx_lineLen (b : Byte) (s : State) : (storeTx b s).lineLen = s.lineLen := rfl
@[simp] theorem storeTx_lineDone (b : Byte) (s : State) : (storeTx b s).lineDone = s.lineDone := rfl
@[simp] theorem storeTx_page (b : Byte) (s : State) : (storeTx b s).page = s.page := rfl
@[simp] theorem storeTx_curPage (b : Byte) (s : State) : (storeTx b s).curPage = s.curPage := rfl
@[simp] theorem storeTx_lastEnd (b : Byte) (s : State) : (storeTx b s).lastEnd = s.lastEnd := rfl
@[simp] theorem storeTx_count (b : Byte) (s : State) : (storeTx b s).count = s.count := rfl
@[simp] theorem storeTx_status (b : Byte) (s : State) : (storeTx b s).status = s.status := rfl
@[simp] theorem storeTx_mode (b : Byte) (s : State) : (storeTx b s).mode = s.mode := rfl
@[simp] theorem storeTx_seq (b : Byte) (s : State) : (storeTx b s).seq = s.seq := rfl
@[simp] theorem storeTx_tStart (b : Byte) (s : State) : (storeTx b s).tStart = s.tStart := rfl
@[simp] theorem storeTx_tRunning (b : Byte) (s : State) : (storeTx b s).tRunning = s.tRunning := rfl
@[simp] theorem storeTx_sig0 (b : Byte) (s : State) : (storeTx b s).sig0 = s.sig0 := rfl
@[simp] theorem storeTx_sig1 (b : Byte) (s : State) : (storeTx b s).sig1 = s.sig1 := rfl
@[simp] theorem storeTx_rcExt (b : Byte) (s : State) : (storeTx b s).rcExt = s.rcExt := rfl
@[simp] theorem storeTx_rcWdt (b : Byte) (s : State) : (storeTx b s).rcWdt = s.rcWdt := rfl
@[simp] theorem storeTx_wdtEn (b : Byte) (s : State) : (storeTx b s).wdtEn = s.wdtEn := rfl
@[simp] theorem storeTx_wdtTimeout (b : Byte) (s : State) : (storeTx b s).wdtTimeout = s.wdtTimeout := rfl
@[simp] theorem storeTx_wdtElapsed (b : Byte) (s : State) : (storeTx b s).wdtElapsed = 0 := rfl
@[simp] theorem storeTx_rebootArmed (b : Byte) (s : State) : (storeTx b s).rebootArmed = s.rebootArmed := rfl
@[simp] theorem storeTx_ie (b : Byte) (s : State) : (storeTx b s).ie = s.ie := rfl
@[simp] theorem storeTx_inHandler (b : Byte) (s : State) : (storeTx b s).inHandler = s.inHandler := rfl
@[simp] theorem storeTx_ms (b : Byte) (s : State) : (storeTx b s).ms = s.ms := rfl
@[simp] theorem storeTx_flash (b : Byte) (s : State) : (storeTx b s).flash = s.flash := rfl
@[simp] theorem storeTx_ftemp (b : Byte) (s : State) : (storeTx b s).ftemp = s.ftemp := rfl
@[simp] theorem storeTx_flashOp (b : Byte) (s : State) : (storeTx b s).flashOp = s.flashOp := rfl
@[simp] theorem storeTx_rwwOk (b : Byte) (s : State) : (storeTx b s).rwwOk = s.rwwOk := rfl
@[simp] theorem storeTx_rxPend (b : Byte) (s : State) : (storeTx b s).rxPend = s.rxPend := rfl
@[simp] theorem storeTx_rxByte (b : Byte) (s : State) : (storeTx b s).rxByte = s.rxByte := rfl
@[simp] theorem storeTx_rxOvr (b : Byte) (s : State) : (storeTx b s).rxOvr = s.rxOvr := rfl
@[simp] theorem storeTx_rxFe (b : Byte) (s : State) : (storeTx b s).rxFe = s.rxFe := rfl
@[simp] theorem storeTx_txRdy (b : Byte) (s : State) : (storeTx b s).txRdy = s.txRdy := rfl
@[simp] theorem storeTx_tickPend (b : Byte) (s : State) : (storeTx b s).tickPend = s.tickPend := rfl
@[simp] theorem storeTx_cfg (b : Byte) (s : State) : (storeTx b s).cfg = s.cfg := rfl
@[simp] theorem storeTx_flashSession (b : Byte) (s : State) : (storeTx b s).flashSession = s.flashSession := rfl
@[simp] theorem storeTx_main (b : Byte) (s : State) : (storeTx b s).main = s.main := rfl
@[simp] theorem storeTx_held (b : Byte) (s : State) : (storeTx b s).held = s.held := rfl
@[simp] theorem storeTx_result (b : Byte) (s : State) : (storeTx b s).result = s.result := rfl
@[simp] theorem storeTx_env (b : Byte) (s : State) : (storeTx b s).env = s.env := rfl
@[simp] theorem storeTx_menuPlan (b : Byte) (s : State) : (storeTx b s).menuPlan = s.menuPlan := rfl
@[simp] theorem storeTx_txLog (b : Byte) (s : State) : (storeTx b s).txLog = s.txLog := rfl
@[simp] theorem storeTx_handoff (b : Byte) (s : State) : (storeTx b s).handoff = s.handoff := rfl
@[simp] theorem storeTx_freeCount (b : Byte) (s : State) : (storeTx b s).freeCount = s.freeCount := rfl

/-! ## storeRx -/

@[simp] theorem storeRx_rxHead (b : Byte) (s : State) : (storeRx b s).rxHead = nextCursor s.rxHead s.cfg.rxSlots := rfl
@[simp] theorem storeRx_rxTail (b : Byte) (s : State) : (storeRx b s).rxTail = s.rxTail := rfl
@[simp] theorem storeRx_txHead (b : Byte) (s : State) : (storeRx b s).txHead = s.txHead := rfl
@[simp] theorem storeRx_txTail (b : Byte) (s : State) : (storeRx b s).txTail = s.txTail := rfl
@[simp] theorem storeRx_rxb (b : Byte) (s : State) : (storeRx b s).rxb = s.rxb.set s.rxHead b := rfl
@[simp] theorem storeRx_txb (b : Byte) (s : State) : (storeRx b s).txb = s.txb := rfl
@[simp] theorem storeRx_err (b : Byte) (s : State) : (storeRx b s).err = s.err := rfl
@[simp] theorem storeRx_line (b : Byte) (s : State) : (storeRx b s).line = s.line := rfl
@[simp] theorem storeRx_lineLen (b : Byte) (s : State) : (storeRx b s).lineLen = s.lineLen := rfl
@[simp] theorem storeRx_lineDone (b : Byte) (s : State) : (storeRx b s).lineDone = s.lineDone := rfl
@[simp] theorem storeRx_page (b : Byte) (s : State) : (storeRx b s).page = s.page := rfl
@[simp] theorem storeRx_curPage (b : Byte) (s : State) : (storeRx b s).curPage = s.curPage := rfl
@[simp] theorem storeRx_lastEnd (b : Byte) (s : State) : (storeRx b s).lastEnd = s.lastEnd := rfl
@[simp] theorem storeRx_count (b : Byte) (s : State) : (storeRx b s).count = s.count := rfl
@[simp] theorem storeRx_status (b : Byte) (s : State) : (storeRx b s).status = s.status := rfl
@[simp] theorem storeRx_mode (b : Byte) (s : State) : (storeRx b s).mode = s.mode := rfl
@[simp] theorem storeRx_seq (b : Byte) (s : State) : (storeRx b s).seq = s.seq := rfl
@[simp] theorem storeRx_tStart (b : Byte) (s : State) : (storeRx b s).tStart = s.tStart := rfl
@[simp] theorem storeRx_tRunning (b : Byte) (s : State) : (storeRx b s).tRunning = s.tRunning := rfl
@[simp] theorem storeRx_sig0 (b : Byte) (s : State) : (storeRx b s).sig0 = s.sig0 := rfl
@[simp] theorem storeRx_sig1 (b : Byte) (s : State) : (storeRx b s).sig1 = s.sig1 := rfl
@[simp] theorem storeRx_rcExt (b : Byte) (s : State) : (storeRx b s).rcExt = s.rcExt := rfl
@[simp] theorem storeRx_rcWdt (b : Byte) (s : State) : (storeRx b s).rcWdt = s.rcWdt := rfl
@[simp] theorem storeRx_wdtEn (b : Byte) (s : State) : (storeRx b s).wdtEn = s.wdtEn := rfl
@[simp] theorem storeRx_wdtTimeout (b : Byte) (s : State) : (storeRx b s).wdtTimeout = s.wdtTimeout := rfl
@[simp] theorem storeRx_wdtElapsed (b : Byte) (s : State) : (storeRx b s).wdtElapsed = 0 := rfl
@[simp] theorem storeRx_rebootArmed (b : Byte) (s : State) : (storeRx b s).rebootArmed = s.rebootArmed := rfl
@[simp] theorem storeRx_ie (b : Byte) (s : State) : (storeRx b s).ie = s.ie := rfl
@[simp] theorem storeRx_inHandler (b : Byte) (s : State) : (storeRx b s).inHandler = s.inHandler := rfl
@[simp] theorem storeRx_ms (b : Byte) (s : State) : (storeRx b s).ms = s.ms := rfl
@[simp] theorem storeRx_flash (b : Byte) (s : State) : (storeRx b s).flash = s.flash := rfl
@[simp] theorem storeRx_ftemp (b : Byte) (s : State) : (storeRx b s).ftemp = s.ftemp := rfl
@[simp] theorem storeRx_flashOp (b : Byte) (s : State) : (storeRx b s).flashOp = s.flashOp := rfl
@[simp] theorem storeRx_rwwOk (b : Byte) (s : State) : (storeRx b s).rwwOk = s.rwwOk := rfl
@[simp] theorem storeRx_rxPend (b : Byte) (s : State) : (storeRx b s).rxPend = s.rxPend := rfl
@[simp] theorem storeRx_rxByte (b : Byte) (s : State) : (storeRx b s).rxByte = s.rxByte := rfl
@[simp] theorem storeRx_rxOvr (b : Byte) (s : State) : (storeRx b s).rxOvr = s.rxOvr := rfl
@[simp] theorem storeRx_rxFe (b : Byte) (s : State) : (storeRx b s).rxFe = s.rxFe := rfl
@[simp] theorem storeRx_txRdy (b : Byte) (s : State) : (storeRx b s).txRdy = s.txRdy := rfl
@[simp] theorem storeRx_tickPend (b : Byte) (s : State) : (storeRx b s).tickPend = s.tickPend := rfl
@[simp] theorem storeRx_cfg (b : Byte) (s : State) : (storeRx b s).cfg = s.cfg := rfl
@[simp] theorem storeRx_flashSession (b : Byte) (s : State) : (storeRx b s).flashSession = s.flashSession := rfl
@[simp] theorem storeRx_main (b : Byte) (s : State) : (storeRx b s).main = s.main := rfl
@[simp] theorem storeRx_held (b : Byte) (s : State) : (storeRx b s).held = s.held := rfl
@[simp] theorem storeRx_result (b : Byte) (s : State) : (storeRx b s).result = s.result := rfl
@[simp] theorem storeRx_env (b : Byte) (s : State) : (storeRx b s).env = s.env := rfl
@[simp] theorem storeRx_menuPlan (b : Byte) (s : State) : (storeRx b s).menuPlan = s.menuPlan := rfl
@[simp] theorem storeRx_txLog (b : Byte) (s : State) : (storeRx b s).txLog = s.txLog := rfl
@[simp] theorem storeRx_handoff (b : Byte) (s : State) : (storeRx b s).handoff = s.handoff := rfl
@[simp] theorem storeRx_freeCount (b : Byte) (s : State) : (storeRx b s).freeCount = s.freeCount := rfl

/-! ## raiseFault -/

@[simp] theorem raiseFault_rxHead (c : Cause) (lo hi : Nat) (s : State) : (raiseFault c lo hi s).rxHead = s.rxHead := rfl
@[simp] theorem raiseFault_rxTail (c : Cause) (lo hi : Nat) (s : State) : (raiseFault c lo hi s).rxTail = s.rxTail := rfl
@[simp] theorem raiseFault_txHead (c : Cause) (lo hi : Nat) (s : State) : (raiseFault c lo hi s).txHead = s.txHead := rfl
@[simp] theorem raiseFault_txTail (c : Cause) (lo hi : Nat) (s : State) : (raiseFault c lo hi s).txTail = s.txTail := rfl
@[simp] theorem raiseFault_rxb (c : Cause) (lo hi : Nat) (s : State) : (raiseFault c lo hi s).rxb = s.rxb := rfl
@[simp] theorem raiseFault_txb (c : Cause) (lo hi : Nat) (s : State) : (raiseFault c lo hi s).txb = s.txb := rfl
@[simp] theorem raiseFault_err (c : Cause) (lo hi : Nat) (s : State) : (raiseFault c lo hi s).err = s.err := rfl
@[simp] theorem raiseFault_line (c : Cause) (lo hi : Nat) (s : State) : (raiseFault c lo hi s).line = s.line := rfl
@[simp] theorem raiseFault_lineLen (c : Cause) (lo hi : Nat) (s : State) : (raiseFault c lo hi s).lineLen = s.lineLen := rfl
@[simp] theorem raiseFault_lineDone (c : Cause) (lo hi : Nat) (s : State) : (raiseFault c lo hi s).lineDone = s.lineDone := rfl
@[simp] theorem raiseFault_page (c : Cause) (lo hi : Nat) (s : State) : (raiseFault c lo hi s).page = s.page := rfl
@[simp] theorem raiseFault_curPage (c : Cause) (lo hi : Nat) (s : State) : (raiseFault c lo hi s).curPage = s.curPage := rfl
@[simp] theorem raiseFault_lastEnd (c : Cause) (lo hi : Nat) (s : State) : (raiseFault c lo hi s).lastEnd = s.lastEnd := rfl
@[simp] theorem raiseFault_count (c : Cause) (lo hi : Nat) (s : State) : (raiseFault c lo hi s).count = s.count := rfl
@[simp] theorem raiseFault_status (c : Cause) (lo hi : Nat) (s : State) : (raiseFault c lo hi s).status = .error := rfl
@[simp] theorem raiseFault_mode (c : Cause) (lo hi : Nat) (s : State) : (raiseFault c lo hi s).mode = s.mode := rfl
@[simp] theorem raiseFault_seq (c : Cause) (lo hi : Nat) (s : State) : (raiseFault c lo hi s).seq = s.seq := rfl
@[simp] theorem raiseFault_tStart (c : Cause) (lo hi : Nat) (s : State) : (raiseFault c lo hi s).tStart = s.tStart := rfl
@[simp] theorem raiseFault_tRunning (c : Cause) (lo hi : Nat) (s : State) : (raiseFault c lo hi s).tRunning = s.tRunning := rfl
@[simp] theorem raiseFault_sig0 (c : Cause) (lo hi : Nat) (s : State) : (raiseFault c lo hi s).sig0 = s.sig0 := rfl
@[simp] theorem raiseFault_sig1 (c : Cause) (lo hi : Nat) (s : State) : (raiseFault c lo hi s).sig1 = s.sig1 := rfl
@[simp] theorem raiseFault_rcExt (c : Cause) (lo hi : Nat) (s : State) : (raiseFault c lo hi s).rcExt = s.rcExt := rfl
@[simp] theorem raiseFault_rcWdt (c : Cause) (lo hi : Nat) (s : State) : (raiseFault c lo hi s).rcWdt = s.rcWdt := rfl
@[simp] theorem raiseFault_wdtEn (c : Cause) (lo hi : Nat) (s : State) : (raiseFault c lo hi s).wdtEn = s.wdtEn := rfl
@[simp] theorem raiseFault_wdtTimeout (c : Cause) (lo hi : Nat) (s : State) : (raiseFault c lo hi s).wdtTimeout = s.wdtTimeout := rfl
@[simp] theorem raiseFault_wdtElapsed (c : Cause) (lo hi : Nat) (s : State) : (raiseFault c lo hi s).wdtElapsed = s.wdtElapsed := rfl
@[simp] theorem raiseFault_rebootArmed (c : Cause) (lo hi : Nat) (s : State) : (raiseFault c lo hi s).rebootArmed = s.rebootArmed := rfl
@[simp] theorem raiseFault_ie (c : Cause) (lo hi : Nat) (s : State) : (raiseFault c lo hi s).ie = s.ie := rfl
@[simp] theorem raiseFault_inHandler (c : Cause) (lo hi : Nat) (s : State) : (raiseFault c lo hi s).inHandler = s.inHandler := rfl
@[simp] theorem raiseFault_ms (c : Cause) (lo hi : Nat) (s : State) : (raiseFault c lo hi s).ms = s.ms := rfl
@[simp] theorem raiseFault_flash (c : Cause) (lo hi : Nat) (s : State) : (raiseFault c lo hi s).flash = s.flash := rfl
@[simp] theorem raiseFault_ftemp (c : Cause) (lo hi : Nat) (s : State) : (raiseFault c lo hi s).ftemp = s.ftemp := rfl
@[simp] theorem raiseFault_flashOp (c : Cause) (lo hi : Nat) (s : State) : (raiseFault c lo hi s).flashOp = s.flashOp := rfl
@[simp] theorem raiseFault_rwwOk (c : Cause) (lo hi : Nat) (s : State) : (raiseFault c lo hi s).rwwOk = s.rwwOk := rfl
@[simp] theorem raiseFault_rxPend (c : Cause) (lo hi : Nat) (s : State) : (raiseFault c lo hi s).rxPend = s.rxPend := rfl
@[simp] theorem raiseFault_rxByte (c : Cause) (lo hi : Nat) (s : State) : (raiseFault c lo hi s).rxByte = s.rxByte := rfl
@[simp] theorem raiseFault_rxOvr (c : Cause) (lo hi : Nat) (s : State) : (raiseFault c lo hi s).rxOvr = s.rxOvr := rfl
@[simp] theorem raiseFault_rxFe (c : Cause) (lo hi : Nat) (s : State) : (raiseFault c lo hi s).rxFe = s.rxFe := rfl
@[simp] theorem raiseFault_txRdy (c : Cause) (lo hi : Nat) (s : State) : (raiseFault c lo hi s).txRdy = s.txRdy := rfl
@[simp] theorem raiseFault_tickPend (c : Cause) (lo hi : Nat) (s : State) : (raiseFault c lo hi s).tickPend = s.tickPend := rfl
@[simp] theorem raiseFault_cfg (c : Cause) (lo hi : Nat) (s : State) : (raiseFault c lo hi s).cfg = s.cfg := rfl
@[simp] theorem raiseFault_flashSession (c : Cause) (lo hi : Nat) (s : State) : (raiseFault c lo hi s).flashSession = s.flashSession := rfl
@[simp] theorem raiseFault_main (c : Cause) (lo hi : Nat) (s : State) : (raiseFault c lo hi s).main = emit (diagText s c lo hi) ++ s.main := rfl
@[simp] theorem raiseFault_held (c : Cause) (lo hi : Nat) (s : State) : (raiseFault c lo hi s).held = s.held := rfl
@[simp] theorem raiseFault_result (c : Cause) (lo hi : Nat) (s : State) : (raiseFault c lo hi s).result = .status .error := rfl
@[simp] theorem raiseFault_env (c : Cause) (lo hi : Nat) (s : State) : (raiseFault c lo hi s).env = s.env := rfl
@[simp] theorem raiseFault_menuPlan (c : Cause) (lo hi : Nat) (s : State) : (raiseFault c lo hi s).menuPlan = s.menuPlan := rfl
@[simp] theorem raiseFault_txLog (c : Cause) (lo hi : Nat) (s : State) : (raiseFault c lo hi s).txLog = s.txLog := rfl
@[simp] theorem raiseFault_handoff (c : Cause) (lo hi : Nat) (s : State) : (raiseFault c lo hi s).handoff = s.handoff := rfl
@[simp] theorem raiseFault_freeCount (c : Cause) (lo hi : Nat) (s : State) : (raiseFault c lo hi s).freeCount = s.freeCount := rfl

/-! ## raiseTransport -/

@[simp] theorem raiseTransport_rxHead (e : ErrFlags) (s : State) : (raiseTransport e s).rxHead = s.rxHead := rfl
@[simp] theorem raiseTransport_rxTail (e : ErrFlags) (s : State) : (raiseTransport e s).rxTail = s.rxTail := rfl
@[simp] theorem raiseTransport_txHead (e : ErrFlags) (s : State) : (raiseTransport e s).txHead = s.txHead := rfl
@[simp] theorem raiseTransport_txTail (e : ErrFlags) (s : State) : (raiseTransport e s).txTail = s.txTail := rfl
@[simp] theorem raiseTransport_rxb (e : ErrFlags) (s : State) : (raiseTransport e s).rxb = s.rxb := rfl
@[simp] theorem raiseTransport_txb (e : ErrFlags) (s : State) : (raiseTransport e s).txb = s.txb := rfl
@[simp] theorem raiseTransport_err (e : ErrFlags) (s : State) : (raiseTransport e s).err = s.err := rfl
@[simp] theorem raiseTransport_line (e : ErrFlags) (s : State) : (raiseTransport e s).line = s.line := rfl
@[simp] theorem raiseTransport_lineLen (e : ErrFlags) (s : State) : (raiseTransport e s).lineLen = s.lineLen := rfl
@[simp] theorem raiseTransport_lineDone (e : ErrFlags) (s : State) : (raiseTransport e s).lineDone = s.lineDone := rfl
@[simp] theorem raiseTransport_page (e : ErrFlags) (s : State) : (raiseTransport e s).page = s.page := rfl
@[simp] theorem raiseTransport_curPage (e : ErrFlags) (s : State) : (raiseTransport e s).curPage = s.curPage := rfl
@[simp] theorem raiseTransport_lastEnd (e : ErrFlags) (s : State) : (raiseTransport e s).lastEnd = s.lastEnd := rfl
@[simp] theorem raiseTransport_count (e : ErrFlags) (s : State) : (raiseTransport e s).count = s.count := rfl
@[simp] theorem raiseTransport_status (e : ErrFlags) (s : State) : (raiseTransport e s).status = s.status := rfl
@[simp] theorem raiseTransport_mode (e : ErrFlags) (s : State) : (raiseTransport e s).mode = s.mode := rfl
@[simp] theorem raiseTransport_seq (e : ErrFlags) (s : State) : (raiseTransport e s).seq = s.seq := rfl
@[simp] theorem raiseTransport_tStart (e : ErrFlags) (s : State) : (raiseTransport e s).tStart = s.tStart := rfl
@[simp] theorem raiseTransport_tRunning (e : ErrFlags) (s : State) : (raiseTransport e s).tRunning = s.tRunning := rfl
@[simp] theorem raiseTransport_sig0 (e : ErrFlags) (s : State) : (raiseTransport e s).sig0 = s.sig0 := rfl
@[simp] theorem raiseTransport_sig1 (e : ErrFlags) (s : State) : (raiseTransport e s).sig1 = s.sig1 := rfl
@[simp] theorem raiseTransport_rcExt (e : ErrFlags) (s : State) : (raiseTransport e s).rcExt = s.rcExt := rfl
@[simp] theorem raiseTransport_rcWdt (e : ErrFlags) (s : State) : (raiseTransport e s).rcWdt = s.rcWdt := rfl
@[simp] theorem raiseTransport_wdtEn (e : ErrFlags) (s : State) : (raiseTransport e s).wdtEn = s.wdtEn := rfl
@[simp] theorem raiseTransport_wdtTimeout (e : ErrFlags) (s : State) : (raiseTransport e s).wdtTimeout = s.wdtTimeout := rfl
@[simp] theorem raiseTransport_wdtElapsed (e : ErrFlags) (s : State) : (raiseTransport e s).wdtElapsed = s.wdtElapsed := rfl
@[simp] theorem raiseTransport_rebootArmed (e : ErrFlags) (s : State) : (raiseTransport e s).rebootArmed = s.rebootArmed := rfl
@[simp] theorem raiseTransport_ie (e : ErrFlags) (s : State) : (raiseTransport e s).ie = s.ie := rfl
@[simp] theorem raiseTransport_inHandler (e : ErrFlags) (s : State) : (raiseTransport e s).inHandler = s.inHandler := rfl
@[simp] theorem raiseTransport_ms (e : ErrFlags) (s : State) : (raiseTransport e s).ms = s.ms := rfl
@[simp] theorem raiseTransport_flash (e : ErrFlags) (s : State) : (raiseTransport e s).flash = s.flash := rfl
@[simp] theorem raiseTransport_ftemp (e : ErrFlags) (s : State) : (raiseTransport e s).ftemp = s.ftemp := rfl
@[simp] theorem raiseTransport_flashOp (e : ErrFlags) (s : State) : (raiseTransport e s).flashOp = s.flashOp := rfl
@[simp] theorem raiseTransport_rwwOk (e : ErrFlags) (s : State) : (raiseTransport e s).rwwOk = s.rwwOk := rfl
@[simp] theorem raiseTransport_rxPend (e : ErrFlags) (s : State) : (raiseTransport e s).rxPend = s.rxPend := rfl
@[simp] theorem raiseTransport_rxByte (e : ErrFlags) (s : State) : (raiseTransport e s).rxByte = s.rxByte := rfl
@[simp] theorem raiseTransport_rxOvr (e : ErrFlags) (s : State) : (raiseTransport e s).rxOvr = s.rxOvr := rfl
@[simp] theorem raiseTransport_rxFe (e : ErrFlags) (s : State) : (raiseTransport e s).rxFe = s.rxFe := rfl
@[simp] theorem raiseTransport_txRdy (e : ErrFlags) (s : State) : (raiseTransport e s).txRdy = s.txRdy := rfl
@[simp] theorem raiseTransport_tickPend (e : ErrFlags) (s : State) : (raiseTransport e s).tickPend = s.tickPend := rfl
@[simp] theorem raiseTransport_cfg (e : ErrFlags) (s : State) : (raiseTransport e s).cfg = s.cfg := rfl
@[simp] theorem raiseTransport_flashSession (e : ErrFlags) (s : State) : (raiseTransport e s).flashSession = s.flashSession := rfl
@[simp] theorem raiseTransport_main (e : ErrFlags) (s : State) : (raiseTransport e s).main = emit (textOf s.cfg.strFault e) ++ [.instr .forceRebootToBootloader] := rfl
@[simp] theorem raiseTransport_held (e : ErrFlags) (s : State) : (raiseTransport e s).held = s.held := rfl
@[simp] theorem raiseTransport_result (e : ErrFlags) (s : State) : (raiseTransport e s).result = s.result := rfl
@[simp] theorem raiseTransport_env (e : ErrFlags) (s : State) : (raiseTransport e s).env = s.env := rfl
@[simp] theorem raiseTransport_menuPlan (e : ErrFlags) (s : State) : (raiseTransport e s).menuPlan = s.menuPlan := rfl
@[simp] theorem raiseTransport_txLog (e : ErrFlags) (s : State) : (raiseTransport e s).txLog = s.txLog := rfl
@[simp] theorem raiseTransport_handoff (e : ErrFlags) (s : State) : (raiseTransport e s).handoff = s.handoff := rfl
@[simp] theorem raiseTransport_freeCount (e : ErrFlags) (s : State) : (raiseTransport e s).freeCount = s.freeCount := rfl

/-! ## startReboot -/

@[simp] theorem startReboot_rxHead (stage : Stage) (s : State) : (startReboot stage s).rxHead = s.rxHead := rfl
@[simp] theorem startReboot_rxTail (stage : Stage) (s : State) : (startReboot stage s).rxTail = s.rxTail := rfl
@[simp] theorem startReboot_txHead (stage : Stage) (s : State) : (startReboot stage s).txHead = s.txHead := rfl
@[simp] theorem startReboot_txTail (stage : Stage) (s : State) : (startReboot stage s).txTail = s.txTail := rfl
@[simp] theorem startReboot_rxb (stage : Stage) (s : State) : (startReboot stage s).rxb = s.rxb := rfl
@[simp] theorem startReboot_txb (stage : Stage) (s : State) : (startReboot stage s).txb = s.txb := rfl
@[simp] theorem startReboot_err (stage : Stage) (s : State) : (startReboot stage s).err = s.err := rfl
@[simp] theorem startReboot_line (stage : Stage) (s : State) : (startReboot stage s).line = s.line := rfl
@[simp] theorem startReboot_lineLen (stage : Stage) (s : State) : (startReboot stage s).lineLen = s.lineLen := rfl
@[simp] theorem startReboot_lineDone (stage : Stage) (s : State) : (startReboot stage s).lineDone = s.lineDone := rfl
@[simp] theorem startReboot_page (stage : Stage) (s : State) : (startReboot stage s).page = s.page := rfl
@[simp] theorem startReboot_curPage (stage : Stage) (s : State) : (startReboot stage s).curPage = s.curPage := rfl
@[simp] theorem startReboot_lastEnd (stage : Stage) (s : State) : (startReboot stage s).lastEnd = s.lastEnd := rfl
@[simp] theorem startReboot_count (stage : Stage) (s : State) : (startReboot stage s).count = s.count := rfl
@[simp] theorem startReboot_status (stage : Stage) (s : State) : (startReboot stage s).status = s.status := rfl
@[simp] theorem startReboot_mode (stage : Stage) (s : State) : (startReboot stage s).mode = s.mode := rfl
@[simp] theorem startReboot_seq (stage : Stage) (s : State) : (startReboot stage s).seq = s.seq := rfl
@[simp] theorem startReboot_tStart (stage : Stage) (s : State) : (startReboot stage s).tStart = s.tStart := rfl
@[simp] theorem startReboot_tRunning (stage : Stage) (s : State) : (startReboot stage s).tRunning = s.tRunning := rfl
@[simp] theorem startReboot_sig0 (stage : Stage) (s : State) : (startReboot stage s).sig0 = (signatureFor s.cfg stage).1 := rfl
@[simp] theorem startReboot_sig1 (stage : Stage) (s : State) : (startReboot stage s).sig1 = s.sig1 := rfl
@[simp] theorem startReboot_rcExt (stage : Stage) (s : State) : (startReboot stage s).rcExt = s.rcExt := rfl
@[simp] theorem startReboot_rcWdt (stage : Stage) (s : State) : (startReboot stage s).rcWdt = s.rcWdt := rfl
@[simp] theorem startReboot_wdtEn (stage : Stage) (s : State) : (startReboot stage s).wdtEn = s.wdtEn := rfl
@[simp] theorem startReboot_wdtTimeout (stage : Stage) (s : State) : (startReboot stage s).wdtTimeout = s.wdtTimeout := rfl
@[simp] theorem startReboot_wdtElapsed (stage : Stage) (s : State) : (startReboot stage s).wdtElapsed = s.wdtElapsed := rfl
@[simp] theorem startReboot_rebootArmed (stage : Stage) (s : State) : (startReboot stage s).rebootArmed = s.rebootArmed := rfl
@[simp] theorem startReboot_ie (stage : Stage) (s : State) : (startReboot stage s).ie = s.ie := rfl
@[simp] theorem startReboot_inHandler (stage : Stage) (s : State) : (startReboot stage s).inHandler = s.inHandler := rfl
@[simp] theorem startReboot_ms (stage : Stage) (s : State) : (startReboot stage s).ms = s.ms := rfl
@[simp] theorem startReboot_flash (stage : Stage) (s : State) : (startReboot stage s).flash = s.flash := rfl
@[simp] theorem startReboot_ftemp (stage : Stage) (s : State) : (startReboot stage s).ftemp = s.ftemp := rfl
@[simp] theorem startReboot_flashOp (stage : Stage) (s : State) : (startReboot stage s).flashOp = s.flashOp := rfl
@[simp] theorem startReboot_rwwOk (stage : Stage) (s : State) : (startReboot stage s).rwwOk = s.rwwOk := rfl
@[simp] theorem startReboot_rxPend (stage : Stage) (s : State) : (startReboot stage s).rxPend = s.rxPend := rfl
@[simp] theorem startReboot_rxByte (stage : Stage) (s : State) : (startReboot stage s).rxByte = s.rxByte := rfl
@[simp] theorem startReboot_rxOvr (stage : Stage) (s : State) : (startReboot stage s).rxOvr = s.rxOvr := rfl
@[simp] theorem startReboot_rxFe (stage : Stage) (s : State) : (startReboot stage s).rxFe = s.rxFe := rfl
@[simp] theorem startReboot_txRdy (stage : Stage) (s : State) : (startReboot stage s).txRdy = s.txRdy := rfl
@[simp] theorem startReboot_tickPend (stage : Stage) (s : State) : (startReboot stage s).tickPend = s.tickPend := rfl
@[simp] theorem startReboot_cfg (stage : Stage) (s : State) : (startReboot stage s).cfg = s.cfg := rfl
@[simp] theorem startReboot_flashSession (stage : Stage) (s : State) : (startReboot stage s).flashSession = s.flashSession := rfl
@[simp] theorem startReboot_main (stage : Stage) (s : State) : (startReboot stage s).main = [.micro (.rebootSig1 stage), .micro (.rebootArm stage)] := rfl
@[simp] theorem startReboot_held (stage : Stage) (s : State) : (startReboot stage s).held = s.held := rfl
@[simp] theorem startReboot_result (stage : Stage) (s : State) : (startReboot stage s).result = s.result := rfl
@[simp] theorem startReboot_env (stage : Stage) (s : State) : (startReboot stage s).env = s.env := rfl
@[simp] theorem startReboot_menuPlan (stage : Stage) (s : State) : (startReboot stage s).menuPlan = s.menuPlan := rfl
@[simp] theorem startReboot_txLog (stage : Stage) (s : State) : (startReboot stage s).txLog = s.txLog := rfl
@[simp] theorem startReboot_handoff (stage : Stage) (s : State) : (startReboot stage s).handoff = s.handoff := rfl
@[simp] theorem startReboot_freeCount (stage : Stage) (s : State) : (startReboot stage s).freeCount = s.freeCount := rfl

/-! ## writeRebootSig1 -/

@[simp] theorem writeRebootSig1_rxHead (stage : Stage) (s : State) : (writeRebootSig1 stage s).rxHead = s.rxHead := rfl
@[simp] theorem writeRebootSig1_rxTail (stage : Stage) (s : State) : (writeRebootSig1 stage s).rxTail = s.rxTail := rfl
@[simp] theorem writeRebootSig1_txHead (stage : Stage) (s : State) : (writeRebootSig1 stage s).txHead = s.txHead := rfl
@[simp] theorem writeRebootSig1_txTail (stage : Stage) (s : State) : (writeRebootSig1 stage s).txTail = s.txTail := rfl
@[simp] theorem writeRebootSig1_rxb (stage : Stage) (s : State) : (writeRebootSig1 stage s).rxb = s.rxb := rfl
@[simp] theorem writeRebootSig1_txb (stage : Stage) (s : State) : (writeRebootSig1 stage s).txb = s.txb := rfl
@[simp] theorem writeRebootSig1_err (stage : Stage) (s : State) : (writeRebootSig1 stage s).err = s.err := rfl
@[simp] theorem writeRebootSig1_line (stage : Stage) (s : State) : (writeRebootSig1 stage s).line = s.line := rfl
@[simp] theorem writeRebootSig1_lineLen (stage : Stage) (s : State) : (writeRebootSig1 stage s).lineLen = s.lineLen := rfl
@[simp] theorem writeRebootSig1_lineDone (stage : Stage) (s : State) : (writeRebootSig1 stage s).lineDone = s.lineDone := rfl
@[simp] theorem writeRebootSig1_page (stage : Stage) (s : State) : (writeRebootSig1 stage s).page = s.page := rfl
@[simp] theorem writeRebootSig1_curPage (stage : Stage) (s : State) : (writeRebootSig1 stage s).curPage = s.curPage := rfl
@[simp] theorem writeRebootSig1_lastEnd (stage : Stage) (s : State) : (writeRebootSig1 stage s).lastEnd = s.lastEnd := rfl
@[simp] theorem writeRebootSig1_count (stage : Stage) (s : State) : (writeRebootSig1 stage s).count = s.count := rfl
@[simp] theorem writeRebootSig1_status (stage : Stage) (s : State) : (writeRebootSig1 stage s).status = s.status := rfl
@[simp] theorem writeRebootSig1_mode (stage : Stage) (s : State) : (writeRebootSig1 stage s).mode = s.mode := rfl
@[simp] theorem writeRebootSig1_seq (stage : Stage) (s : State) : (writeRebootSig1 stage s).seq = s.seq := rfl
@[simp] theorem writeRebootSig1_tStart (stage : Stage) (s : State) : (writeRebootSig1 stage s).tStart = s.tStart := rfl
@[simp] theorem writeRebootSig1_tRunning (stage : Stage) (s : State) : (writeRebootSig1 stage s).tRunning = s.tRunning := rfl
@[simp] theorem writeRebootSig1_sig0 (stage : Stage) (s : State) : (writeRebootSig1 stage s).sig0 = s.sig0 := rfl
@[simp] theorem writeRebootSig1_sig1 (stage : Stage) (s : State) : (writeRebootSig1 stage s).sig1 = (signatureFor s.cfg stage).2 := rfl
@[simp] theorem writeRebootSig1_rcExt (stage : Stage) (s : State) : (writeRebootSig1 stage s).rcExt = s.rcExt := rfl
@[simp] theorem writeRebootSig1_rcWdt (stage : Stage) (s : State) : (writeRebootSig1 stage s).rcWdt = s.rcWdt := rfl
@[simp] theorem writeRebootSig1_wdtEn (stage : Stage) (s : State) : (writeRebootSig1 stage s).wdtEn = s.wdtEn := rfl
@[simp] theorem writeRebootSig1_wdtTimeout (stage : Stage) (s : State) : (writeRebootSig1 stage s).wdtTimeout = s.wdtTimeout := rfl
@[simp] theorem writeRebootSig1_wdtElapsed (stage : Stage) (s : State) : (writeRebootSig1 stage s).wdtElapsed = s.wdtElapsed := rfl
@[simp] theorem writeRebootSig1_rebootArmed (stage : Stage) (s : State) : (writeRebootSig1 stage s).rebootArmed = s.rebootArmed := rfl
@[simp] theorem writeRebootSig1_ie (stage : Stage) (s : State) : (writeRebootSig1 stage s).ie = s.ie := rfl
@[simp] theorem writeRebootSig1_inHandler (stage : Stage) (s : State) : (writeRebootSig1 stage s).inHandler = s.inHandler := rfl
@[simp] theorem writeRebootSig1_ms (stage : Stage) (s : State) : (writeRebootSig1 stage s).ms = s.ms := rfl
@[simp] theorem writeRebootSig1_flash (stage : Stage) (s : State) : (writeRebootSig1 stage s).flash = s.flash := rfl
@[simp] theorem writeRebootSig1_ftemp (stage : Stage) (s : State) : (writeRebootSig1 stage s).ftemp = s.ftemp := rfl
@[simp] theorem writeRebootSig1_flashOp (stage : Stage) (s : State) : (writeRebootSig1 stage s).flashOp = s.flashOp := rfl
@[simp] theorem writeRebootSig1_rwwOk (stage : Stage) (s : State) : (writeRebootSig1 stage s).rwwOk = s.rwwOk := rfl
@[simp] theorem writeRebootSig1_rxPend (stage : Stage) (s : State) : (writeRebootSig1 stage s).rxPend = s.rxPend := rfl
@[simp] theorem writeRebootSig1_rxByte (stage : Stage) (s : State) : (writeRebootSig1 stage s).rxByte = s.rxByte := rfl
@[simp] theorem writeRebootSig1_rxOvr (stage : Stage) (s : State) : (writeRebootSig1 stage s).rxOvr = s.rxOvr := rfl
@[simp] theorem writeRebootSig1_rxFe (stage : Stage) (s : State) : (writeRebootSig1 stage s).rxFe = s.rxFe := rfl
@[simp] theorem writeRebootSig1_txRdy (stage : Stage) (s : State) : (writeRebootSig1 stage s).txRdy = s.txRdy := rfl
@[simp] theorem writeRebootSig1_tickPend (stage : Stage) (s : State) : (writeRebootSig1 stage s).tickPend = s.tickPend := rfl
@[simp] theorem writeRebootSig1_cfg (stage : Stage) (s : State) : (writeRebootSig1 stage s).cfg = s.cfg := rfl
@[simp] theorem writeRebootSig1_flashSession (stage : Stage) (s : State) : (writeRebootSig1 stage s).flashSession = s.flashSession := rfl
@[simp] theorem writeRebootSig1_main (stage : Stage) (s : State) : (writeRebootSig1 stage s).main = s.main := rfl
@[simp] theorem writeRebootSig1_held (stage : Stage) (s : State) : (writeRebootSig1 stage s).held = s.held := rfl
@[simp] theorem writeRebootSig1_result (stage : Stage) (s : State) : (writeRebootSig1 stage s).result = s.result := rfl
@[simp] theorem writeRebootSig1_env (stage : Stage) (s : State) : (writeRebootSig1 stage s).env = s.env := rfl
@[simp] theorem writeRebootSig1_menuPlan (stage : Stage) (s : State) : (writeRebootSig1 stage s).menuPlan = s.menuPlan := rfl
@[simp] theorem writeRebootSig1_txLog (stage : Stage) (s : State) : (writeRebootSig1 stage s).txLog = s.txLog := rfl
@[simp] theorem writeRebootSig1_handoff (stage : Stage) (s : State) : (writeRebootSig1 stage s).handoff = s.handoff := rfl
@[simp] theorem writeRebootSig1_freeCount (stage : Stage) (s : State) : (writeRebootSig1 stage s).freeCount = s.freeCount := rfl

/-! ## armReboot -/

@[simp] theorem armReboot_rxHead (s : State) : (armReboot s).rxHead = s.rxHead := rfl
@[simp] theorem armReboot_rxTail (s : State) : (armReboot s).rxTail = s.rxTail := rfl
@[simp] theorem armReboot_txHead (s : State) : (armReboot s).txHead = s.txHead := rfl
@[simp] theorem armReboot_txTail (s : State) : (armReboot s).txTail = s.txTail := rfl
@[simp] theorem armReboot_rxb (s : State) : (armReboot s).rxb = s.rxb := rfl
@[simp] theorem armReboot_txb (s : State) : (armReboot s).txb = s.txb := rfl
@[simp] theorem armReboot_err (s : State) : (armReboot s).err = s.err := rfl
@[simp] theorem armReboot_line (s : State) : (armReboot s).line = s.line := rfl
@[simp] theorem armReboot_lineLen (s : State) : (armReboot s).lineLen = s.lineLen := rfl
@[simp] theorem armReboot_lineDone (s : State) : (armReboot s).lineDone = s.lineDone := rfl
@[simp] theorem armReboot_page (s : State) : (armReboot s).page = s.page := rfl
@[simp] theorem armReboot_curPage (s : State) : (armReboot s).curPage = s.curPage := rfl
@[simp] theorem armReboot_lastEnd (s : State) : (armReboot s).lastEnd = s.lastEnd := rfl
@[simp] theorem armReboot_count (s : State) : (armReboot s).count = s.count := rfl
@[simp] theorem armReboot_status (s : State) : (armReboot s).status = s.status := rfl
@[simp] theorem armReboot_mode (s : State) : (armReboot s).mode = s.mode := rfl
@[simp] theorem armReboot_seq (s : State) : (armReboot s).seq = s.seq := rfl
@[simp] theorem armReboot_tStart (s : State) : (armReboot s).tStart = s.tStart := rfl
@[simp] theorem armReboot_tRunning (s : State) : (armReboot s).tRunning = s.tRunning := rfl
@[simp] theorem armReboot_sig0 (s : State) : (armReboot s).sig0 = s.sig0 := rfl
@[simp] theorem armReboot_sig1 (s : State) : (armReboot s).sig1 = s.sig1 := rfl
@[simp] theorem armReboot_rcExt (s : State) : (armReboot s).rcExt = s.rcExt := rfl
@[simp] theorem armReboot_rcWdt (s : State) : (armReboot s).rcWdt = s.rcWdt := rfl
@[simp] theorem armReboot_wdtEn (s : State) : (armReboot s).wdtEn = true := rfl
@[simp] theorem armReboot_wdtTimeout (s : State) : (armReboot s).wdtTimeout = .short := rfl
@[simp] theorem armReboot_wdtElapsed (s : State) : (armReboot s).wdtElapsed = 0 := rfl
@[simp] theorem armReboot_rebootArmed (s : State) : (armReboot s).rebootArmed = true := rfl
@[simp] theorem armReboot_ie (s : State) : (armReboot s).ie = s.ie := rfl
@[simp] theorem armReboot_inHandler (s : State) : (armReboot s).inHandler = s.inHandler := rfl
@[simp] theorem armReboot_ms (s : State) : (armReboot s).ms = s.ms := rfl
@[simp] theorem armReboot_flash (s : State) : (armReboot s).flash = s.flash := rfl
@[simp] theorem armReboot_ftemp (s : State) : (armReboot s).ftemp = s.ftemp := rfl
@[simp] theorem armReboot_flashOp (s : State) : (armReboot s).flashOp = s.flashOp := rfl
@[simp] theorem armReboot_rwwOk (s : State) : (armReboot s).rwwOk = s.rwwOk := rfl
@[simp] theorem armReboot_rxPend (s : State) : (armReboot s).rxPend = s.rxPend := rfl
@[simp] theorem armReboot_rxByte (s : State) : (armReboot s).rxByte = s.rxByte := rfl
@[simp] theorem armReboot_rxOvr (s : State) : (armReboot s).rxOvr = s.rxOvr := rfl
@[simp] theorem armReboot_rxFe (s : State) : (armReboot s).rxFe = s.rxFe := rfl
@[simp] theorem armReboot_txRdy (s : State) : (armReboot s).txRdy = s.txRdy := rfl
@[simp] theorem armReboot_tickPend (s : State) : (armReboot s).tickPend = s.tickPend := rfl
@[simp] theorem armReboot_cfg (s : State) : (armReboot s).cfg = s.cfg := rfl
@[simp] theorem armReboot_flashSession (s : State) : (armReboot s).flashSession = s.flashSession := rfl
@[simp] theorem armReboot_main (s : State) : (armReboot s).main = s.main := rfl
@[simp] theorem armReboot_held (s : State) : (armReboot s).held = s.held := rfl
@[simp] theorem armReboot_result (s : State) : (armReboot s).result = s.result := rfl
@[simp] theorem armReboot_env (s : State) : (armReboot s).env = s.env := rfl
@[simp] theorem armReboot_menuPlan (s : State) : (armReboot s).menuPlan = s.menuPlan := rfl
@[simp] theorem armReboot_txLog (s : State) : (armReboot s).txLog = s.txLog := rfl
@[simp] theorem armReboot_handoff (s : State) : (armReboot s).handoff = s.handoff := rfl
@[simp] theorem armReboot_freeCount (s : State) : (armReboot s).freeCount = s.freeCount := rfl

/-! ## enterReboot -/

@[simp] theorem enterReboot_rxHead (stage : Stage) (s : State) : (enterReboot stage s).rxHead = s.rxHead := by cases stage <;> rfl
@[simp] theorem enterReboot_rxTail (stage : Stage) (s : State) : (enterReboot stage s).rxTail = s.rxTail := by cases stage <;> rfl
@[simp] theorem enterReboot_txHead (stage : Stage) (s : State) : (enterReboot stage s).txHead = s.txHead := by cases stage <;> rfl
@[simp] theorem enterReboot_txTail (stage : Stage) (s : State) : (enterReboot stage s).txTail = s.txTail := by cases stage <;> rfl
@[simp] theorem enterReboot_rxb (stage : Stage) (s : State) : (enterReboot stage s).rxb = s.rxb := by cases stage <;> rfl
@[simp] theorem enterReboot_txb (stage : Stage) (s : State) : (enterReboot stage s).txb = s.txb := by cases stage <;> rfl
@[simp] theorem enterReboot_err (stage : Stage) (s : State) : (enterReboot stage s).err = s.err := by cases stage <;> rfl
@[simp] theorem enterReboot_line (stage : Stage) (s : State) : (enterReboot stage s).line = s.line := by cases stage <;> rfl
@[simp] theorem enterReboot_lineLen (stage : Stage) (s : State) : (enterReboot stage s).lineLen = s.lineLen := by cases stage <;> rfl
@[simp] theorem enterReboot_lineDone (stage : Stage) (s : State) : (enterReboot stage s).lineDone = s.lineDone := by cases stage <;> rfl
@[simp] theorem enterReboot_page (stage : Stage) (s : State) : (enterReboot stage s).page = s.page := by cases stage <;> rfl
@[simp] theorem enterReboot_curPage (stage : Stage) (s : State) : (enterReboot stage s).curPage = s.curPage := by cases stage <;> rfl
@[simp] theorem enterReboot_lastEnd (stage : Stage) (s : State) : (enterReboot stage s).lastEnd = s.lastEnd := by cases stage <;> rfl
@[simp] theorem enterReboot_count (stage : Stage) (s : State) : (enterReboot stage s).count = s.count := by cases stage <;> rfl
@[simp] theorem enterReboot_status (stage : Stage) (s : State) : (enterReboot stage s).status = s.status := by cases stage <;> rfl
@[simp] theorem enterReboot_mode (stage : Stage) (s : State) : (enterReboot stage s).mode = s.mode := by cases stage <;> rfl
@[simp] theorem enterReboot_tStart (stage : Stage) (s : State) : (enterReboot stage s).tStart = s.tStart := by cases stage <;> rfl
@[simp] theorem enterReboot_tRunning (stage : Stage) (s : State) : (enterReboot stage s).tRunning = s.tRunning := by cases stage <;> rfl
@[simp] theorem enterReboot_sig0 (stage : Stage) (s : State) : (enterReboot stage s).sig0 = s.sig0 := by cases stage <;> rfl
@[simp] theorem enterReboot_sig1 (stage : Stage) (s : State) : (enterReboot stage s).sig1 = s.sig1 := by cases stage <;> rfl
@[simp] theorem enterReboot_rcExt (stage : Stage) (s : State) : (enterReboot stage s).rcExt = s.rcExt := by cases stage <;> rfl
@[simp] theorem enterReboot_rcWdt (stage : Stage) (s : State) : (enterReboot stage s).rcWdt = s.rcWdt := by cases stage <;> rfl
@[simp] theorem enterReboot_wdtEn (stage : Stage) (s : State) : (enterReboot stage s).wdtEn = true := by cases stage <;> rfl
@[simp] theorem enterReboot_wdtTimeout (stage : Stage) (s : State) : (enterReboot stage s).wdtTimeout = .short := by cases stage <;> rfl
@[simp] theorem enterReboot_wdtElapsed (stage : Stage) (s : State) : (enterReboot stage s).wdtElapsed = 0 := by cases stage <;> rfl
@[simp] theorem enterReboot_rebootArmed (stage : Stage) (s : State) : (enterReboot stage s).rebootArmed = true := by cases stage <;> rfl
@[simp] theorem enterReboot_inHandler (stage : Stage) (s : State) : (enterReboot stage s).inHandler = s.inHandler := by cases stage <;> rfl
@[simp] theorem enterReboot_ms (stage : Stage) (s : State) : (enterReboot stage s).ms = s.ms := by cases stage <;> rfl
@[simp] theorem enterReboot_flash (stage : Stage) (s : State) : (enterReboot stage s).flash = s.flash := by cases stage <;> rfl
@[simp] theorem enterReboot_ftemp (stage : Stage) (s : State) : (enterReboot stage s).ftemp = s.ftemp := by cases stage <;> rfl
@[simp] theorem enterReboot_flashOp (stage : Stage) (s : State) : (enterReboot stage s).flashOp = s.flashOp := by cases stage <;> rfl
@[simp] theorem enterReboot_rwwOk (stage : Stage) (s : State) : (enterReboot stage s).rwwOk = s.rwwOk := by cases stage <;> rfl
@[simp] theorem enterReboot_rxPend (stage : Stage) (s : State) : (enterReboot stage s).rxPend = s.rxPend := by cases stage <;> rfl
@[simp] theorem enterReboot_rxByte (stage : Stage) (s : State) : (enterReboot stage s).rxByte = s.rxByte := by cases stage <;> rfl
@[simp] theorem enterReboot_rxOvr (stage : Stage) (s : State) : (enterReboot stage s).rxOvr = s.rxOvr := by cases stage <;> rfl
@[simp] theorem enterReboot_rxFe (stage : Stage) (s : State) : (enterReboot stage s).rxFe = s.rxFe := by cases stage <;> rfl
@[simp] theorem enterReboot_txRdy (stage : Stage) (s : State) : (enterReboot stage s).txRdy = s.txRdy := by cases stage <;> rfl
@[simp] theorem enterReboot_tickPend (stage : Stage) (s : State) : (enterReboot stage s).tickPend = s.tickPend := by cases stage <;> rfl
@[simp] theorem enterReboot_cfg (stage : Stage) (s : State) : (enterReboot stage s).cfg = s.cfg := by cases stage <;> rfl
@[simp] theorem enterReboot_flashSession (stage : Stage) (s : State) : (enterReboot stage s).flashSession = s.flashSession := by cases stage <;> rfl
@[simp] theorem enterReboot_held (stage : Stage) (s : State) : (enterReboot stage s).held = s.held := by cases stage <;> rfl
@[simp] theorem enterReboot_result (stage : Stage) (s : State) : (enterReboot stage s).result = s.result := by cases stage <;> rfl
@[simp] theorem enterReboot_env (stage : Stage) (s : State) : (enterReboot stage s).env = s.env := by cases stage <;> rfl
@[simp] theorem enterReboot_menuPlan (stage : Stage) (s : State) : (enterReboot stage s).menuPlan = s.menuPlan := by cases stage <;> rfl
@[simp] theorem enterReboot_txLog (stage : Stage) (s : State) : (enterReboot stage s).txLog = s.txLog := by cases stage <;> rfl
@[simp] theorem enterReboot_handoff (stage : Stage) (s : State) : (enterReboot stage s).handoff = s.handoff := by cases stage <;> rfl
@[simp] theorem enterReboot_freeCount (stage : Stage) (s : State) : (enterReboot stage s).freeCount = s.freeCount := by cases stage <;> rfl
@[simp] theorem enterReboot_bootloader_seq (s : State) : (enterReboot .bootloader s).seq = .rebootBl := rfl
@[simp] theorem enterReboot_bootloader_main (s : State) : (enterReboot .bootloader s).main = [.micro .idleLoop] := rfl
@[simp] theorem enterReboot_bootloader_ie (s : State) : (enterReboot .bootloader s).ie = s.ie := rfl
@[simp] theorem enterReboot_application_seq (s : State) : (enterReboot .application s).seq = .rebootApp := rfl
@[simp] theorem enterReboot_application_main (s : State) : (enterReboot .application s).main = [.micro .spin] := rfl
@[simp] theorem enterReboot_application_ie (s : State) : (enterReboot .application s).ie = false := rfl

/-! ## masked -/

@[simp] theorem masked_rxHead (body : State → State) (s : State) : (masked body s).rxHead = (body { s with ie := false }).rxHead := rfl
@[simp] theorem masked_rxTail (body : State → State) (s : State) : (masked body s).rxTail = (body { s with ie := false }).rxTail := rfl
@[simp] theorem masked_txHead (body : State → State) (s : State) : (masked body s).txHead = (body { s with ie := false }).txHead := rfl
@[simp] theorem masked_txTail (body : State → State) (s : State) : (masked body s).txTail = (body { s with ie := false }).txTail := rfl
@[simp] theorem masked_rxb (body : State → State) (s : State) : (masked body s).rxb = (body { s with ie := false }).rxb := rfl
@[simp] theorem masked_txb (body : State → State) (s : State) : (masked body s).txb = (body { s with ie := false }).txb := rfl
@[simp] theorem masked_err (body : State → State) (s : State) : (masked body s).err = (body { s with ie := false }).err := rfl
@[simp] theorem masked_line (body : State → State) (s : State) : (masked body s).line = (body { s with ie := false }).line := rfl
@[simp] theorem masked_lineLen (body : State → State) (s : State) : (masked body s).lineLen = (body { s with ie := false }).lineLen := rfl
@[simp] theorem masked_lineDone (body : State → State) (s : State) : (masked body s).lineDone = (body { s with ie := false }).lineDone := rfl
@[simp] theorem masked_page (body : State → State) (s : State) : (masked body s).page = (body { s with ie := false }).page := rfl
@[simp] theorem masked_curPage (body : State → State) (s : State) : (masked body s).curPage = (body { s with ie := false }).curPage := rfl
@[simp] theorem masked_lastEnd (body : State → State) (s : State) : (masked body s).lastEnd = (body { s with ie := false }).lastEnd := rfl
@[simp] theorem masked_count (body : State → State) (s : State) : (masked body s).count = (body { s with ie := false }).count := rfl
@[simp] theorem masked_status (body : State → State) (s : State) : (masked body s).status = (body { s with ie := false }).status := rfl
@[simp] theorem masked_mode (body : State → State) (s : State) : (masked body s).mode = (body { s with ie := false }).mode := rfl
@[simp] theorem masked_seq (body : State → State) (s : State) : (masked body s).seq = (body { s with ie := false }).seq := rfl
@[simp] theorem masked_tStart (body : State → State) (s : State) : (masked body s).tStart = (body { s with ie := false }).tStart := rfl
@[simp] theorem masked_tRunning (body : State → State) (s : State) : (masked body s).tRunning = (body { s with ie := false }).tRunning := rfl
@[simp] theorem masked_sig0 (body : State → State) (s : State) : (masked body s).sig0 = (body { s with ie := false }).sig0 := rfl
@[simp] theorem masked_sig1 (body : State → State) (s : State) : (masked body s).sig1 = (body { s with ie := false }).sig1 := rfl
@[simp] theorem masked_rcExt (body : State → State) (s : State) : (masked body s).rcExt = (body { s with ie := false }).rcExt := rfl
@[simp] theorem masked_rcWdt (body : State → State) (s : State) : (masked body s).rcWdt = (body { s with ie := false }).rcWdt := rfl
@[simp] theorem masked_wdtEn (body : State → State) (s : State) : (masked body s).wdtEn = (body { s with ie := false }).wdtEn := rfl
@[simp] theorem masked_wdtTimeout (body : State → State) (s : State) : (masked body s).wdtTimeout = (body { s with ie := false }).wdtTimeout := rfl
@[simp] theorem masked_wdtElapsed (body : State → State) (s : State) : (masked body s).wdtElapsed = (body { s with ie := false }).wdtElapsed := rfl
@[simp] theorem masked_rebootArmed (body : State → State) (s : State) : (masked body s).rebootArmed = (body { s with ie := false }).rebootArmed := rfl
@[simp] theorem masked_ie (body : State → State) (s : State) : (masked body s).ie = s.ie := rfl
@[simp] theorem masked_inHandler (body : State → State) (s : State) : (masked body s).inHandler = (body { s with ie := false }).inHandler := rfl
@[simp] theorem masked_ms (body : State → State) (s : State) : (masked body s).ms = (body { s with ie := false }).ms := rfl
@[simp] theorem masked_flash (body : State → State) (s : State) : (masked body s).flash = (body { s with ie := false }).flash := rfl
@[simp] theorem masked_ftemp (body : State → State) (s : State) : (masked body s).ftemp = (body { s with ie := false }).ftemp := rfl
@[simp] theorem masked_flashOp (body : State → State) (s : State) : (masked body s).flashOp = (body { s with ie := false }).flashOp := rfl
@[simp] theorem masked_rwwOk (body : State → State) (s : State) : (masked body s).rwwOk = (body { s with ie := false }).rwwOk := rfl
@[simp] theorem masked_rxPend (body : State → State) (s : State) : (masked body s).rxPend = (body { s with ie := false }).rxPend := rfl
@[simp] theorem masked_rxByte (body : State → State) (s : State) : (masked body s).rxByte = (body { s with ie := false }).rxByte := rfl
@[simp] theorem masked_rxOvr (body : State → State) (s : State) : (masked body s).rxOvr = (body { s with ie := false }).rxOvr := rfl
@[simp] theorem masked_rxFe (body : State → State) (s : State) : (masked body s).rxFe = (body { s with ie := false }).rxFe := rfl
@[simp] theorem masked_txRdy (body : State → State) (s : State) : (masked body s).txRdy = (body { s with ie := false }).txRdy := rfl
@[simp] theorem masked_tickPend (body : State → State) (s : State) : (masked body s).tickPend = (body { s with ie := false }).tickPend := rfl
@[simp] theorem masked_cfg (body : State → State) (s : State) : (masked body s).cfg = (body { s with ie := false }).cfg := rfl
@[simp] theorem masked_flashSession (body : State → State) (s : State) : (masked body s).flashSession = (body { s with ie := false }).flashSession := rfl
@[simp] theorem masked_main (body : State → State) (s : State) : (masked body s).main = (body { s with ie := false }).main := rfl
@[simp] theorem masked_held (body : State → State) (s : State) : (masked body s).held = (body { s with ie := false }).held := rfl
@[simp] theorem masked_result (body : State → State) (s : State) : (masked body s).result = (body { s with ie := false }).result := rfl
@[simp] theorem masked_env (body : State → State) (s : State) : (masked body s).env = (body { s with ie := false }).env := rfl
@[simp] theorem masked_menuPlan (body : State → State) (s : State) : (masked body s).menuPlan = (body { s with ie := false }).menuPlan := rfl
@[simp] theorem masked_txLog (body : State → State) (s : State) : (masked body s).txLog = (body { s with ie := false }).txLog := rfl
@[simp] theorem masked_handoff (body : State → State) (s : State) : (masked body s).handoff = (body { s with ie := false }).handoff := rfl
@[simp] theorem masked_freeCount (body : State → State) (s : State) : (masked body s).freeCount = (body { s with ie := false }).freeCount := rfl

end Sys2Proof.Machine
end

