-- ==== Sys2Proof/Laws/Ops.lean ====
section
/-! SUPPORT. What each shared operation can do, said once: a proof cites these and does not unfold the operation. -/

namespace Sys2Proof.Machine

/-! ## Cursors and byte arrays -/

theorem nextCursor_lt {n : Nat} (c : Nat) (h : 0 < n) : nextCursor c n < n := Nat.mod_lt _ h

theorem nextCursor_ne {c n : Nat} (hc : c < n) (hn : 2 ≤ n) : nextCursor c n ≠ c := by
  unfold nextCursor
  by_cases h : c + 1 = n
  · subst h
    rw [Nat.mod_self]
    omega
  · rw [Nat.mod_eq_of_lt (by omega)]
    omega

@[simp] theorem window_length (l : List Byte) (n : Nat) : (window l n).length = n := by simp [window]

theorem byteOf_window (l : List Byte) {n i : Nat} (h : i < n) : byteOf (window l n) i = byteOf l i := by
  simp [window, byteOf, List.getD, h]

theorem byteOf_set (l : List Byte) (i j : Nat) (b : Byte) :
    byteOf (l.set i b) j = if i = j ∧ j < l.length then b else byteOf l j := by
  unfold byteOf
  rw [List.getD_eq_getElem?_getD, List.getElem?_set, List.getD_eq_getElem?_getD]
  by_cases h : i = j
  · subst h
    by_cases hl : i < l.length
    · simp [hl]
    · simp [hl]
  · simp [h]

@[simp] theorem freeBytes_length (n k : Nat) : (freeBytes n k).length = k := by simp [freeBytes]

@[simp] theorem emit_nil : emit [] = [] := rfl

@[simp] theorem emit_cons (b : Byte) (bs : List Byte) : emit (b :: bs) = .instr (.sendByte b) :: emit bs := rfl

theorem mem_emit {str : List Byte} {t : Task} (h : t ∈ emit str) : ∃ b ∈ str, t = .instr (.sendByte b) := by
  simp only [emit, List.mem_map] at h
  obtain ⟨b, hb, rfl⟩ := h
  exact ⟨b, hb, rfl⟩

/-! ## The rings -/

/-- What `receive_byte` can do: nothing but the result on an empty ring, else the oldest byte and the new tail. -/
theorem takeRx_cases (s : State) :
    (s.rxHead = s.rxTail ∧ takeRx s = setResult .noByte s) ∨
      (s.rxHead ≠ s.rxTail ∧ takeRx s =
        kick { s with result := .byte (byteOf s.rxb s.rxTail), rxTail := nextCursor s.rxTail s.cfg.rxSlots }) := by
  unfold takeRx
  split
  · rename_i h
    exact Or.inl ⟨h, rfl⟩
  · rename_i h
    exact Or.inr ⟨h, rfl⟩

/-! ## Interrupts -/

/-- What a handler can do: run from inside, run from its entry, or not run. -/
theorem runHandler_cases (h : Source) (body : State → State) (s : State) :
    (s.inHandler = some h ∧ runHandler h body s = exitHandler (body s)) ∨
      (s.inHandler = none ∧ s.ie = true ∧ pending h s = true ∧
        runHandler h body s = exitHandler (body (enterHandler h s))) ∨
      (runHandler h body s = s ∧ canServe h s = false) := by
  unfold runHandler
  split
  · rename_i hh
    exact Or.inl ⟨hh, rfl⟩
  · split
    · rename_i hc
      simp only [canServe, Bool.and_eq_true, Option.isNone_iff_eq_none] at hc
      exact Or.inr (Or.inl ⟨hc.2, hc.1.2, hc.1.1, rfl⟩)
    · rename_i hc
      exact Or.inr (Or.inr ⟨rfl, by simpa using hc⟩)

/-- After a handler the machine is out of it, with interrupts enabled and the main flow released. -/
theorem exitHandler_out (s : State) :
    (exitHandler s).inHandler = none ∧ (exitHandler s).ie = true ∧ (exitHandler s).held = false := ⟨rfl, rfl, rfl⟩

/-! ## The flash device -/

theorem memRead_readable (a : Nat) (s : State) (h : s.rwwOk = true) (hb : s.flashOp = none) :
    memRead a s = (Memory.read s.flash a, s) := by
  simp [memRead, flashBusy, h, hb]

theorem memRead_unreadable (a : Nat) (s : State) (h : s.rwwOk = false ∨ s.flashOp ≠ none) :
    memRead a s = (Config.freeByte s.freeCount, { s with freeCount := s.freeCount + 1 }) := by
  unfold memRead flashBusy
  rcases h with h | h
  · simp [h]
  · simp [Option.isSome_iff_ne_none.2 h]

/-- What the completion of an operation can do. -/
theorem completeFlash_cases (s : State) :
    (s.flashOp = none ∧ completeFlash s = s) ∨
      (∃ a, s.flashOp = some (.erase a) ∧ completeFlash s = { s with
        flash := Memory.writeBytes s.flash a (List.replicate s.cfg.pageSize erased)
        flashOp := none
        flashSession := some (a, 0) }) ∨
      (∃ a, s.flashOp = some (.commit a) ∧ completeFlash s = { s with
        flash := Memory.writeBytes s.flash a (window s.ftemp s.cfg.pageSize)
        ftemp := freeBytes s.freeCount s.cfg.pageSize
        freeCount := s.freeCount + s.cfg.pageSize
        flashOp := none
        flashSession := none }) := by
  unfold completeFlash
  split
  · rename_i h
    exact Or.inl ⟨h, rfl⟩
  · rename_i a h
    exact Or.inr (Or.inl ⟨a, h, rfl⟩)
  · rename_i a h
    exact Or.inr (Or.inr ⟨a, h, rfl⟩)

/-! ## Resets -/

/-- What a reset leaves the flash: unchanged, or with one page of free bytes. -/
theorem cutFlash_cases (s : State) :
    (cutPage s = none ∧ cutFlash s = s.flash) ∨
      ∃ a, cutPage s = some a ∧
        cutFlash s = Memory.writeBytes s.flash a (freeBytes s.freeCount s.cfg.pageSize) := by
  unfold cutFlash
  cases h : cutPage s with
  | none => exact Or.inl ⟨rfl, rfl⟩
  | some a => exact Or.inr ⟨a, rfl, rfl⟩

/-- What every reset leaves, whatever its kind. -/
theorem deviceReset_entry (k : ResetKind) (s : State) :
    (deviceReset k s).seq = .decide ∧ (deviceReset k s).main = [.instr .bootMain] ∧ (deviceReset k s).ie = false ∧
      (deviceReset k s).wdtEn = false ∧ (deviceReset k s).inHandler = none ∧ (deviceReset k s).rebootArmed = false ∧
      (deviceReset k s).cfg = s.cfg ∧ (deviceReset k s).flash = cutFlash s ∧ (deviceReset k s).env = s.env :=
  ⟨rfl, rfl, rfl, rfl, rfl, rfl, rfl, rfl, rfl⟩

/-! ## Step 4 of a data record -/

/-- Staging changes the Page Buffer and nothing else, and folds the bytes it stages into the checksum. -/
theorem stageBytes_staged {data : List Byte} {a : Nat} {sum sum' : Byte} {s t : State}
    (h : stageBytes data a sum s = .staged sum' t) :
    sum' = foldData data sum ∧ t = { s with page := t.page } ∧ t.page.length = s.page.length := by
  induction data generalizing a sum s with
  | nil =>
    simp only [stageBytes, StageOut.staged.injEq] at h
    obtain ⟨rfl, rfl⟩ := h
    exact ⟨rfl, rfl, rfl⟩
  | cons d ds ih =>
    unfold stageBytes at h
    split at h
    · cases h
    · split at h
      · obtain ⟨h1, h2, h3⟩ := ih h
        refine ⟨h1, ?_, by simpa using h3⟩
        rw [h2]
      · cases h

/-- Where staging stops for a page write: at a byte in the flash and in another page, with only the Page Buffer changed. -/
theorem stageBytes_crossing {data rest : List Byte} {a a' : Nat} {sum sum' : Byte} {s t : State}
    (h : stageBytes data a sum s = .crossing rest a' sum' t) :
    inFlash s.cfg a' = true ∧ pageOf s.cfg a' ≠ s.curPage ∧ t = { s with page := t.page } ∧
      t.page.length = s.page.length := by
  induction data generalizing a sum s with
  | nil => cases h
  | cons d ds ih =>
    unfold stageBytes at h
    split at h
    · cases h
    · rename_i hf
      split at h
      · obtain ⟨h1, h2, h3, h4⟩ := ih h
        refine ⟨h1, h2, ?_, by simpa using h4⟩
        rw [h3]
      · rename_i hp
        simp only [StageOut.crossing.injEq] at h
        obtain ⟨-, rfl, -, rfl⟩ := h
        exact ⟨by simpa using hf, hp, rfl, rfl⟩

/-- A comparison uses free values only while the flash is unreadable, and changes nothing else. -/
theorem compareBytes_equal {data : List Byte} {a i : Nat} {sum sum' : Byte} {s t : State}
    (h : compareBytes data a i sum s = .equal sum' t) :
    sum' = foldData data sum ∧ t = { s with freeCount := t.freeCount } := by
  induction data generalizing a i sum s with
  | nil =>
    simp only [compareBytes, CompareOut.equal.injEq] at h
    obtain ⟨rfl, rfl⟩ := h
    exact ⟨rfl, rfl⟩
  | cons d ds ih =>
    unfold compareBytes at h
    split at h
    · cases h
    · split at h
      · obtain ⟨h1, h2⟩ := ih h
        refine ⟨h1, ?_⟩
        rw [h2]
        unfold memRead
        split <;> rfl
      · cases h

/-! ## Steps -/

theorem step_of_env {s : State} {m : Move} {later : List Move} (h : s.env = m :: later) :
    step s = moveStep m { s with env := later } := by
  unfold step
  rw [h]

theorem step_of_default {s : State} {m : Move} (h : s.env = []) (hd : defaultMove s = some m) :
    step s = moveStep m s := by
  unfold step
  rw [h]
  simp only [hd]

theorem step_of_wait {s : State} (h : s.env = []) (hd : defaultMove s = none) : step s = .next s := by
  unfold step
  rw [h]
  simp only [hd]

theorem cpuStep_main {s : State} {t : Task} {k : List Task} (hh : s.inHandler = none) (hl : s.held = false)
    (hm : s.main = t :: k) : cpuStep s = runTask t { s with main := k } := by
  simp [cpuStep, mainStep, hh, hl, hm]

theorem cpuStep_handler {s : State} {h : Source} (hh : s.inHandler = some h) : cpuStep s = exec (handlerInstr h) s := by
  simp [cpuStep, hh]

end Sys2Proof.Machine
end

