-- ==== Sys2Proof/Laws/Flow.lean ====
section
/-! SUPPORT. What one task inside a pass, and one task of a report, can do to the main flow: the bricks of the invariant `FlowOnCourse`. -/

namespace Sys2Proof.Machine

/-! ## What is put before the main flow -/

@[simp] theorem emit_all_bodyTask (str : List Byte) : (emit str).all bodyTask = true := by simp [emit, bodyTask]

@[simp] theorem emit_all_reportTask (str : List Byte) : (emit str).all reportTask = true := by simp [emit, reportTask]

/-- What a task inside a pass can do: it leaves `seq`, and puts tasks of the pass before the main flow or, on a latched error flag, replaces the main
flow by the report and the forced reboot. -/
def BodyOutcome (s t : State) : Prop :=
  t.seq = s.seq ∧ ((∃ body, body.all bodyTask = true ∧ t.main = body ++ s.main) ∨
    (∃ str, t.main = emit str ++ [.instr .forceRebootToBootloader] ∧ anyError t.err = true))

theorem BodyOutcome.same {s t : State} (hs : t.seq = s.seq) (hm : t.main = s.main) : BodyOutcome s t :=
  ⟨hs, .inl ⟨[], rfl, hm⟩⟩

theorem BodyOutcome.before {s t : State} (body : List Task) (hb : body.all bodyTask = true) (hs : t.seq = s.seq)
    (hm : t.main = body ++ s.main) : BodyOutcome s t :=
  ⟨hs, .inl ⟨body, hb, hm⟩⟩

/-! ## The shared operations -/

theorem takeRx_flow (s : State) : (takeRx s).seq = s.seq ∧ (takeRx s).main = s.main := by
  rcases takeRx_cases s with ⟨-, h⟩ | ⟨-, h⟩ <;> rw [h] <;> exact ⟨rfl, rfl⟩

theorem memRead_flow (a : Nat) (s : State) : (memRead a s).2.seq = s.seq ∧ (memRead a s).2.main = s.main := by
  unfold memRead
  split <;> exact ⟨rfl, rfl⟩

theorem compareBytes_mismatch_flow {data : List Byte} {a i j : Nat} {sum : Byte} {s t : State}
    (h : compareBytes data a i sum s = .mismatch j t) : t.seq = s.seq ∧ t.main = s.main := by
  induction data generalizing a i sum s with
  | nil => cases h
  | cons d ds ih =>
    have hr := memRead_flow a s
    unfold compareBytes at h
    split at h
    · cases h
    · split at h
      · exact ⟨(ih h).1.trans hr.1, (ih h).2.trans hr.2⟩
      · cases h
        exact hr

section
variable {s t u : State}

theorem raiseFault_outcome (cause : Cause) (lo hi : Nat) (hs : t.seq = s.seq) (hm : t.main = s.main) :
    BodyOutcome s (raiseFault cause lo hi t) :=
  .before (emit (diagText t cause lo hi)) (emit_all_bodyTask _) hs (by rw [← hm]; rfl)

theorem finishData_outcome (m : Mode) (r : Rec) (sum : Byte) (hs : t.seq = s.seq) (hm : t.main = s.main) :
    BodyOutcome s (finishData m r sum t) := by
  unfold finishData
  split
  · refine .before (emit (progressText t.cfg m (t.count + r.data.length)) ++ [.micro .dataDone]) ?_ hs (by rw [← hm]; rfl)
    rw [List.all_append, emit_all_bodyTask]
    rfl
  · exact raiseFault_outcome _ _ _ hs hm

theorem stageFrom_outcome {r : Rec} {data : List Byte} {a : Nat} {sum : Byte} (hs : t.seq = s.seq) (hm : t.main = s.main)
    (h : stageFrom r data a sum t = .next u) : BodyOutcome s u := by
  unfold stageFrom at h
  split at h
  · cases h
  · rename_i rest a' sum' v hc
    obtain ⟨-, -, hv, -⟩ := stageBytes_crossing hc
    cases h
    rw [hv]
    exact .before [.instr .writeCurrentPage, .instr .resetPage, .micro (.stageResume r rest a' sum')] rfl hs (by rw [← hm]; rfl)
  · rename_i hc
    obtain ⟨-, hv, -⟩ := stageBytes_staged hc
    cases h
    rw [hv]
    exact finishData_outcome _ _ _ hs hm

theorem terminator_outcome (s : State) : BodyOutcome s (terminator s) := by
  unfold terminator
  split
  · exact .same rfl rfl
  · split
    · exact .same rfl rfl
    · exact .before (emit strCrlf ++ [.micro .lineEnd]) rfl rfl rfl

end

/-! ## The rows a unit decodes to -/

theorem decode_byte_rows {b : Byte} {i : Instr} (h : decode (.byte b) = .ok i) :
    i = .byteEsc ∨ i = .byteCr ∨ i = .byteLf ∨ ∃ c, i = .byteOther c := by
  cases h
  unfold decodeByte
  split <;> (try split) <;> (try split) <;> simp

theorem decode_line_rows {cs : List Byte} {i : Instr} (h : decode (.line cs) = .ok i) :
    i = .lineRecord ∨ i = .lineEmpty ∨ ∃ c, i = .lineCommand c := by
  cases h
  unfold decodeLine
  split <;> (try split) <;> simp

theorem decode_hexrec_rows {m : Mode} {cs : List Byte} {i : Instr} (h : decode (.hexrec m cs) = .ok i) :
    ∃ r, i = .recDataFlash r ∨ i = .recDataVerify r ∨ i = .recEofFlash r ∨ i = .recEofVerify r ∨ ∃ tt, i = .recOther tt r := by
  simp only [decode, decodeRecord] at h
  split at h
  · cases h
    rename_i r _
    refine ⟨r, ?_⟩
    unfold recordRow
    split <;> simp
  · cases h

/-! ## The instructions inside a pass -/

/-- The rows of format BYTE. -/
theorem exec_byte_outcome {b : Byte} {i : Instr} {s t : State} (hd : decode (.byte b) = .ok i) (h : exec i s = .next t) :
    BodyOutcome s t := by
  rcases decode_byte_rows hd with rfl | rfl | rfl | ⟨c, rfl⟩
  · cases h
    exact .same rfl rfl
  · cases h
    exact terminator_outcome s
  · cases h
    exact terminator_outcome s
  · simp only [exec, execByteOther] at h
    split at h <;> cases h <;> exact .same rfl rfl

/-- The rows of format LINE. -/
theorem exec_line_outcome {cs : List Byte} {i : Instr} {s t : State} (hd : decode (.line cs) = .ok i)
    (h : exec i s = .next t) : BodyOutcome s t := by
  rcases decode_line_rows hd with rfl | rfl | ⟨c, rfl⟩
  · cases h
    refine .before [.instr (.processRecord s.mode)] rfl ?_ ?_ <;> (simp only [push_seq, push_main]; split <;> rfl)
  · cases h
    exact .before (emit s.cfg.strPrompt) (emit_all_bodyTask _) rfl rfl
  · cases h
    exact .before [.instr .menu] rfl rfl rfl

/-- The rows of format HEXREC. -/
theorem exec_record_outcome {m : Mode} {cs : List Byte} {i : Instr} {s t : State} (hd : decode (.hexrec m cs) = .ok i)
    (h : exec i s = .next t) : BodyOutcome s t := by
  obtain ⟨r, rfl | rfl | rfl | rfl | ⟨tt, rfl⟩⟩ := decode_hexrec_rows hd
  · simp only [exec, execRecDataFlash] at h
    split at h
    · cases h
      exact raiseFault_outcome _ _ _ rfl rfl
    · exact stageFrom_outcome rfl rfl h
  · simp only [exec, execRecDataVerify] at h
    split at h
    · cases h
      exact raiseFault_outcome _ _ _ rfl rfl
    · split at h
      · cases h
      · rename_i hc
        cases h
        exact raiseFault_outcome _ _ _ (compareBytes_mismatch_flow hc).1 (compareBytes_mismatch_flow hc).2
      · rename_i hc
        have hv := (compareBytes_equal hc).2
        cases h
        exact finishData_outcome _ _ _ (by rw [hv]) (by rw [hv])
  · simp only [exec, execRecEofFlash] at h
    split at h <;> cases h
    · exact .before [.instr .writeCurrentPage, .instr .resetPage, .instr .rwwReenable, .micro .eofDone] rfl rfl rfl
    · exact raiseFault_outcome _ _ _ rfl rfl
  · simp only [exec, execRecEofVerify] at h
    split at h <;> cases h
    · exact .same rfl rfl
    · exact raiseFault_outcome _ _ _ rfl rfl
  · simp only [exec, execRecOther] at h
    split at h <;> cases h
    · exact .same rfl rfl
    · exact raiseFault_outcome _ _ _ rfl rfl

/-- The operations a pass calls. -/
theorem exec_body_outcome {i : Instr} {s t : State} (hi : bodyTask (.instr i) = true) (h : exec i s = .next t) :
    BodyOutcome s t := by
  cases i <;> try (cases hi; done)
  all_goals simp only [exec] at h
  case sendByte b =>
    unfold execSendByte at h
    split at h <;> cases h
    · exact .before [.instr (.sendByte b)] rfl rfl rfl
    · exact .same rfl rfl
  case receiveByte =>
    cases h
    exact .same (takeRx_flow _).1 (takeRx_flow _).2
  case flush =>
    unfold execFlush at h
    split at h <;> cases h
    · exact .same rfl rfl
    · exact .before [.instr .flush] rfl rfl rfl
  case msNow =>
    cases h
    exact .same rfl rfl
  case pollLine =>
    unfold execPollLine at h
    simp only at h
    split at h
    · rename_i he
      cases h
      exact ⟨by unfold startLine; split <;> rfl, .inr ⟨_, rfl, he⟩⟩
    · cases h
      refine .before [.instr .receiveByte, .micro .pollGot] rfl ?_ ?_ <;> (unfold startLine; split <;> rfl)
  case resetPage =>
    cases h
    exact .same rfl rfl
  case writeCurrentPage =>
    cases h
    exact .before (pageWriteSteps s) (by simp [pageWriteSteps, bodyTask]) rfl rfl
  case rwwReenable =>
    cases h
    exact .before [.instr (.hwstep .rwwEnable)] rfl rfl rfl
  case hwstep c =>
    cases h
    exact .before [.instr (callInstr c), .instr .flashWait, .micro (.unmask s.ie)] (by cases c <;> rfl) rfl rfl
  case flashReadByte a =>
    unfold execFlashReadByte at h
    split at h <;> cases h
    exact .same (memRead_flow _ _).1 (memRead_flow _ _).2
  case flashErasePage a =>
    unfold execFlashErasePage at h
    split at h <;> (try split at h) <;> cases h
    exact .same rfl rfl
  case flashFillWord a w =>
    unfold execFlashFillWord at h
    split at h <;> (try split at h) <;> cases h
    exact .same rfl rfl
  case flashCommitPage a =>
    unfold execFlashCommitPage at h
    split at h <;> (try split at h) <;> (try split at h) <;> cases h
    exact .same rfl rfl
  case flashWait =>
    unfold execFlashWait at h
    split at h <;> cases h
    · exact .before [.instr .flashWait] rfl rfl rfl
    · exact .same rfl rfl
  case flashRwwEnable =>
    unfold execFlashRwwEnable at h
    split at h <;> cases h
    exact .same rfl rfl
  case processRecord m =>
    unfold execProcessRecord at h
    split at h <;> cases h
    exact .before [.fetch (.hexrec m (lineText s))] rfl rfl rfl
  case menu =>
    unfold execMenu at h
    split at h <;> cases h
    · exact .same rfl rfl
    · refine .before _ ?_ rfl rfl
      simp only [List.all_map, List.all_eq_true]
      intro act _
      cases act <;> rfl

/-! ## The tasks -/

/-- What a task inside a pass can do. -/
theorem runTask_body_outcome {task : Task} {s t : State} (hb : bodyTask task = true) (h : runTask task s = .next t) :
    BodyOutcome s t := by
  cases task with
  | instr i => exact exec_body_outcome hb h
  | fetch w =>
    simp only [runTask] at h
    split at h
    · rename_i hd
      cases w <;> try (cases hb; done)
      · exact exec_byte_outcome hd h
      · exact exec_line_outcome hd h
      · exact exec_record_outcome hd h
    · cases h
  | micro m =>
    cases m <;> try (cases hb; done)
    all_goals simp only [runTask, runMicro] at h
    case pollGot =>
      cases h
      unfold pollGot
      split
      · exact .before [_] rfl rfl rfl
      · exact .same rfl rfl
    case stageResume r rest a sum =>
      unfold stageResume at h
      split at h
      · exact stageFrom_outcome (t := { s with curPage := pageOf s.cfg a }) rfl rfl h
      · cases h
    all_goals
      cases h
      exact .same rfl rfl

/-- What a task of a report can do: it puts tasks of the report before the main flow, and leaves `seq`, the pass status, the error flags and the
parameters. -/
theorem runTask_report_outcome {task : Task} {s t : State} (hr : reportTask task = true) (h : runTask task s = .next t) :
    t.seq = s.seq ∧ t.status = s.status ∧ t.err = s.err ∧ t.cfg = s.cfg ∧
      ∃ report, report.all reportTask = true ∧ t.main = report ++ s.main := by
  cases task with
  | instr i =>
    cases i <;> try (cases hr; done)
    · simp only [runTask, exec, execSendByte] at h
      split at h <;> cases h
      · exact ⟨rfl, rfl, rfl, rfl, [_], rfl, rfl⟩
      · exact ⟨rfl, rfl, rfl, rfl, [], rfl, rfl⟩
    · cases h
      exact ⟨rfl, rfl, rfl, rfl, [], rfl, rfl⟩
  | fetch w => cases hr
  | micro m =>
    cases m <;> try (cases hr; done)
    cases h
    unfold reportElapsed
    split
    · exact ⟨rfl, rfl, rfl, rfl, _, emit_all_reportTask _, rfl⟩
    · exact ⟨rfl, rfl, rfl, rfl, [], rfl, rfl⟩

/-- A reset puts the main flow on course. -/
theorem flowOnCourse_of_entry {s : State} (h : atResetEntry s) : FlowOnCourse s := by
  unfold FlowOnCourse
  rw [h.1]
  exact .inl h.2.1

end Sys2Proof.Machine
end

