-- ==== Sys2Proof/Laws/Good.lean ====
section
/-! SUPPORT. Each shared operation keeps a good state good: the bricks of the invariant, one lemma an operation. -/

namespace Sys2Proof.Machine

variable {s : State}

/-! ## What legal parameters give -/

theorem Good.slots (hg : Good s) : 2 ≤ s.cfg.rxSlots ∧ 2 ≤ s.cfg.txSlots := by
  have h := hg.legal
  simp only [Params.legal, Bool.and_eq_true, decide_eq_true_eq] at h
  omega

theorem Good.pages (hg : Good s) : 2 ≤ s.cfg.pageSize ∧ s.cfg.pageSize % 2 = 0 ∧ s.cfg.flashSize % s.cfg.pageSize = 0 ∧
    s.cfg.pageSize ≤ s.cfg.flashSize := by
  have h := hg.legal
  simp only [Params.legal, Bool.and_eq_true, decide_eq_true_eq] at h
  omega

theorem Good.timeout_pos (hg : Good s) (x : Timeout) : 0 < timeoutOf s.cfg x := by
  have h := hg.legal
  simp only [Params.legal, Bool.and_eq_true, decide_eq_true_eq] at h
  cases x <;> simp only [timeoutOf] <;> omega

/-- A page address is the start of a page that ends inside the flash. -/
theorem Good.page_end (hg : Good s) {a : Nat} (ha : pageAddress s.cfg a) : a + s.cfg.pageSize ≤ s.cfg.flashSize := by
  obtain ⟨h1, h2⟩ := ha
  obtain ⟨q, hq⟩ := Nat.dvd_of_mod_eq_zero h1
  obtain ⟨w, hw⟩ := Nat.dvd_of_mod_eq_zero hg.pages.2.2.1
  rw [hq, hw] at h2 ⊢
  have h : q < w := Nat.lt_of_mul_lt_mul_left h2
  calc s.cfg.pageSize * q + s.cfg.pageSize = s.cfg.pageSize * (q + 1) := (Nat.mul_succ _ _).symm
    _ ≤ s.cfg.pageSize * w := Nat.mul_le_mul_left _ h

/-! ## The operations -/

theorem Good.push (ts : List Task) (hg : Good s) : Good (push ts s) := { hg with }

theorem Good.setResult (r : Result) (hg : Good s) : Good (setResult r s) := { hg with }

theorem Good.raiseFault (c : Cause) (lo hi : Nat) (hg : Good s) : Good (raiseFault c lo hi s) := { hg with }

theorem Good.kick (hg : Good s) : Good (kick s) := { hg with watchdog := fun _ => hg.timeout_pos _ }

theorem Good.armWdt (x : Timeout) (hg : Good s) : Good (armWdt x s) := { hg with watchdog := fun _ => hg.timeout_pos _ }

theorem Good.storeTx (b : Byte) (hg : Good s) : Good (storeTx b s) :=
  { hg.kick with
    txHead_lt := nextCursor_lt _ (Nat.lt_of_lt_of_le Nat.zero_lt_two hg.slots.2)
    txb_length := (List.length_set ..).trans hg.txb_length }

theorem Good.storeRx (b : Byte) (hg : Good s) : Good (storeRx b s) :=
  { hg.kick with
    rxHead_lt := nextCursor_lt _ (Nat.lt_of_lt_of_le Nat.zero_lt_two hg.slots.1)
    rxb_length := (List.length_set ..).trans hg.rxb_length }

theorem Good.takeRx (hg : Good s) : Good (takeRx s) := by
  rcases takeRx_cases s with ⟨_, h⟩ | ⟨_, h⟩ <;> rw [h]
  · exact hg.setResult _
  · exact { hg.kick with rxTail_lt := nextCursor_lt _ (Nat.lt_of_lt_of_le Nat.zero_lt_two hg.slots.1) }

/-- Outside a handler the interrupt mask may have either value. -/
theorem Good.mask (b : Bool) (hi : s.inHandler = none) (hg : Good s) : Good { s with ie := b } :=
  { hg with handler_masked := fun h => absurd hi h }

theorem Good.masked {f : State → State} (hi : s.inHandler = none) (hf : ∀ u, Good u → Good (f u))
    (hh : ∀ u, (f u).inHandler = u.inHandler) (hg : Good s) : Good (masked f s) :=
  (hf _ (hg.mask false hi)).mask _ ((hh _).trans hi)

theorem Good.enterHandler (h : Source) (hg : Good s) : Good (enterHandler h s) := { hg with handler_masked := fun _ => rfl }

theorem Good.exitHandler (hg : Good s) : Good (exitHandler s) := { hg with handler_masked := fun h => absurd rfl h }

theorem Good.runHandler (h : Source) {f : State → State} (hf : ∀ u, Good u → Good (f u)) (hg : Good s) :
    Good (runHandler h f s) := by
  rcases runHandler_cases h f s with ⟨_, e⟩ | ⟨_, _, _, e⟩ | ⟨e, _⟩ <;> rw [e]
  · exact (hf _ hg).exitHandler
  · exact (hf _ (hg.enterHandler h)).exitHandler
  · exact hg

theorem Good.memRead (a : Nat) (hg : Good s) : Good (memRead a s).2 := by
  unfold Machine.memRead
  split
  · exact hg
  · exact { hg with }

/-- A page of bytes written at a page address keeps the flash canonical and inside its range. -/
theorem Good.writePage {l : List Byte} {a : Nat} (hg : Good s) (ha : pageAddress s.cfg a) (hl : l.length = s.cfg.pageSize) :
    Memory.wf (Memory.writeBytes s.flash a l) ∧ ∀ c ∈ Memory.writeBytes s.flash a l, c.1 < s.cfg.flashSize := by
  refine ⟨Memory.wf_writeBytes _ _ hg.flash_wf, fun c hc => ?_⟩
  have he := hg.page_end ha
  rcases Memory.mem_writeBytes _ hc with h | h
  · omega
  · exact hg.flash_range _ h

theorem Good.completeFlash (hg : Good s) : Good (completeFlash s) := by
  rcases completeFlash_cases s with ⟨_, h⟩ | ⟨a, e, h⟩ | ⟨a, e, h⟩ <;> rw [h]
  · exact hg
  · have hw := hg.writePage (l := List.replicate s.cfg.pageSize erased) (hg.erase_at a e) List.length_replicate
    refine { hg with flash_wf := hw.1, flash_range := hw.2, erase_at := ?_, commit_at := ?_, session_at := ?_ }
    · exact fun _ h => nomatch h
    · exact fun _ h => nomatch h
    · intro b k hk
      simp only [Option.some.injEq, Prod.mk.injEq] at hk
      obtain ⟨rfl, rfl⟩ := hk
      exact ⟨hg.erase_at _ e, Nat.zero_le _⟩
  · have hw := hg.writePage (l := window s.ftemp s.cfg.pageSize) (hg.commit_at a e) (window_length _ _)
    refine { hg with
      flash_wf := hw.1, flash_range := hw.2, ftemp_length := freeBytes_length _ _, erase_at := ?_, commit_at := ?_,
      session_at := ?_ }
    · exact fun _ h => nomatch h
    · exact fun _ h => nomatch h
    · exact fun _ _ h => nomatch h

/-- The page a reset cuts is a page of the flash. -/
theorem Good.cutPage_at (hg : Good s) {a : Nat} (h : cutPage s = some a) : pageAddress s.cfg a := by
  unfold cutPage at h
  split at h
  · cases h
    exact hg.erase_at _ ‹_›
  · cases h
    exact hg.commit_at _ ‹_›
  · simp only [Option.map_eq_some_iff, Prod.exists, exists_and_right, exists_eq_right] at h
    obtain ⟨k, hk⟩ := h
    exact (hg.session_at _ _ hk).1

end Sys2Proof.Machine
end

