-- ==== Sys2Proof/Laws/PageWrite.lean ====
section
/-! SUPPORT. Runs of steps with no move of the environment: how they compose, and the run of each hardware step of a page write. -/

namespace Sys2Proof.Machine

/-! ## Runs -/

theorem steps_zero (s : State) : steps 0 s = .next s := rfl

theorem steps_cons {n : Nat} {s t : State} (h : step s = .next t) : steps (n + 1) s = steps n t := by
  rw [steps, h]

/-- A run after a run. -/
theorem steps_add {m n : Nat} {s t : State} (h : steps m s = .next t) : steps (m + n) s = steps n t := by
  induction m generalizing s with
  | zero =>
    cases h
    rw [Nat.zero_add]
  | succ m ih =>
    rw [Nat.succ_add]
    rw [steps] at h ⊢
    split at h
    · exact ih h
    · cases h
    · cases h

/-- The main flow is free to run by itself: no move is named, no handler runs, and it is not held. -/
structure Alone (s : State) : Prop where
  env : s.env = []
  handler : s.inHandler = none
  held : s.held = false

/-- The main flow's next task runs, but where it waits for the device. -/
theorem step_task {s : State} {t : Task} {k : List Task} (ha : Alone s) (hm : s.main = t :: k)
    (hw : t ≠ .instr .flashWait ∨ s.flashOp = none) : step s = runTask t { s with main := k } := by
  have hready : mainReady s = true := by
    unfold mainReady
    rw [hm]
    split
    · contradiction
    · rename_i h
      cases h
      have hop : s.flashOp = none := hw.resolve_left fun h => h rfl
      simp [ha.held, flashBusy, hop]
    · simp [ha.held]
  have hd : defaultMove s = some .cpu := by simp [defaultMove, hready]
  rw [step_of_default ha.env hd]
  exact cpuStep_main ha.handler ha.held hm

/-- While the main flow waits for the device, the device completes its operation. -/
theorem step_wait {s : State} {k : List Task} {op : FlashOp} (ha : Alone s) (hm : s.main = .instr .flashWait :: k)
    (ho : s.flashOp = some op) : step s = .next (completeFlash s) := by
  have hready : mainReady s = false := by simp [mainReady, hm, flashBusy, ho]
  have hd : defaultMove s = some .flashDone := by simp [defaultMove, hready, ha.handler, flashBusy, ho]
  rw [step_of_default ha.env hd]
  rfl

/-! ## The hardware steps (spec/44_page_flash.md R199) -/

/-- The end of a hardware step: the wait returns, and the mask is restored. -/
theorem steps_wait_unmask {s : State} {k : List Task} {b : Bool} (ha : Alone s)
    (hm : s.main = .instr .flashWait :: .micro (.unmask b) :: k) (ho : s.flashOp = none) :
    steps 2 s = .next { s with main := k, ie := b } := by
  have h1 : step s = .next { s with main := .micro (.unmask b) :: k } := by
    rw [step_task ha hm (.inr ho)]
    simp [runTask, exec, execFlashWait, flashBusy, ho]
  have h2 : step { s with main := .micro (.unmask b) :: k } = .next { s with main := k, ie := b } :=
    step_task (t := .micro (.unmask b)) (k := k) (by exact ⟨ha.env, ha.handler, ha.held⟩) rfl (.inl (by simp))
  exact (steps_cons h1).trans (steps_cons h2)

/-- A hardware step up to its call. -/
theorem steps_hwstep {s t : State} {k : List Task} {c : FlashCall} (ha : Alone s) (hm : s.main = .instr (.hwstep c) :: k)
    (hc : callInstr c ≠ .flashWait)
    (h : exec (callInstr c) { s with ie := false, main := .instr .flashWait :: .micro (.unmask s.ie) :: k } = .next t) :
    steps 2 s = .next t := by
  have h1 : step s = .next { s with
      ie := false, main := .instr (callInstr c) :: .instr .flashWait :: .micro (.unmask s.ie) :: k } := by
    rw [step_task ha hm (.inl (by simp))]
    rfl
  have h2 : step { s with ie := false, main := .instr (callInstr c) :: .instr .flashWait :: .micro (.unmask s.ie) :: k } = .next t :=
    (step_task (t := .instr (callInstr c)) (k := .instr .flashWait :: .micro (.unmask s.ie) :: k)
      (by exact ⟨ha.env, ha.handler, ha.held⟩) rfl (.inl (by simpa using hc))).trans h
  exact (steps_cons h1).trans (steps_cons h2)

/-- The erase of a page (R194). -/
theorem steps_hwstep_erase {s : State} {k : List Task} {a : Nat} (ha : Alone s) (hm : s.main = .instr (.hwstep (.erasePage a)) :: k)
    (ho : s.flashOp = none) (hp : pageAddress s.cfg a) :
    steps 5 s = .next { s with
      main := k, flash := Memory.writeBytes s.flash a (List.replicate s.cfg.pageSize erased), flashSession := some (a, 0),
      rwwOk := false } := by
  have h1 : steps 2 s = .next { s with
      ie := false, main := .instr .flashWait :: .micro (.unmask s.ie) :: k, flashOp := some (.erase a), flashSession := none,
      rwwOk := false } :=
    steps_hwstep ha hm (by simp [callInstr]) (by simp [callInstr, exec, execFlashErasePage, flashBusy, ho, pageAligned, inFlash, hp.1, hp.2])
  refine (steps_add (n := 3) h1).trans ((steps_cons (step_wait (by exact ⟨ha.env, ha.handler, ha.held⟩) rfl rfl)).trans ?_)
  refine (steps_wait_unmask (by exact ⟨ha.env, ha.handler, ha.held⟩) rfl rfl).trans ?_
  simp only [completeFlash, ← ho]

@[simp] theorem lowByte_pairWord (page : List Byte) (j : Nat) : lowByte (pairWord page j) = byteOf page (2 * j) := by
  rw [lowByte, pairWord, BitVec.extractLsb'_append_eq_right]

@[simp] theorem highByte_pairWord (page : List Byte) (j : Nat) : highByte (pairWord page j) = byteOf page (2 * j + 1) := by
  rw [highByte, pairWord, BitVec.extractLsb'_append_eq_left]

/-- The fill of one word (R195). -/
theorem steps_hwstep_fill {s : State} {k : List Task} {base j : Nat} {w : Word} (ha : Alone s)
    (hm : s.main = .instr (.hwstep (.fillWord (base + 2 * j) w)) :: k) (ho : s.flashOp = none)
    (hs : s.flashSession = some (base, j)) (hj : 2 * j < s.cfg.pageSize) :
    steps 4 s = .next { s with
      main := k
      ftemp := (s.ftemp.set (offsetOf s.cfg (base + 2 * j)) (lowByte w)).set (offsetOf s.cfg (base + 2 * j) + 1) (highByte w)
      flashSession := some (base, j + 1) } := by
  have h1 : steps 2 s = .next { s with
      ie := false, main := .instr .flashWait :: .micro (.unmask s.ie) :: k
      ftemp := (s.ftemp.set (offsetOf s.cfg (base + 2 * j)) (lowByte w)).set (offsetOf s.cfg (base + 2 * j) + 1) (highByte w)
      flashSession := some (base, j + 1) } :=
    steps_hwstep ha hm (by simp [callInstr]) (by simp [callInstr, exec, execFlashFillWord, flashBusy, ho, fillPair, hs, hj])
  exact (steps_add (n := 2) h1).trans (steps_wait_unmask (by exact ⟨ha.env, ha.handler, ha.held⟩) rfl ho)

/-- The commit of a page (R196). -/
theorem steps_hwstep_commit {s : State} {k : List Task} {a : Nat} (ha : Alone s)
    (hm : s.main = .instr (.hwstep (.commitPage a)) :: k) (ho : s.flashOp = none) (hp : pageAddress s.cfg a)
    (hs : s.flashSession = some (a, s.cfg.pageSize / 2)) :
    steps 5 s = .next { s with
      main := k, flash := Memory.writeBytes s.flash a (window s.ftemp s.cfg.pageSize)
      ftemp := freeBytes s.freeCount s.cfg.pageSize, freeCount := s.freeCount + s.cfg.pageSize, flashSession := none,
      rwwOk := false } := by
  have h1 : steps 2 s = .next { s with
      ie := false, main := .instr .flashWait :: .micro (.unmask s.ie) :: k, flashOp := some (.commit a), rwwOk := false } :=
    steps_hwstep ha hm (by simp [callInstr])
      (by simp [callInstr, exec, execFlashCommitPage, flashBusy, ho, pageAligned, inFlash, hp.1, hp.2, hs])
  refine (steps_add (n := 3) h1).trans ((steps_cons (step_wait (by exact ⟨ha.env, ha.handler, ha.held⟩) rfl rfl)).trans ?_)
  refine (steps_wait_unmask (by exact ⟨ha.env, ha.handler, ha.held⟩) rfl rfl).trans ?_
  simp only [completeFlash, ← ho]

/-- The fills of a page write from pair `j` on, `n` of them (R192): FTEMP takes the bytes of the Page Buffer, each at its index. -/
theorem steps_fills {k : List Task} {base : Nat} {page : List Byte} (n j : Nat) {s : State} (ha : Alone s)
    (hm : s.main = (List.range' j n).map (fun i => .instr (.hwstep (.fillWord (base + 2 * i) (pairWord page i)))) ++ k)
    (ho : s.flashOp = none) (hs : s.flashSession = some (base, j)) (hb : base % s.cfg.pageSize = 0)
    (hj : 2 * (j + n) ≤ s.cfg.pageSize) (hl : s.ftemp.length = s.cfg.pageSize) :
    ∃ ftemp', steps (4 * n) s = .next { s with main := k, ftemp := ftemp', flashSession := some (base, j + n) } ∧
      ftemp'.length = s.cfg.pageSize ∧
      ∀ x, byteOf ftemp' x = if 2 * j ≤ x ∧ x < 2 * (j + n) then byteOf page x else byteOf s.ftemp x := by
  induction n generalizing j s with
  | zero =>
    refine ⟨s.ftemp, ?_, hl, fun x => by rw [if_neg (by omega)]⟩
    have hk : s.main = k := hm
    simp only [← hk, Nat.add_zero, ← hs]
    rfl
  | succ n ih =>
    rw [List.range'_succ, List.map_cons, List.cons_append] at hm
    have hoff : offsetOf s.cfg (base + 2 * j) = 2 * j := by
      rw [offsetOf, Nat.add_mod, hb, Nat.zero_add, Nat.mod_mod, Nat.mod_eq_of_lt (by omega)]
    have h1 := steps_hwstep_fill ha hm ho hs (by omega)
    rw [hoff] at h1
    obtain ⟨ftemp', h2, h3, h4⟩ := ih (j + 1)
      (s := { s with
        main := (List.range' (j + 1) n).map (fun i => .instr (.hwstep (.fillWord (base + 2 * i) (pairWord page i)))) ++ k
        ftemp := (s.ftemp.set (2 * j) (lowByte (pairWord page j))).set (2 * j + 1) (highByte (pairWord page j))
        flashSession := some (base, j + 1) })
      ⟨ha.env, ha.handler, ha.held⟩ rfl ho rfl hb (by show 2 * (j + 1 + n) ≤ s.cfg.pageSize; omega)
      (by simpa using hl)
    refine ⟨ftemp', ?_, h3, fun x => ?_⟩
    · rw [show 4 * (n + 1) = 4 + 4 * n by omega, show j + (n + 1) = j + 1 + n by omega]
      exact (steps_add h1).trans h2
    · rw [h4 x]
      simp only [byteOf_set, List.length_set, lowByte_pairWord, highByte_pairWord]
      by_cases hx : 2 * (j + 1) ≤ x ∧ x < 2 * (j + 1 + n)
      · rw [if_pos hx, if_pos (by omega)]
      · rw [if_neg hx]
        by_cases h0 : 2 * j = x
        · rw [if_neg (by omega), if_pos (by omega), if_pos (by omega), h0]
        · by_cases h5 : 2 * j + 1 = x
          · rw [if_pos (by omega), if_pos (by omega), h5]
          · rw [if_neg (by omega), if_neg (by omega), if_neg (by omega)]

end Sys2Proof.Machine
end

