-- ==== Sys2Proof/Laws/Records.lean ====
section
/-! SUPPORT. What step 4 of a data record does in a flash pass, from its inputs (`stageBytes_within`, `stageBytes_outside`), and the checksum as a
number. Laws/Ops.lean says what it can have done, from its outcome. -/

namespace Sys2Proof.Machine

/-- The running checksum as a number (spec/30_encoding.md R98). -/
theorem foldData_toNat (data : List Byte) (sum : Byte) :
    (foldData data sum).toNat = (sum.toNat + (data.map BitVec.toNat).sum) % 256 := by
  unfold foldData
  induction data generalizing sum with
  | nil =>
    simp only [List.foldl_nil, List.map_nil, List.sum_nil]
    omega
  | cons d ds ih =>
    simp only [List.foldl_cons, ih, BitVec.toNat_add, List.map_cons, List.sum_cons]
    omega

/-- The offset of the next address of one page. -/
theorem offset_succ {a n : Nat} (h : (a + 1) / n = a / n) : (a + 1) % n = a % n + 1 := by
  have h0 := Nat.div_add_mod a n
  have h1 := Nat.div_add_mod (a + 1) n
  rw [h] at h1
  omega

/-- One byte stored, then `ds` after it. -/
theorem storedAt_cons {page page' ds : List Byte} {d : Byte} {o : Nat} (ho : o < page.length)
    (h : storedAt (page.set o d) page' ds (o + 1)) : storedAt page page' (d :: ds) o := by
  obtain ⟨hl, hb⟩ := h
  refine ⟨hl.trans List.length_set, fun k => ?_⟩
  rw [hb k, byteOf_set, List.length_cons]
  rcases Nat.lt_trichotomy k o with hk | rfl | hk
  · rw [if_neg (by omega), if_neg (by omega), if_neg (by omega)]
  · rw [if_neg (by omega), if_pos ⟨rfl, ho⟩, if_pos (by omega), Nat.sub_self, List.getD_cons_zero]
  · by_cases hd : k < o + 1 + ds.length
    · rw [if_pos (by omega), if_pos (by omega), show k - o = k - (o + 1) + 1 by omega, List.getD_cons_succ]
    · rw [if_neg (by omega), if_neg (by omega), if_neg (by omega)]

/-- Nothing stored. -/
theorem storedAt_nil (page : List Byte) (o : Nat) : storedAt page page [] o :=
  ⟨rfl, fun k => by rw [if_neg (by simp only [List.length_nil]; omega)]⟩

/-- The bytes whose addresses lie in the staged page are stored at their offsets and folded into the checksum; staging goes on after them. -/
theorem stageBytes_within (data : List Byte) (a : Nat) (sum : Byte) (s : State) (n : Nat) (hn : n ≤ data.length)
    (hp : ∀ i, i < n → (a + i) / s.cfg.pageSize = s.curPage ∧ a + i < s.cfg.flashSize) (hs : 0 < s.cfg.pageSize)
    (hl : s.page.length = s.cfg.pageSize) :
    ∃ page', storedAt s.page page' (data.take n) (a % s.cfg.pageSize) ∧
      stageBytes data a sum s =
        stageBytes (data.drop n) (a + n) (foldData (data.take n) sum) { s with page := page' } := by
  induction n generalizing data a sum s with
  | zero => exact ⟨s.page, storedAt_nil _ _, rfl⟩
  | succ n ih =>
    cases data with
    | nil => exact absurd hn (Nat.not_succ_le_zero n)
    | cons d ds =>
      have hfirst := hp 0 (Nat.succ_pos n)
      rw [Nat.add_zero] at hfirst
      have hrest : ∀ i, i < n → (a + 1 + i) / s.cfg.pageSize = s.curPage ∧ a + 1 + i < s.cfg.flashSize := fun i hi => by
        have h := hp (i + 1) (Nat.succ_lt_succ hi)
        rwa [show a + (i + 1) = a + 1 + i by omega] at h
      obtain ⟨page', hst, heq⟩ := ih ds (a + 1) (sum + d) { s with page := s.page.set (offsetOf s.cfg a) d }
        (Nat.le_of_succ_le_succ hn) hrest hs (List.length_set.trans hl)
      refine ⟨page', ?_, ?_⟩
      · have ho : a % s.cfg.pageSize < s.page.length := by rw [hl]; exact Nat.mod_lt _ hs
        rw [List.take_succ_cons]
        refine storedAt_cons ho ?_
        cases n with
        | zero => exact ⟨hst.1, fun k => by rw [hst.2 k, List.take_zero, if_neg (by simp only [List.length_nil]; omega),
            if_neg (by simp only [List.length_nil]; omega)]; rfl⟩
        | succ n =>
          have hnext : (a + 1) / s.cfg.pageSize = a / s.cfg.pageSize := by
            rw [hfirst.1]
            exact (hrest 0 (Nat.succ_pos n)).1
          rwa [← offset_succ hnext]
      · rw [stageBytes, if_neg (by simpa [inFlash] using hfirst.2), if_pos (by simpa [pageOf] using hfirst.1), heq,
          show a + 1 + n = a + (n + 1) by omega]
        rfl

/-- A byte outside the flash, after bytes of the staged page, is refused (U3). -/
theorem stageBytes_outside (data : List Byte) (a : Nat) (sum : Byte) (s : State) (n : Nat) (hn : n < data.length)
    (hp : ∀ i, i < n → (a + i) / s.cfg.pageSize = s.curPage) (hf : s.cfg.flashSize ≤ a + n) :
    stageBytes data a sum s = .outside := by
  induction n generalizing data a sum s with
  | zero =>
    cases data with
    | nil => exact absurd hn (Nat.not_lt_zero 0)
    | cons d ds => rw [stageBytes, if_pos (by simpa [inFlash] using hf)]
  | succ n ih =>
    cases data with
    | nil => exact absurd hn (Nat.not_lt_zero _)
    | cons d ds =>
      rw [stageBytes]
      split
      · rfl
      · rw [if_pos (by simpa [pageOf] using hp 0 (Nat.succ_pos n))]
        refine ih ds (a + 1) _ _ (Nat.lt_of_succ_lt_succ hn) (fun i hi => ?_) ?_
        · have h := hp (i + 1) (Nat.succ_lt_succ hi)
          rwa [show a + (i + 1) = a + 1 + i by omega] at h
        · show s.cfg.flashSize ≤ a + 1 + n
          omega

end Sys2Proof.Machine
end

