-- ==== Sys2Proof/Tests/Slice0.lean ====
section
/-! SUPPORT. The model's own tests. The well-formedness smoke tests; the decoding of every constructor from a unit written out from
spec/30_encoding.md; single steps with the results of spec/95_test_vectors.md; and, for every statement with hypotheses, a state and operands that meet
them (`witness_<statement>`). -/

namespace Sys2Proof.Tests

open Sys2Proof.Machine

/-! ## Helpers -/

/-- Small parameters: rings of 4 slots, pages of 4 bytes, 4 pages. -/
def tp : Params := { Params.sample with rxSlots := 4, txSlots := 4, lineCap := 24, pageSize := 4, flashSize := 16 }

/-- The power-up state of the small parameters, with nothing left to do. -/
def ts : State := { State.powerUp tp with main := [] }

/-- The outcome is a next state with the property. -/
def after (o : Out) (f : State → Bool) : Bool :=
  match o with
  | .next t => f t
  | .fault _ => false
  | .refused _ => false

/-- The outcome is the refusal. -/
def refusedWith (o : Out) (r : Refusal) : Bool :=
  match o with
  | .next _ => false
  | .fault _ => false
  | .refused q => decide (q = r)

/-- The characters `:0400000001020304F2` (program P1 of spec/95_test_vectors.md). -/
def lineV1 : List Byte := [0x3A, 0x30, 0x34, 0x30, 0x30, 0x30, 0x30, 0x30, 0x30, 0x30, 0x31, 0x30, 0x32, 0x30, 0x33, 0x30, 0x34, 0x46, 0x32]

/-- The characters `:00000001FF` (program P1). -/
def lineV2 : List Byte := [0x3A, 0x30, 0x30, 0x30, 0x30, 0x30, 0x30, 0x30, 0x31, 0x46, 0x46]

/-- The characters `:020000040000FA` (rule R220). -/
def lineV10 : List Byte := [0x3A, 0x30, 0x32, 0x30, 0x30, 0x30, 0x30, 0x30, 0x34, 0x30, 0x30, 0x30, 0x30, 0x46, 0x41]

/-- The record of `lineV1`. -/
def recV1 : Rec := { addr := 0, data := [1, 2, 3, 4], ss := 0xF2 }

/-- The record of `lineV2`. -/
def recV2 : Rec := { addr := 0, data := [], ss := 0xFF }

/-- A state with a completed line. -/
def withLine (cs : List Byte) (s : State) : State :=
  { s with line := cs ++ List.replicate (s.cfg.lineCap - cs.length) 0, lineLen := cs.length, lineDone := true }

/-! ## Well-formedness: an ill-formed term for each check -/

theorem test_wf_other_byte_is_no_control_byte :
    (Instr.byteOther 0x1B).wellFormed = false ∧ (Instr.byteOther 0x0D).wellFormed = false ∧
      (Instr.byteOther 0x0A).wellFormed = false ∧ (Instr.byteOther 0x3A).wellFormed = true := by decide

theorem test_wf_command_is_no_record : (Instr.lineCommand 0x3A).wellFormed = false ∧ (Instr.lineCommand 0x68).wellFormed = true := by
  decide

/-- A record with 256 data bytes. -/
def recLong : Rec := { addr := 0, data := List.replicate 256 0, ss := 0 }

theorem test_wf_long_record :
    (Instr.recDataFlash recLong).wellFormed = false ∧ (Instr.recDataVerify recLong).wellFormed = false ∧
      (Instr.recEofFlash recLong).wellFormed = false ∧ (Instr.recEofVerify recLong).wellFormed = false ∧
      (Instr.recOther 2 recLong).wellFormed = false := by
  have hlen : recLong.data.length = 256 := List.length_replicate
  have h : recLong.wellFormed = false := decide_eq_false (by rw [hlen]; decide)
  exact ⟨h, h, h, h, by rw [Instr.wellFormed, h, Bool.and_false]⟩

theorem test_wf_other_record_type :
    (Instr.recOther 0 recV2).wellFormed = false ∧ (Instr.recOther 1 recV2).wellFormed = false ∧
      (Instr.recOther 2 recV2).wellFormed = true := by decide

theorem test_wf_nonhex : (Instr.hexNonhex 0x30).wellFormed = false ∧ (Instr.hexNonhex 0x46).wellFormed = false ∧
    (Instr.hexNonhex 0x61).wellFormed = false ∧ (Instr.hexNonhex 0x47).wellFormed = true := by decide

theorem test_wf_cursor : (Instr.next 0 1).wellFormed = false ∧ (Instr.next 4 4).wellFormed = false ∧
    (Instr.next 3 4).wellFormed = true := by decide

/-! ## Decoding, from units written out from the spec -/

theorem test_decode_bytes :
    decodeTableWord 8 0x1B = some .byteEsc ∧ decodeTableWord 8 0x0D = some .byteCr ∧ decodeTableWord 8 0x0A = some .byteLf ∧
      decode (.byte 0x3A) = .ok (.byteOther 0x3A) ∧ decode (.byte 0x00) = .ok (.byteOther 0x00) ∧
      decode (.byte 0xFF) = .ok (.byteOther 0xFF) := ⟨rfl, rfl, rfl, rfl, rfl, rfl⟩

theorem test_decode_lines :
    decodeTableWord 8 0x3A = some .lineRecord ∧ decodeTableWord 0 0 = some .lineEmpty ∧
      decode (.line lineV1) = .ok .lineRecord ∧ decode (.line [0x68]) = .ok (.lineCommand 0x68) ∧
      decode (.line [0x20, 0x3A]) = .ok (.lineCommand 0x20) := ⟨rfl, rfl, rfl, rfl, rfl⟩

theorem test_decode_records :
    decode (.hexrec .flash lineV1) = .ok (.recDataFlash recV1) ∧ decode (.hexrec .verify lineV1) = .ok (.recDataVerify recV1) ∧
      decode (.hexrec .flash lineV2) = .ok (.recEofFlash recV2) ∧ decode (.hexrec .verify lineV2) = .ok (.recEofVerify recV2) ∧
      decode (.hexrec .verify lineV10) = .ok (.recOther 4 { addr := 0, data := [0, 0], ss := 0xFA }) :=
  ⟨rfl, rfl, rfl, rfl, rfl⟩

/-- Vectors V21 (a short record) and V20 (characters after the checksum) of spec/95_test_vectors.md. -/
theorem test_decode_short_and_long_records :
    decode (.hexrec .flash [0x3A]) = .error .shortRecord ∧ decode (.hexrec .flash (lineV1.take 18)) = .error .shortRecord ∧
      decode (.hexrec .verify (lineV2 ++ [0x78, 0x79, 0x7A])) = .ok (.recEofVerify recV2) := ⟨rfl, rfl, rfl⟩

/-- Vector V15: a character that is no hex digit is the digit 0 (`:01000000G0FF`). -/
theorem test_decode_nonhex_digit_is_zero :
    decode (.hexrec .flash [0x3A, 0x30, 0x31, 0x30, 0x30, 0x30, 0x30, 0x30, 0x30, 0x47, 0x30, 0x46, 0x46]) =
      .ok (.recDataFlash { addr := 0, data := [0], ss := 0xFF }) := rfl

theorem test_decode_digits :
    decodeTableWord 8 0x30 = some .hex0 ∧ decodeTableWord 8 0x31 = some .hex1 ∧ decodeTableWord 8 0x32 = some .hex2 ∧
      decodeTableWord 8 0x33 = some .hex3 ∧ decodeTableWord 8 0x34 = some .hex4 ∧ decodeTableWord 8 0x35 = some .hex5 ∧
      decodeTableWord 8 0x36 = some .hex6 ∧ decodeTableWord 8 0x37 = some .hex7 ∧ decodeTableWord 8 0x38 = some .hex8 ∧
      decodeTableWord 8 0x39 = some .hex9 ∧ decode (.digit 0x47) = .ok (.hexNonhex 0x47) :=
  ⟨rfl, rfl, rfl, rfl, rfl, rfl, rfl, rfl, rfl, rfl, rfl⟩

theorem test_decode_letters :
    decodeTableWord 8 0x41 = some .hexA ∧ decodeTableWord 8 0x42 = some .hexB ∧ decodeTableWord 8 0x43 = some .hexC ∧
      decodeTableWord 8 0x44 = some .hexD ∧ decodeTableWord 8 0x45 = some .hexE ∧ decodeTableWord 8 0x46 = some .hexF ∧
      decodeTableWord 8 0x61 = some .hexLowerA ∧ decodeTableWord 8 0x62 = some .hexLowerB ∧
      decodeTableWord 8 0x63 = some .hexLowerC ∧ decodeTableWord 8 0x64 = some .hexLowerD ∧
      decodeTableWord 8 0x65 = some .hexLowerE ∧ decodeTableWord 8 0x66 = some .hexLowerF :=
  ⟨rfl, rfl, rfl, rfl, rfl, rfl, rfl, rfl, rfl, rfl, rfl, rfl⟩

theorem test_decode_transport :
    decode (.symbolic .sendByte [.byte 0x41]) = .ok (.sendByte 0x41) ∧ decode (.symbolic .receiveByte []) = .ok .receiveByte ∧
      decode (.symbolic .available []) = .ok .available ∧ decode (.symbolic .flush []) = .ok .flush ∧
      decode (.symbolic .rxHandler []) = .ok .rxHandler ∧ decode (.symbolic .txHandler []) = .ok .txHandler ∧
      decode (.symbolic .tickHandler []) = .ok .tickHandler ∧
      decode (.symbolic .critical [.body [.readMs]]) = .ok (.critical [.readMs]) ∧
      decode (.symbolic .msNow []) = .ok .msNow ∧ decode (.symbolic .idle []) = .ok .idle ∧
      decode (.symbolic .next [.nat 3, .nat 4]) = .ok (.next 3 4) ∧
      decode (.symbolic .transportInit []) = .ok .transportInit ∧ decode (.symbolic .pollLine []) = .ok .pollLine :=
  ⟨rfl, rfl, rfl, rfl, rfl, rfl, rfl, rfl, rfl, rfl, rfl, rfl, rfl⟩

theorem test_decode_conversions :
    decode (.symbolic .hexNibbleToDec [.byte 0x63]) = .ok (.hexNibbleToDec 0x63) ∧
      decode (.symbolic .hexNibbleToHex [.nibble 10]) = .ok (.hexNibbleToHex 10) ∧
      decode (.symbolic .hexByteToDec [.byte 0x33, .byte 0x61]) = .ok (.hexByteToDec 0x33 0x61) ∧
      decode (.symbolic .hexByteToHex [.byte 0x0F]) = .ok (.hexByteToHex 0x0F) ∧
      decode (.symbolic .hexWordToDec [.byte 0x31, .byte 0x32, .byte 0x61, .byte 0x42]) = .ok (.hexWordToDec 0x31 0x32 0x61 0x42) ∧
      decode (.symbolic .hexWordToHex [.word 0x0080]) = .ok (.hexWordToHex 0x0080) := ⟨rfl, rfl, rfl, rfl, rfl, rfl⟩

theorem test_decode_page_and_flash :
    decode (.symbolic .resetPage []) = .ok .resetPage ∧ decode (.symbolic .writeCurrentPage []) = .ok .writeCurrentPage ∧
      decode (.symbolic .rwwReenable []) = .ok .rwwReenable ∧
      decode (.symbolic .hwstep [.call .rwwEnable]) = .ok (.hwstep .rwwEnable) ∧
      decode (.symbolic .flashReadByte [.nat 3]) = .ok (.flashReadByte 3) ∧
      decode (.symbolic .flashErasePage [.nat 128]) = .ok (.flashErasePage 128) ∧
      decode (.symbolic .flashFillWord [.nat 130, .word 0x9891]) = .ok (.flashFillWord 130 0x9891) ∧
      decode (.symbolic .flashCommitPage [.nat 128]) = .ok (.flashCommitPage 128) ∧
      decode (.symbolic .flashWait []) = .ok .flashWait ∧ decode (.symbolic .flashRwwEnable []) = .ok .flashRwwEnable ∧
      decode (.symbolic .processRecord [.mode .verify]) = .ok (.processRecord .verify) :=
  ⟨rfl, rfl, rfl, rfl, rfl, rfl, rfl, rfl, rfl, rfl, rfl⟩

theorem test_decode_sequencer_and_watchdog :
    decode (.symbolic .bootMain []) = .ok .bootMain ∧ decode (.symbolic .blInit []) = .ok .blInit ∧
      decode (.symbolic .runPass [.mode .flash]) = .ok (.runPass .flash) ∧ decode (.symbolic .menu []) = .ok .menu ∧
      decode (.symbolic .bootDecide []) = .ok .bootDecide ∧ decode (.symbolic .jumpApp []) = .ok .jumpApp ∧
      decode (.symbolic .forceRebootToBootloader []) = .ok .forceRebootToBootloader ∧
      decode (.symbolic .forceRebootToApp []) = .ok .forceRebootToApp ∧ decode (.symbolic .kick []) = .ok .kick ∧
      decode (.symbolic .wdtArm [.timeout .short]) = .ok (.wdtArm .short) ∧
      decode (.symbolic .transportFault [.errs noErrors]) = .ok (.transportFault noErrors) ∧
      decode (.symbolic .powerOn []) = .ok .powerOn ∧ decode (.symbolic .extReset []) = .ok .extReset ∧
      decode (.symbolic .wdtExpire []) = .ok .wdtExpire :=
  ⟨rfl, rfl, rfl, rfl, rfl, rfl, rfl, rfl, rfl, rfl, rfl, rfl, rfl, rfl⟩

/-- A unit whose operands are not the operation's, and bits of a width no format has, are refused. -/
theorem test_decode_refusals :
    decode (.symbolic .sendByte []) = .error .badOperands ∧ decode (.symbolic .next [.nat 4, .nat 4]) = .error .badOperands ∧
      decode (.symbolic .kick [.nat 0]) = .error .badOperands ∧ decodeTableWord 16 0x1B = none := ⟨rfl, rfl, rfl, rfl⟩

/-- The table's unit runs as the next step after reset. -/
theorem test_fetch_word_runs_next : step (State.reset.withFetchWord 8 0x1B) = exec .byteEsc State.reset := rfl

/-! ## Single steps -/

/-- The example of R121: the last free slot. -/
theorem test_send_byte_fills_the_ring :
    after (exec (.sendByte 0x41) { ts with txHead := 2 }) (fun t =>
      decide (t.txb = [0, 0, 0x41, 0]) && decide (t.txHead = 3) && txFull t) = true := by decide

/-- Vector T3, step 4: a full ring holds the caller. -/
theorem test_send_byte_waits :
    after (exec (.sendByte 0x64) { ts with txHead := 3 }) (fun t =>
      t.held && decide (t.main = [.instr (.sendByte 0x64)]) && decide (t.txHead = 3)) = true := by decide

/-- The example of R122. -/
theorem test_receive_byte :
    after (exec .receiveByte { ts with rxb := [0, 0x3A, 0, 0], rxTail := 1, rxHead := 2 }) (fun t =>
      decide (t.result = .byte 0x3A) && decide (t.rxTail = 2)) = true := by decide

/-- Vector T2: the newest byte is dropped, `ERR.BUF` is set, no kick. -/
theorem test_rx_overflow :
    after (exec .rxHandler { ts with ie := true, rxPend := true, rxByte := 0x37, rxHead := 3, wdtElapsed := 9 }) (fun t =>
      decide (t.err = { ovr := false, fe := false, buf := true }) && decide (t.rxHead = 3) && decide (t.wdtElapsed = 9)) = true := by
  decide

/-- Vector T5: a byte with an overrun report is stored and latches `ERR.OVR`. -/
theorem test_rx_with_report :
    after (exec .rxHandler { ts with ie := true, rxPend := true, rxByte := 0x55, rxOvr := true }) (fun t =>
      t.err.ovr && !t.err.fe && decide (t.rxb = [0x55, 0, 0, 0]) && decide (t.rxHead = 1)) = true := by decide

/-- The example of R126. -/
theorem test_tx_handler :
    after (exec .txHandler { ts with ie := true, txb := [0x3E, 1, 2, 0], txHead := 3 }) (fun t =>
      decide (t.txLog = [0x3E]) && decide (t.txTail = 1) && !t.txRdy && t.ie) = true := by decide

/-- Vector T6: the clock wraps. -/
theorem test_tick_wraps :
    after (exec .tickHandler { ts with ie := true, tickPend := true, ms := 0xFFFFFFFF }) (fun t => decide (t.ms = 0)) = true := by
  decide

/-- Vector T6: 16-bit clock, start 65000, now 464: elapsed 1000. -/
theorem test_elapsed_wraps : elapsedTime { tp with msWidth := 16 } 65000 464 = 1000 := by decide

/-- Vector L1: `h` CR echoes CR LF. -/
theorem test_command_line_is_echoed :
    after (exec .byteCr { withLine [0x68] ts with lineDone := false }) (fun t =>
      decide (t.main = [.instr (.sendByte 0x0D), .instr (.sendByte 0x0A), .micro .lineEnd])) = true := by decide

/-- Vector L8: the capacity is exhausted. -/
theorem test_byte_beyond_capacity :
    after (exec (.byteOther 0x42) { ts with lineLen := 24 }) (fun t => decide (t.lineLen = 24) && decide (t.line = ts.line)) = true := by
  decide

/-- The examples of R171, R173, R175, R172, R174, R176. -/
theorem test_conversions :
    after (exec (.hexNibbleToDec 0x63) ts) (fun t => decide (t.result = .nibble 12)) = true ∧
      after (exec (.hexByteToDec 0x46 0x47) ts) (fun t => decide (t.result = .byte 0xF0)) = true ∧
      after (exec (.hexWordToDec 0x31 0x32 0x61 0x42) ts) (fun t => decide (t.result = .word 0x12AB)) = true ∧
      after (exec (.hexNibbleToHex 10) ts) (fun t => decide (t.result = .char 0x41)) = true ∧
      after (exec (.hexByteToHex 0x0F) ts) (fun t => decide (t.result = .chars [0x30, 0x46])) = true ∧
      after (exec (.hexWordToHex 0x0080) ts) (fun t => decide (t.result = .chars [0x30, 0x30, 0x38, 0x30])) = true := by decide

/-- Vectors V1 and V3 to V5: staging, the first address, a regress. -/
theorem test_data_record_staged :
    after (exec (.recDataFlash recV1) ts) (fun t =>
      decide (t.page = [1, 2, 3, 4]) && decide (t.lastEnd = some 4) && decide (t.count = 4)) = true := by decide

theorem test_data_record_address_faults :
    after (exec (.recDataFlash { addr := 5, data := [0], ss := 0xFA }) ts) (fun t =>
      decide (t.status = .error) && decide (t.page = ts.page)) = true ∧
      after (exec (.recDataVerify { addr := 3, data := [0], ss := 0xFC }) { ts with lastEnd := some 4 }) (fun t =>
        decide (t.status = .error)) = true := by decide

/-- Like vector V7: a record that crosses a page boundary has the old page written first. -/
theorem test_data_record_crosses :
    after (exec (.recDataFlash { addr := 2, data := [0x10, 0x11, 0x12], ss := 0xC8 }) { ts with lastEnd := some 2 }) (fun t =>
      decide (t.page = [0, 0, 0x10, 0x11]) && decide (t.curPage = 0) && decide (t.main = [.instr .writeCurrentPage, .instr .resetPage,
        .micro (.stageResume { addr := 2, data := [0x10, 0x11, 0x12], ss := 0xC8 } [0x12] 4 0x26)])) = true := by decide

/-- Vector V13: the third byte differs from the flash. -/
theorem test_verify_mismatch :
    after (exec (.recDataVerify { addr := 0, data := [1, 2, 7, 4], ss := 0xEE })
      { ts with
        flash := [(0, 1), (1, 2), (2, 3), (3, 4)]
        cfg := { tp with strDiag := [({ cause := .verifyMismatch, line := [], lineLen := 0, lo := 13, hi := 14 }, [0x21])] } }) (fun t =>
      decide (t.status = .error) && decide (t.main = [.instr (.sendByte 0x21)])) = true := by decide

/-- Vector V22: a byte at or beyond the end of the flash. -/
theorem test_data_outside_the_flash :
    refusedWith (exec (.recDataFlash { addr := 16, data := [0xAA], ss := 0 }) { ts with lastEnd := some 16, curPage := 4 })
      .outsideFlash = true := by decide

/-- The example of R195, in a page of 4 bytes. -/
theorem test_fill_word :
    after (exec (.flashFillWord 6 0x9891) { ts with flashSession := some (4, 1) }) (fun t =>
      decide (t.ftemp = [0, 0, 0x91, 0x98]) && decide (t.flashSession = some (4, 2))) = true := by decide

/-- R194: the device erases the page, and an erased byte is not listed. -/
theorem test_erase_completes :
    after (step { ts with flash := [(3, 7), (4, 8), (8, 9)], flashOp := some (.erase 4), env := [.flashDone] }) (fun t =>
      decide (t.flash = [(3, 7), (8, 9)]) && decide (t.flashOp = none)) = true := by decide

/-- R196: the device commits FTEMP. -/
theorem test_commit_completes :
    after (step { ts with flash := [(3, 7)], ftemp := [1, 0xFF, 3, 4], flashOp := some (.commit 4), env := [.flashDone] }) (fun t =>
      decide (t.flash = [(3, 7), (4, 1), (6, 3), (7, 4)])) = true := by decide

/-- Vector B1, rows 1, 3, 5 and 8. -/
theorem test_boot_decide :
    after (exec .bootDecide { ts with sig0 := 0x13, sig1 := 0x37 }) (fun t => decide (t.seq = .app) && decide (t.sig0 = 0)) = true ∧
      after (exec .bootDecide { ts with rcWdt := true, sig0 := 0xA5, sig1 := 0x5A }) (fun t => decide (t.seq = .app)) = true ∧
      after (exec .bootDecide { ts with rcWdt := true }) (fun t => decide (t.seq = .blInit) && decide (t.sig0 = 0xA5)) = true ∧
      after (exec .bootDecide { ts with rcWdt := true, sig0 := 0x5A, sig1 := 0xA5 }) (fun t => decide (t.seq = .blInit)) = true := by
  decide

/-- Vector W3. -/
theorem test_arm_replaces :
    after (exec (.wdtArm .short) { ts with wdtEn := true, wdtElapsed := 7 }) (fun t =>
      t.wdtEn && decide (t.wdtTimeout = .short) && decide (t.wdtElapsed = 0)) = true := by decide

/-- R267: the watchdog fires when its timeout is reached, and not before. -/
theorem test_time_fires_the_watchdog :
    after (step { ts with seq := .rebootApp, wdtEn := true, wdtTimeout := .short, wdtElapsed := 15, env := [.elapse 5] }) (fun t =>
      decide (t.seq = .decide) && t.rcWdt) = true ∧
      after (step { ts with seq := .rebootApp, wdtEn := true, wdtTimeout := .short, wdtElapsed := 15, env := [.elapse 4] }) (fun t =>
        decide (t.seq = .rebootApp) && decide (t.wdtElapsed = 19)) = true := by decide

/-- R112: decimal digits, the most significant first. -/
theorem test_decimal : decimal 0 = [0x30] ∧ decimal 300 = [0x33, 0x30, 0x30] := by decide

/-- R320, R264: a deadman expiry between the two bytes of SIG keeps the new first byte and the old second one. -/
theorem test_reset_between_the_signature_bytes :
    after (steps 2 { ts with
      sig0 := 0xA5, sig1 := 0x5A, wdtEn := true, wdtElapsed := 1999, main := [.instr .forceRebootToBootloader],
      env := [.cpu, .elapse 1] }) (fun t =>
        t.rcWdt && decide (t.seq = .decide) && decide (t.sig0 = 0) && decide (t.sig1 = 0x5A)) = true := by decide

/-! ## Witnesses: states and operands that meet the hypotheses of the statements -/

/-- A good state with interrupts enabled, a byte pending, one byte in each ring, a staged page and a listed flash, to which tasks are given. -/
def gs (m : List Task) : State :=
  { ts with
    main := m
    ie := true
    rxPend := true
    rxByte := 0x41
    rxHead := 1
    txHead := 1
    page := [1, 2, 3, 4]
    curPage := 3
    flash := [(0, 1), (1, 2), (15, 9)] }

/-- The state of `gs` with a full inbound ring. -/
def gsFull : State := { gs [] with rxHead := 3 }

/-- A state inside the handler of a source (R296). -/
def inside (h : Source) (s : State) : State := { s with ie := false, inHandler := some h }

theorem witness_good_idle : Good (gs []) where
  legal := by decide
  rxHead_lt := by decide
  rxTail_lt := by decide
  txHead_lt := by decide
  txTail_lt := by decide
  rxb_length := by decide
  txb_length := by decide
  line_length := by decide
  lineLen_le := by decide
  page_length := by decide
  curPage_lt := by decide
  ms_lt := by decide
  tStart_lt := by decide
  ftemp_length := by decide
  flash_wf := by decide
  flash_range := by decide
  erase_at := fun _ h => nomatch h
  commit_at := fun _ h => nomatch h
  session_at := fun _ _ h => nomatch h
  watchdog := fun h => nomatch h
  handler_masked := fun h => absurd rfl h

theorem witness_good (m : List Task) : Good (gs m) := { witness_good_idle with }

theorem witness_good_full : Good gsFull := { witness_good [] with rxHead_lt := by decide }

/-- The bound of the record length, the range of the other types, and the bounds of a cursor. -/
theorem witness_DecodeOfEncodeIsTheInstruction :
    (Instr.recOther 0xFF { addr := 0xFFFF, data := List.replicate 255 0, ss := 0 }).wellFormed = true ∧
      (Instr.recOther 2 recV2).wellFormed = true ∧ (Instr.next 0 2).wellFormed = true ∧ (Instr.byteOther 0x00).wellFormed = true := by
  refine ⟨?_, by decide, by decide, by decide⟩
  have h : Rec.wellFormed { addr := 0xFFFF, data := List.replicate 255 0, ss := 0 } = true :=
    decide_eq_true (by rw [List.length_replicate])
  rw [Instr.wellFormed, h]
  decide

theorem witness_DecodedInstructionsAreWellFormed : decode (.byte 0x3A) = .ok (.byteOther 0x3A) := rfl

/-- Exactly long enough; the types 00, 01, 02 and FF. -/
theorem witness_RecordFieldsComeFromTheirColumns :
    lineV1.length = 11 + 2 * columnByte lineV1 1 ∧ columnByte lineV1 7 = 0 ∧
      lineV2.length = 11 + 2 * columnByte lineV2 1 ∧ columnByte lineV2 7 = 1 ∧
      columnByte [0x3A, 0x30, 0x30, 0x30, 0x30, 0x30, 0x30, 0x30, 0x32, 0x46, 0x45] 7 = 2 ∧
      columnByte [0x3A, 0x30, 0x30, 0x30, 0x30, 0x30, 0x30, 0x46, 0x46, 0x30, 0x31] 7 = 255 := by decide

/-- A record that is just long enough, and one that is one character short. -/
theorem witness_ProcessRecordNeedsTheWholeRecord :
    (lineText (withLine lineV1 ts)).length = 11 + 2 * columnByte (lineText (withLine lineV1 ts)) 1 ∧
      (lineText (withLine (lineV1.take 18) ts)).length < 11 + 2 * columnByte (lineText (withLine (lineV1.take 18) ts)) 1 := by decide

theorem witness_StepRunsTheDecodedInstruction :
    (gs [.fetch (.byte 0x41)]).inHandler = none ∧ (gs [.fetch (.byte 0x41)]).held = false ∧
      decode (.byte 0x41) = .ok (.byteOther 0x41) ∧ (gs [.fetch (.byte 0x41)]).env = [] ∧
      Task.fetch (.byte 0x41) ≠ .instr .flashWait ∧ (gs [.instr .flashWait]).flashOp = none ∧
      ({ gs [.instr .kick] with env := [.cpu] } : State).env = .cpu :: [] := by
  refine ⟨rfl, rfl, rfl, rfl, by decide, rfl, rfl⟩

theorem witness_TerminatorCompletesTheLine :
    ts.lineLen = 0 ∧ ((withLine [0x3A] ts).lineLen ≠ 0 ∧ byteOf (withLine [0x3A] ts).line 0 = 0x3A) ∧
      ((withLine [0x68] ts).lineLen ≠ 0 ∧ byteOf (withLine [0x68] ts).line 0 ≠ 0x3A) := by decide

theorem witness_OtherByteIsStoredWhileThereIsRoom : ({ ts with lineLen := 23 } : State).lineLen < ts.cfg.lineCap := by decide

theorem witness_ByteBeyondTheCapacityIsDropped : ts.cfg.lineCap ≤ ({ ts with lineLen := 24 } : State).lineLen := by decide

theorem witness_PollLineTakesOneByte :
    ts.err = { ovr := false, fe := false, buf := false } ∧ ts.lineDone = false ∧ (withLine [0x68] ts).lineDone = true ∧
      (withLine [0x68] ts).err = { ovr := false, fe := false, buf := false } ∧
      ({ ts with result := .noByte } : State).result = .noByte ∧ ({ ts with result := .byte 0 } : State).result = .byte 0 := by decide

theorem witness_TransportFaultAbandonsTheMainFlow :
    ({ ts with err := { ovr := false, fe := true, buf := false } } : State).err.fe = true ∧ ts.lineDone = false ∧
      ({ withLine [0x68] ts with err := { ovr := true, fe := true, buf := true } } : State).lineDone = true := by decide

theorem witness_LinesAreRoutedByTheirClass :
    ts.tRunning = false ∧ ({ ts with tRunning := true } : State).tRunning = true ∧ ts.menuPlan = [] ∧
      ({ ts with menuPlan := [[.flush], []] } : State).menuPlan = [.flush] :: [[]] := by decide

/-- Room for one byte, and a full ring; the same hypotheses stand in CriticalSectionRestoresTheMask. -/
theorem witness_SendByteStoresOrHoldsTheCaller :
    (({ ts with txHead := 2 } : State).txHead + 1) % ts.cfg.txSlots ≠ ts.txTail ∧
      (({ ts with txHead := 3 } : State).txHead + 1) % ts.cfg.txSlots = ts.txTail := by decide

/-- An empty ring and one that is not; the same hypotheses as those of AvailableAndClockAreReads. -/
theorem witness_ReceiveByteTakesTheOldestByte : ts.rxHead = ts.rxTail ∧ (gs []).rxHead ≠ (gs []).rxTail := by decide

theorem witness_FlushAndIdleHoldTheCaller : ts.txHead = ts.txTail ∧ (gs []).txHead ≠ (gs []).txTail := by decide

theorem witness_CursorAdvanceAndTransportInit : 2 ≤ 4 ∧ 2 + 1 < 4 ∧ 3 = 4 - 1 ∧ 2 ≤ 2 ∧ 0 + 1 < 2 := by decide

/-- From the entry and from inside the handler, with room and on a full ring; both forms of the processor's move. -/
theorem witness_RxHandlerStoresOrDropsTheByte :
    (gs []).rxPend = true ∧ (gs []).ie = true ∧ (gs []).inHandler = none ∧
      ((gs []).rxHead + 1) % (gs []).cfg.rxSlots ≠ (gs []).rxTail ∧
      gsFull.rxPend = true ∧ gsFull.ie = true ∧ gsFull.inHandler = none ∧
      (gsFull.rxHead + 1) % gsFull.cfg.rxSlots = gsFull.rxTail ∧
      (inside .rx (gs [])).inHandler = some .rx ∧ (inside .rx (gs [])).rxPend = true ∧ (inside .rx (gs [])).env = [] ∧
      ({ inside .rx gsFull with env := [.cpu] } : State).env = .cpu :: [] ∧ (inside .rx gsFull).inHandler = some .rx := by decide

theorem witness_TxHandlerSendsTheOldestByte :
    (gs []).txRdy = true ∧ (gs []).txHead ≠ (gs []).txTail ∧ (gs []).ie = true ∧ (gs []).inHandler = none ∧
      (inside .tx (gs [])).inHandler = some .tx ∧ (inside .tx (gs [])).env = [] ∧
      ({ inside .tx (gs []) with env := [.cpu] } : State).env = .cpu :: [] := by decide

theorem witness_TickHandlerAdvancesTheClock :
    ({ gs [] with tickPend := true, ms := 2 ^ 32 - 1 } : State).tickPend = true ∧ (gs []).ie = true ∧ (gs []).inHandler = none ∧
      ({ inside .tick (gs []) with tickPend := true } : State).inHandler = some .tick ∧
      ({ inside .tick (gs []) with tickPend := true, env := [.cpu] } : State).env = .cpu :: [] := by
  decide

/-- Masked; inside another handler; each source pending or not; inside the handler that ends. -/
theorem witness_HandlersEnterMaskedAndDoNotNest :
    (ts.ie = false ∧ ts.inHandler ≠ some .rx) ∧
      (({ ts with inHandler := some .tx } : State).inHandler ≠ none ∧ ({ ts with inHandler := some .tx } : State).inHandler ≠ some .rx) ∧
      (({ gs [] with env := [.serve .rx] } : State).env = .serve .rx :: [] ∧ (gs []).ie = true ∧ (gs []).inHandler = none ∧
        (gs []).rxPend = true ∧ (gs []).txRdy = true ∧ (gs []).txHead ≠ (gs []).txTail ∧ (gs []).tickPend = false) ∧
      (({ gs [] with tickPend := true } : State).tickPend = true ∧ ({ gs [] with rxPend := false } : State).rxPend = false ∧
        ({ gs [] with txRdy := false } : State).txRdy = false) ∧
      (({ ts with rxPend := true, env := [.serve .rx] } : State).env = .serve .rx :: [] ∧ ts.ie = false) ∧
      (({ gs [] with inHandler := some .tx, env := [.serve .rx] } : State).env = .serve .rx :: [] ∧
        ({ gs [] with inHandler := some .tx } : State).inHandler ≠ none) ∧
      ({ ts with inHandler := some .tick, env := [.cpu] } : State).inHandler = some .tick ∧
      (({ gs [] with rxPend := false } : State).rxPend = false ∧ ({ gs [] with txHead := 0 } : State).txHead = (gs []).txTail ∧
        (gs []).tickPend = false ∧ (gs []).inHandler ≠ some .rx ∧ (gs []).inHandler ≠ some .tx ∧
        (gs []).inHandler ≠ some .tick) := by decide

/-- An empty, a partly filled and a full ring, all of them good. -/
theorem witness_InboundRingIsABoundedQueue :
    (Good (gs []) ∧ rxQueue (gs []) = 0 :: [] ∧ (gs []).rxPend = true ∧ (gs []).ie = true ∧
      (rxQueue (gs [])).length < (gs []).cfg.rxSlots - 1) ∧
    (Good gsFull ∧ (rxQueue gsFull).length = gsFull.cfg.rxSlots - 1 ∧ gsFull.rxPend = true ∧ gsFull.ie = true) ∧
    (Good { gs [] with rxHead := 0 } ∧ rxQueue { gs [] with rxHead := 0 } = []) ∧
    (Good (inside .rx (gs [])) ∧ (inside .rx (gs [])).inHandler = some .rx ∧ (inside .rx (gs [])).rxPend = true) :=
  ⟨⟨witness_good [], by decide, rfl, rfl, by decide⟩, ⟨witness_good_full, by decide, rfl, rfl⟩,
    ⟨{ witness_good [] with rxHead_lt := by decide }, by decide⟩, ⟨{ witness_good [] with handler_masked := fun _ => rfl }, rfl, rfl⟩⟩

/-- A step that transmits. -/
theorem witness_OutputIsNeverDroppedOrReordered :
    Good (gs [.instr .txHandler]) ∧ after (step (gs [.instr .txHandler])) (fun t => decide (t.txLog = [0])) = true :=
  ⟨witness_good _, by decide⟩

/-- The first and the last page; a fill of the first and of the last word; a commit. -/
theorem witness_FlashCallsStartTheirOperation :
    ts.flashOp = none ∧ pageAddress ts.cfg 0 ∧ pageAddress ts.cfg 12 ∧
      (({ ts with flashSession := some (4, 0) } : State).flashSession = some (4, 0) ∧ 4 = 4 + 2 * 0 ∧ 2 * 0 < ts.cfg.pageSize) ∧
      (({ ts with flashSession := some (4, 1) } : State).flashSession = some (4, 1) ∧ 6 = 4 + 2 * 1 ∧ 2 * 1 < ts.cfg.pageSize) ∧
      ({ ts with flashSession := some (12, 2) } : State).flashSession = some (12, ts.cfg.pageSize / 2) ∧
      ({ ts with flashOp := some (.erase 4) } : State).flashOp ≠ none := by
  refine ⟨rfl, ⟨by decide, by decide⟩, ⟨by decide, by decide⟩, by decide, by decide, by decide, by decide⟩

/-- Busy; misaligned; just outside; a commit and fills outside their order, the fill past the last word among them. -/
theorem witness_FlashCallsOutsideTheProtocolAreRefused :
    ({ ts with flashOp := some (.commit 4) } : State).flashOp ≠ none ∧ 2 % ts.cfg.pageSize ≠ 0 ∧
      (ts.flashOp = none ∧ 16 % ts.cfg.pageSize = 0 ∧ ts.cfg.flashSize ≤ 16) ∧
      (pageAddress ts.cfg 4 ∧ ({ ts with flashSession := some (4, 1) } : State).flashSession ≠ some (4, ts.cfg.pageSize / 2)) ∧
      ts.flashSession = none ∧
      (({ ts with flashSession := some (4, 1) } : State).flashSession = some (4, 1) ∧ 4 ≠ 4 + 2 * 1) ∧
      (({ ts with flashSession := some (4, 2) } : State).flashSession = some (4, 2) ∧ ts.cfg.pageSize ≤ 2 * 2) := by
  refine ⟨by decide, by decide, by decide, ⟨⟨by decide, by decide⟩, by decide⟩, rfl, by decide, by decide⟩

/-- The last byte of the flash, readable and not; the first address outside. -/
theorem witness_FlashReadGivesTheByteAtItsAddress :
    15 < ts.cfg.flashSize ∧ ts.rwwOk = true ∧ ts.flashOp = none ∧ ({ ts with rwwOk := false } : State).rwwOk = false ∧
      ({ ts with flashOp := some (.erase 0) } : State).flashOp ≠ none ∧ ts.cfg.flashSize ≤ 16 := by decide

theorem witness_DeviceCompletesEraseAndCommit :
    ({ ts with env := [.flashDone], flashOp := some (.erase 12) } : State).flashOp = some (.erase 12) ∧
      ({ ts with env := [.flashDone], flashOp := some (.commit 0) } : State).flashOp = some (.commit 0) ∧
      ({ ts with env := [.flashDone], flashOp := some (.commit 0) } : State).env = .flashDone :: [] := by decide

theorem witness_PageWriteReachesTheFlash :
    Good (gs [.instr .writeCurrentPage]) ∧ (gs [.instr .writeCurrentPage]).env = [] ∧ (gs [.instr .writeCurrentPage]).inHandler = none ∧
      (gs [.instr .writeCurrentPage]).held = false ∧ (gs [.instr .writeCurrentPage]).flashOp = none ∧
      (gs [.instr .writeCurrentPage]).main = .instr .writeCurrentPage :: [] :=
  ⟨witness_good _, rfl, rfl, rfl, rfl, rfl⟩

/-- The smallest bad first address, and an overlap by one byte. -/
theorem witness_AddressFaultsEndThePass :
    (ts.lastEnd = none ∧ (Rec.addr { addr := 1, data := [], ss := 0 }).toNat ≠ 0) ∧
      (({ ts with lastEnd := some 4 } : State).lastEnd = some 4 ∧ (Rec.addr { addr := 3, data := [], ss := 0 }).toNat < 4) := by decide

/-- A record that fills the last page to its last byte. -/
theorem witness_DataRecordIsStagedInThePage :
    Good { gs [] with lastEnd := some 12 } ∧
      addressAccepted { gs [] with lastEnd := some 12 } { addr := 12, data := [1, 2, 3, 4], ss := 0xE6 } ∧
      recordTotal 0 { addr := 12, data := [1, 2, 3, 4], ss := 0xE6 } % 256 = 0 ∧
      (∀ i, i < 4 → (12 + i) / (gs []).cfg.pageSize = (gs []).curPage ∧ 12 + i < (gs []).cfg.flashSize) :=
  ⟨{ witness_good [] with }, Or.inr ⟨12, rfl, by decide⟩, by decide, by decide⟩

/-- The first byte of page 1 after the last byte of page 0; its continuation; a continuation that crosses into page 2. -/
theorem witness_DataRecordCrossesAPage :
    (Good { gs [] with curPage := 0, lastEnd := some 3 } ∧
      addressAccepted { gs [] with curPage := 0, lastEnd := some 3 } { addr := 3, data := [5, 6], ss := 0xF0 } ∧
      1 < [5, 6].length ∧ (∀ i, i < 1 → (3 + i) / (gs []).cfg.pageSize = 0) ∧ (3 + 1) / (gs []).cfg.pageSize ≠ 0 ∧
      3 + 1 < (gs []).cfg.flashSize) ∧
    (Good (gs []) ∧ 4 < (gs []).cfg.flashSize ∧
      (∀ i, i < 1 → (4 + i) / (gs []).cfg.pageSize = 4 / (gs []).cfg.pageSize ∧ 4 + i < (gs []).cfg.flashSize) ∧
      ((0x0A : Byte).toNat + (([6] : List Byte).map BitVec.toNat).sum + (0xF0 : Byte).toNat) % 256 = 0) ∧
    (Good (gs []) ∧ 4 < ([6, 7, 8, 9, 10] : List Byte).length ∧
      (∀ i, i < 4 → (4 + i) / (gs []).cfg.pageSize = 4 / (gs []).cfg.pageSize) ∧
      (4 + 4) / (gs []).cfg.pageSize ≠ 4 / (gs []).cfg.pageSize ∧ 4 + 4 < (gs []).cfg.flashSize) :=
  ⟨⟨{ witness_good [] with curPage_lt := by decide }, Or.inr ⟨3, rfl, by decide⟩, by decide, by decide, by decide, by decide⟩,
    ⟨witness_good [], by decide, by decide, by decide⟩, ⟨witness_good [], by decide, by decide, by decide, by decide⟩⟩

/-- A record equal to the flash, and one whose second byte differs. -/
theorem witness_VerifyComparesEveryByte :
    (gs []).rwwOk = true ∧ (gs []).flashOp = none ∧ addressAccepted (gs []) { addr := 0, data := [1, 2], ss := 0xFB } ∧
      recordTotal 0 { addr := 0, data := [1, 2], ss := 0xFB } % 256 = 0 ∧
      (∀ i, i < 2 → 0 + i < (gs []).cfg.flashSize ∧ Memory.read (gs []).flash (0 + i) = ([1, 2] : List Byte).getD i 0) ∧
      (1 < ([1, 7] : List Byte).length ∧ (∀ i, i < 1 → Memory.read (gs []).flash (0 + i) = ([1, 7] : List Byte).getD i 0) ∧
        0 + 1 < (gs []).cfg.flashSize ∧ Memory.read (gs []).flash (0 + 1) ≠ ([1, 7] : List Byte).getD 1 0) :=
  ⟨rfl, rfl, Or.inl ⟨rfl, rfl⟩, by decide, by decide, by decide⟩

/-- A record across pages 0 and 1 whose checksum is off by one, about to run in a good state. -/
def badCrossing : State :=
  { gs [.instr (.recDataFlash { addr := 3, data := [5, 6], ss := 0xF1 })] with curPage := 0, lastEnd := some 3 }

/-- Sums off by one, for every type and both modes, after a page write, and in a record that runs across one. -/
theorem witness_WrongChecksumEndsThePass :
    recordTotal 1 { addr := 0, data := [], ss := 0xFE } % 256 ≠ 0 ∧ recordTotal 2 { addr := 0, data := [], ss := 0xFF } % 256 ≠ 0 ∧
      (Good { gs [] with curPage := 0 } ∧ (gs []).rwwOk = true ∧ (gs []).flashOp = none ∧
        addressAccepted { gs [] with curPage := 0 } { addr := 0, data := [1, 2], ss := 0xFC } ∧
        recordTotal 0 { addr := 0, data := [1, 2], ss := 0xFC } % 256 ≠ 0 ∧
        (∀ i, i < 2 → 0 + i < (gs []).cfg.flashSize ∧ Memory.read (gs []).flash (0 + i) = ([1, 2] : List Byte).getD i 0) ∧
        (∀ i, i < 2 → (0 + i) / (gs []).cfg.pageSize = 0 ∧ 0 + i < (gs []).cfg.flashSize)) ∧
      (Good (gs []) ∧ 4 < (gs []).cfg.flashSize ∧
        (∀ i, i < 1 → (4 + i) / (gs []).cfg.pageSize = 4 / (gs []).cfg.pageSize ∧ 4 + i < (gs []).cfg.flashSize) ∧
        ((0x0A : Byte).toNat + (([6] : List Byte).map BitVec.toNat).sum + (0xF1 : Byte).toNat) % 256 ≠ 0) ∧
      (Good badCrossing ∧ addressAccepted badCrossing { addr := 3, data := [5, 6], ss := 0xF1 } ∧
        recordTotal 0 { addr := 3, data := [5, 6], ss := 0xF1 } % 256 ≠ 0 ∧ 1 < ([5, 6] : List Byte).length ∧
        (∀ i, i < 1 → (3 + i) / badCrossing.cfg.pageSize = badCrossing.curPage) ∧
        (3 + 1) / badCrossing.cfg.pageSize ≠ badCrossing.curPage ∧
        (∀ i, i < 2 → 1 ≤ i → (3 + i) / badCrossing.cfg.pageSize = (3 + 1) / badCrossing.cfg.pageSize ∧
          3 + i < badCrossing.cfg.flashSize) ∧
        badCrossing.env = [] ∧ badCrossing.inHandler = none ∧ badCrossing.held = false ∧ badCrossing.flashOp = none ∧
        badCrossing.main = .instr (.recDataFlash { addr := 3, data := [5, 6], ss := 0xF1 }) :: []) :=
  ⟨by decide, by decide,
    ⟨{ witness_good [] with curPage_lt := by decide }, rfl, rfl, Or.inl ⟨rfl, rfl⟩, by decide, by decide, by decide⟩,
    ⟨witness_good [], by decide, by decide, by decide⟩,
    ⟨{ witness_good [] with curPage_lt := by decide }, Or.inr ⟨3, rfl, by decide⟩, by decide, by decide, by decide, by decide, by decide,
      rfl, rfl, rfl, rfl, rfl⟩⟩

/-- The byte after the last byte of the flash, before a page write and after one. -/
theorem witness_DataOutsideTheFlashIsRefused :
    addressAccepted { gs [] with lastEnd := some 15 } { addr := 15, data := [9, 1], ss := 0 } ∧ 1 < [9, 1].length ∧
      (gs []).cfg.flashSize ≤ 15 + 1 ∧ (∀ i, i < 1 → (15 + i) / (gs []).cfg.pageSize = (gs []).curPage) ∧
      (gs []).rwwOk = true ∧ (gs []).flashOp = none ∧
      (∀ i, i < 1 → Memory.read (gs []).flash (15 + i) = ([9, 1] : List Byte).getD i 0) ∧
      (4 < ([1, 2, 3, 4, 5] : List Byte).length ∧ (∀ i, i < 4 → (12 + i) / (gs []).cfg.pageSize = 12 / (gs []).cfg.pageSize) ∧
        (gs []).cfg.flashSize ≤ 12 + 4) :=
  ⟨Or.inr ⟨15, rfl, by decide⟩, by decide, by decide, by decide, rfl, rfl, by decide, by decide⟩

theorem witness_EndOfFileAndOtherRecords :
    recordTotal 1 recV2 % 256 = 0 ∧ recordTotal 4 { addr := 0, data := [0, 0], ss := 0xFA } % 256 = 0 := by decide

theorem witness_EndOfFileMakesTheFlashReadable :
    Good (gs [.instr (.recEofFlash recV2)]) ∧ recordTotal 1 recV2 % 256 = 0 ∧ (gs [.instr (.recEofFlash recV2)]).env = [] ∧
      (gs [.instr (.recEofFlash recV2)]).inHandler = none ∧ (gs [.instr (.recEofFlash recV2)]).held = false ∧
      (gs [.instr (.recEofFlash recV2)]).flashOp = none ∧
      (gs [.instr (.recEofFlash recV2)]).main = .instr (.recEofFlash recV2) :: [] :=
  ⟨witness_good _, by decide, rfl, rfl, rfl, rfl, rfl⟩

theorem witness_PassesPollUntilTheyEnd :
    ts.status = .waiting ∧ ({ ts with status := .inProgress } : State).status = .inProgress ∧
      ({ ts with status := .ok } : State).status = .ok ∧ ({ ts with status := .error } : State).status = .error ∧
      ({ ts with result := .bool true } : State).result = .bool true ∧
      ({ ts with result := .bool false } : State).result = .bool false := by decide

/-- The clock at and behind the start of the measurement. -/
theorem witness_PassEndsInRebootOrNextPass :
    ({ ts with status := .error } : State).status = .error ∧ ({ ts with status := .ok } : State).status = .ok ∧
      (({ ts with result := .clock 5, tStart := 5 } : State).result = .clock 5 ∧ 5 < 2 ^ ts.cfg.msWidth) ∧
      (({ ts with result := .clock 4, tStart := 5 } : State).result = .clock 4 ∧ 4 < 2 ^ ts.cfg.msWidth) := by decide

theorem witness_BootDecideFollowsItsTable :
    (ts.rcExt = false ∧ ts.rcWdt = false) ∧ (({ ts with sig0 := 0xA5, sig1 := 0x5A } : State).sig0 = ts.cfg.magic0 ∧
        ({ ts with sig0 := 0xA5, sig1 := 0x5A } : State).sig1 = ts.cfg.magic1) ∧
      (({ ts with rcExt := true, sig0 := 0xA5 } : State).rcExt = true ∧
        ¬(({ ts with rcExt := true, sig0 := 0xA5 } : State).sig0 = ts.cfg.magic0 ∧
          ({ ts with rcExt := true, sig0 := 0xA5 } : State).sig1 = ts.cfg.magic1)) := by decide

/-- An undisturbed flash, and each way a page can be cut, with a byte just outside the page. -/
theorem witness_ResetEventsReachTheEntry :
    ts.flashOp = none ∧ ts.flashSession = none ∧ ({ ts with flashOp := some (.erase 4) } : State).flashOp = some (.erase 4) ∧
      ({ ts with flashOp := some (.commit 4) } : State).flashOp = some (.commit 4) ∧
      ({ ts with flashSession := some (4, 1) } : State).flashSession = some (4, 1) ∧ ¬(4 ≤ 8 ∧ 8 < 4 + ts.cfg.pageSize) := by decide

theorem witness_HandoffRebootsAndWatchdog :
    (gs [.instr .forceRebootToApp]).env = [] ∧ (gs [.instr .forceRebootToApp]).inHandler = none ∧
      (gs [.instr .forceRebootToApp]).held = false ∧
      (gs [.instr .forceRebootToApp]).main = .instr .forceRebootToApp :: [] ∧
      (gs [.instr .forceRebootToBootloader]).main = .instr .forceRebootToBootloader :: [] := by decide

theorem witness_RebootsComeOutWhereTheyShould :
    ts.cfg.legal = true ∧ ({ ts with sig0 := 0xA5, sig1 := 0x5A } : State).sig0 = ts.cfg.magic0 ∧
      ({ ts with sig0 := 0xA5, sig1 := 0x5A } : State).sig1 = ts.cfg.magic1 := by decide

/-- Both values of what each event looks at; time just before and at the timeout. -/
theorem witness_EnvironmentEventsAndTime :
    ({ ts with env := [.uartRx 0 false false] } : State).env = .uartRx 0 false false :: [] ∧ ts.rxPend = false ∧ (gs []).rxPend = true ∧
      ({ ts with env := [.uartTxReady] } : State).env = .uartTxReady :: [] ∧ ({ ts with env := [.tick] } : State).env = .tick :: [] ∧
      ({ ts with env := [.appSig true 0] } : State).env = .appSig true 0 :: [] ∧ ts.seq ≠ .app ∧
      ({ ts with env := [.appSig false 0] } : State).env = .appSig false 0 :: [] ∧
      (({ ts with seq := .app, env := [.appSig false 7] } : State).env = .appSig false 7 :: [] ∧
        ({ ts with seq := .app, env := [.appSig false 7] } : State).seq = .app) ∧
      (({ ts with seq := .app, env := [.appSig true 7] } : State).env = .appSig true 7 :: [] ∧
        ({ ts with seq := .app, env := [.appSig true 7] } : State).seq = .app) ∧
      (({ ts with seq := .app, env := [.appReset] } : State).env = .appReset :: [] ∧
        ({ ts with seq := .app, env := [.appReset] } : State).seq = .app) ∧
      ({ ts with env := [.appReset] } : State).env = .appReset :: [] ∧
      ({ ts with env := [.powerOn] } : State).env = .powerOn :: [] ∧ ({ ts with env := [.extReset] } : State).env = .extReset :: [] ∧
      ({ ts with env := [.elapse 0] } : State).env = .elapse 0 :: [] ∧ ts.wdtEn = false ∧
      ({ ts with wdtEn := true, wdtElapsed := 1 } : State).wdtElapsed + 1998 < timeoutOf ts.cfg .deadman ∧
      timeoutOf ts.cfg .deadman ≤ ({ ts with wdtEn := true, wdtElapsed := 1 } : State).wdtElapsed + 1999 := by decide

theorem witness_PowerUpStateIsTheSpecsAndGood : tp.legal = true ∧ Params.sample.legal = true := by decide

theorem witness_EveryStepKeepsGoodStates :
    Good (gs [.instr (.flashErasePage 12)]) ∧
      after (step (gs [.instr (.flashErasePage 12)])) (fun t => decide (t.flashOp = some (.erase 12))) = true :=
  ⟨witness_good _, by decide⟩

theorem witness_FlashChangesOnlyUnderTheDevice :
    after (step { gs [] with flashOp := some (.erase 12), env := [.flashDone] }) (fun t =>
      !decide (Memory.read t.flash 15 = Memory.read (gs []).flash 15)) = true := by decide

/-- In any state; and on course, where the verify pass ended OK. -/
theorem witness_SeqChangesOnlyByItsTransitions :
    after (step { gs [.micro (.rebootArm .application)] with seq := .passVerify }) (fun t => decide (t.seq = .rebootApp)) = true ∧
      FlowOnCourse { gs [.micro (.rebootArm .application)] with seq := .passVerify, status := .ok } ∧
      after (step { gs [.micro (.rebootArm .application)] with seq := .passVerify, status := .ok }) (fun t =>
        decide (t.seq = .rebootApp)) = true :=
  ⟨by decide, Or.inr ⟨rfl, Or.inr (Or.inr rfl)⟩, by decide⟩

/-- At the end of a flash pass that returned OK, with the end-of-file record typed but for its CR, which is in the ring. -/
def flashPassOk : State :=
  { withLine lineV2 (gs (passFrom .verify)) with
    cfg := { tp with strBannerVerify := [], strPrompt := [] }, lineDone := false, rxb := [0x0D, 0, 0, 0], seq := .passFlash, status := .ok }

/-- The places where the reboot and its end are put, and a run that comes to it. -/
theorem witness_RebootToAppOnlyAfterVerify :
    after (step { gs [.micro (.passEnd .verify)] with status := .ok }) (fun t => decide (Task.instr .forceRebootToApp ∈ t.main)) = true ∧
      after (step (gs [.instr .forceRebootToApp])) (fun t => decide (Task.micro (.rebootArm .application) ∈ t.main)) = true ∧
      FlowOnCourse flashPassOk ∧ flashPassOk.seq ≠ .passVerify ∧ flashPassOk.seq ≠ .rebootApp ∧
      after (steps 18 flashPassOk) (fun t => decide (t.seq = .rebootApp)) = true :=
  ⟨by decide, by decide, Or.inr ⟨rfl, [], rfl, rfl⟩, by decide, by decide, by decide⟩

theorem witness_ErrorFlagsStayLatched :
    after (step { gs [.instr .transportInit] with err := { ovr := true, fe := true, buf := true } }) (fun t => decide (t.err = noErrors)) = true := by
  decide

/-- The first byte, and the second. -/
theorem witness_SignatureIsWrittenByItsOwners :
    (gs [.instr .forceRebootToApp]).seq ≠ .app ∧
      after (step (gs [.instr .forceRebootToApp])) (fun t => decide (t.sig0 ≠ (gs []).sig0)) = true ∧
      after (step (gs [.micro (.rebootSig1 .application)])) (fun t => decide (t.sig1 ≠ (gs []).sig1)) = true := by decide

/-- A pass that polls. -/
theorem witness_EveryStepKeepsTheFlowOnCourse :
    FlowOnCourse { gs [.micro .passLoop, .micro (.passEnd .flash)] with seq := .passFlash } ∧
      after (step { gs [.micro .passLoop, .micro (.passEnd .flash)] with seq := .passFlash }) (fun t =>
        decide (t.main = [.instr .pollLine, .micro .passRoute, .micro (.passEnd .flash)])) = true :=
  ⟨Or.inl (Or.inr (Or.inl ⟨[], _, rfl, Or.inl rfl, rfl⟩)), by decide⟩

end Sys2Proof.Tests
end

section
/-! PROOFS. The encoding (spec/30_encoding.md): the fields of a record line (R95 to R97) and the rows of the hex digits (R94). Each conversion of
Sys2Proof/Decode.lean gets one equation into the numbers of Sys2Proof/Safety.lean, and the statements follow from those. -/

namespace Sys2Proof.Machine

/-! ## Characters and columns as numbers -/

theorem append_toNat {m n : Nat} (x : BitVec m) (y : BitVec n) : (x ++ y).toNat = 2 ^ n * x.toNat + y.toNat := by
  rw [BitVec.toNat_append, ← Nat.shiftLeft_add_eq_or_of_lt y.isLt, Nat.shiftLeft_eq, Nat.mul_comm]

@[simp] theorem hexval_toNat (c : Byte) : (hexval c).toNat = digitValue c := by
  unfold hexval digitValue
  split_ifs
  · rw [BitVec.toNat_ofNat]; omega
  · rw [BitVec.toNat_ofNat]; omega
  · rw [BitVec.toNat_ofNat]; omega
  · rfl

@[simp] theorem hexByteToBin_toNat (c1 c0 : Byte) : (hexByteToBin c1 c0).toNat = 16 * digitValue c1 + digitValue c0 :=
  (append_toNat _ _).trans (by simp)

@[simp] theorem hexWordToBin_toNat (c3 c2 c1 c0 : Byte) :
    (hexWordToBin c3 c2 c1 c0).toNat = 256 * (16 * digitValue c3 + digitValue c2) + (16 * digitValue c1 + digitValue c0) :=
  (append_toNat _ _).trans (by simp)

@[simp] theorem byteAt_toNat (cs : List Byte) (k : Nat) : (byteAt cs k).toNat = columnByte cs k :=
  hexByteToBin_toNat _ _

/-- A word of a record line is its two bytes, the first the more significant (R96). -/
@[simp] theorem wordAt_toNat (cs : List Byte) (k : Nat) : (wordAt cs k).toNat = 256 * columnByte cs k + columnByte cs (k + 2) :=
  hexWordToBin_toNat _ _ _ _

theorem byteAt_eq_ofNat (cs : List Byte) (k : Nat) : byteAt cs k = BitVec.ofNat 8 (columnByte cs k) := by
  rw [← byteAt_toNat, BitVec.ofNat_toNat, BitVec.setWidth_eq]

/-! ## The row of a record -/

section
variable {tt : Byte} (r : Rec)

theorem recordRow_of_data (h : tt.toNat = 0) :
    recordRow .flash tt r = .recDataFlash r ∧ recordRow .verify tt r = .recDataVerify r := by
  simp [recordRow, h]

theorem recordRow_of_eof (h : tt.toNat = 1) :
    recordRow .flash tt r = .recEofFlash r ∧ recordRow .verify tt r = .recEofVerify r := by
  simp [recordRow, h]

theorem recordRow_of_other (m : Mode) (h : 2 ≤ tt.toNat) : recordRow m tt r = .recOther tt r := by
  unfold recordRow
  split
  case h_5 => rfl
  all_goals omega

end

/-! ## The fields of a record -/

/-- The fields that `readRec` reads from a line that is long enough (`readRec_of_length`). -/
def fieldsOf (cs : List Byte) : Rec where
  addr := wordAt cs 3
  data := (List.range (columnByte cs 1)).map fun i => byteAt cs (9 + 2 * i)
  ss := byteAt cs (9 + 2 * columnByte cs 1)

theorem readRec_of_length {cs : List Byte} (h : 11 + 2 * columnByte cs 1 ≤ cs.length) : readRec cs = some (fieldsOf cs) := by
  rw [readRec, byteAt_toNat, if_neg (by omega), if_neg (by omega), fieldsOf]

theorem decode_hexrec_of_length (m : Mode) {cs : List Byte} (h : 11 + 2 * columnByte cs 1 ≤ cs.length) :
    decode (.hexrec m cs) = .ok (recordRow m (byteAt cs 7) (fieldsOf cs)) := by
  rw [decode, decodeRecord, readRec_of_length h]

@[simp] theorem fieldsOf_data_length (cs : List Byte) : (fieldsOf cs).data.length = columnByte cs 1 := by
  rw [fieldsOf, List.length_map, List.length_range]

theorem fieldsOf_data_getD {cs : List Byte} {i : Nat} (h : i < columnByte cs 1) :
    (fieldsOf cs).data.getD i 0 = byteAt cs (9 + 2 * i) := by
  simp [fieldsOf, h]

/-- Settles O3: the record is the one `readRec` reads, `fieldsOf`, and its row is `recordRow` at the value of TT. -/
theorem recordFieldsComeFromTheirColumns : Obligations.RecordFieldsComeFromTheirColumns := by
  intro m cs hlen
  rw [decode_hexrec_of_length m hlen]
  have htt : (byteAt cs 7).toNat = columnByte cs 7 := byteAt_toNat cs 7
  refine ⟨fieldsOf cs, fieldsOf_data_length cs, wordAt_toNat cs 3, fun i hi => ?_, byteAt_toNat cs _, ?_, ?_, ?_, ?_, ?_⟩
  · rw [fieldsOf_data_getD hi, byteAt_toNat]
  · rintro h0 rfl
    rw [(recordRow_of_data _ (htt.trans h0)).1]
  · rintro h0 rfl
    rw [(recordRow_of_data _ (htt.trans h0)).2]
  · rintro h1 rfl
    rw [(recordRow_of_eof _ (htt.trans h1)).1]
  · rintro h1 rfl
    rw [(recordRow_of_eof _ (htt.trans h1)).2]
  · intro h2
    rw [recordRow_of_other _ m (htt.symm ▸ h2), byteAt_eq_ofNat]

/-! ## The rows of the hex digits -/

/-- The 22 rows of R94's table, each with its value. -/
def digitRows : List (Instr × Nibble) :=
  [(.hex0, 0), (.hex1, 1), (.hex2, 2), (.hex3, 3), (.hex4, 4), (.hex5, 5), (.hex6, 6), (.hex7, 7), (.hex8, 8), (.hex9, 9),
    (.hexA, 10), (.hexB, 11), (.hexC, 12), (.hexD, 13), (.hexE, 14), (.hexF, 15),
    (.hexLowerA, 10), (.hexLowerB, 11), (.hexLowerC, 12), (.hexLowerD, 13), (.hexLowerE, 14), (.hexLowerF, 15)]

theorem exec_of_mem_digitRows {p : Instr × Nibble} (hp : p ∈ digitRows) (s : State) : exec p.1 s = .next (digitResult p.2 s) := by
  fin_cases hp <;> rfl

theorem exec_hexNonhex (c : Byte) (s : State) : exec (.hexNonhex c) s = .next (digitResult 0 s) := rfl

theorem exec_hexNibbleToDec (c : Byte) (s : State) : exec (.hexNibbleToDec c) s = .next (digitResult (hexval c) s) := rfl

/-- A character has a row of the table, at its own value; or it is no hex digit, and has the default row and the value 0. -/
theorem decodeDigit_row (c : Byte) :
    (decodeDigit c, hexval c) ∈ digitRows ∨ (decodeDigit c = .hexNonhex c ∧ hexval c = 0) := by
  unfold decodeDigit
  split
  case h_23 =>
    refine .inr ⟨rfl, ?_⟩
    simp only [imp_false] at *
    rw [hexval, if_neg (by omega), if_neg (by omega), if_neg (by omega)]
  all_goals
    rename_i hc
    exact .inl (by simp [hexval, hc, digitRows])

theorem exec_decodeDigit (c : Byte) (s : State) : exec (decodeDigit c) s = .next (digitResult (hexval c) s) := by
  obtain hrow | ⟨hdefault, hzero⟩ := decodeDigit_row c
  · exact exec_of_mem_digitRows hrow s
  · rw [hdefault, hzero, exec_hexNonhex]

/-- Settles O7: row by row (`exec_of_mem_digitRows`), and for a character by the row it decodes to (`decodeDigit_row`). -/
theorem hexDigitsDecodeByTheTable : Obligations.HexDigitsDecodeByTheTable :=
  ⟨fun s => ⟨fun _ hp => exec_of_mem_digitRows hp s, fun c => exec_hexNonhex c s⟩,
    fun c s => ⟨decodeDigit c, hexval c, rfl, hexval_toNat c, exec_decodeDigit c s, exec_hexNibbleToDec c s⟩⟩

end Sys2Proof.Machine
end

section
/-! PROOFS. The Line Reader (spec/42_line_reader.md): what each byte class does to the line. The branches of `terminator` and of class OTHER get one
equation each, under the branch's own condition, and the statements follow from those. -/

namespace Sys2Proof.Machine

section
variable {s : State}

/-! ## Classes -/

/-- A line of no characters is of class EMPTY (R92), whatever stale characters the Line Buffer holds. -/
theorem decode_lineText_of_empty (h : s.lineLen = 0) : decode (.line (lineText s)) = .ok .lineEmpty := by
  have hnil : lineText s = [] := by rw [lineText, h, List.take_zero]
  rw [hnil]
  rfl

/-! ## A line terminator -/

theorem emit_strCrlf : emit strCrlf = [.instr (.sendByte 0x0D), .instr (.sendByte 0x0A)] := rfl

theorem terminator_of_empty (h : s.lineLen = 0) : terminator s = setResult (.bool false) s :=
  if_pos h

theorem terminator_of_record (hlen : s.lineLen ≠ 0) (hcolon : byteOf s.line 0 = chColon) : terminator s = completeLine s := by
  rw [terminator, if_neg hlen, if_pos hcolon]

theorem terminator_of_command (hlen : s.lineLen ≠ 0) (hcolon : byteOf s.line 0 ≠ chColon) :
    terminator s = push [.instr (.sendByte 0x0D), .instr (.sendByte 0x0A), .micro .lineEnd] s := by
  rw [terminator, if_neg hlen, if_neg hcolon, emit_strCrlf]
  rfl

/-- CR and LF are one operation (R155). -/
theorem exec_terminator {i : Instr} (hi : i = .byteCr ∨ i = .byteLf) (s : State) : exec i s = .next (terminator s) := by
  obtain rfl | rfl := hi <;> rfl

/-! ## Any other byte -/

theorem exec_byteOther_of_room (b : Byte) (h : s.lineLen < s.cfg.lineCap) :
    exec (.byteOther b) s = .next (setResult (.bool false) { s with line := s.line.set s.lineLen b, lineLen := s.lineLen + 1 }) :=
  if_pos h

end

/-! ## The statements -/

/-- Settles O11: the completed line has length 0, and such a line decodes to class EMPTY (`decode_lineText_of_empty`). -/
theorem escCompletesAnEmptyLine : Obligations.EscCompletesAnEmptyLine :=
  fun _ => ⟨_, rfl, rfl, decode_lineText_of_empty rfl⟩

/-- Settles O12: both bytes run `terminator` (`exec_terminator`), and each clause is the equation of one of its branches. -/
theorem terminatorCompletesTheLine : Obligations.TerminatorCompletesTheLine := by
  intro i s hi
  rw [exec_terminator hi]
  refine ⟨fun hempty => ?_, fun hlen hcolon => ?_, fun hlen hcolon => ?_, rfl⟩
  · rw [terminator_of_empty hempty, setResult]
  · rw [terminator_of_record hlen hcolon, completeLine]
  · rw [terminator_of_command hlen hcolon]
    rfl

/-- Settles O13: the branch of class OTHER where there is room (`exec_byteOther_of_room`). -/
theorem otherByteIsStoredWhileThereIsRoom : Obligations.OtherByteIsStoredWhileThereIsRoom :=
  fun b _ hroom => exec_byteOther_of_room b hroom

end Sys2Proof.Machine
end

section
/-! PROOFS. The Hex Decoder (spec/43_hex_decoder.md): the conversions from text. Each operation writes its value as the result, and the value of a
longer text is made of the values of its parts, the most significant first. -/

namespace Sys2Proof.Machine

/-! ## The operations -/

theorem exec_hexByteToDec (c1 c0 : Byte) (s : State) :
    exec (.hexByteToDec c1 c0) s = .next (setResult (.byte (hexByteToBin c1 c0)) s) := rfl

theorem exec_hexWordToDec (c3 c2 c1 c0 : Byte) (s : State) :
    exec (.hexWordToDec c3 c2 c1 c0) s = .next (setResult (.word (hexWordToBin c3 c2 c1 c0)) s) := rfl

/-! ## The weights -/

/-- The definition of R173: the first character counts 16 times. -/
theorem hexByteToBin_toNat_of_nibbles (c1 c0 : Byte) :
    (hexByteToBin c1 c0).toNat = (hexval c1).toNat * 16 + (hexval c0).toNat := by
  rw [hexByteToBin, append_toNat]; omega

/-- The definition of R175: the first two characters count 256 times. -/
theorem hexWordToBin_toNat_of_bytes (c3 c2 c1 c0 : Byte) :
    (hexWordToBin c3 c2 c1 c0).toNat = (hexByteToBin c3 c2).toNat * 256 + (hexByteToBin c1 c0).toNat := by
  rw [hexWordToBin, append_toNat]; omega

/-! ## The statement -/

/-- Settles O8: the values are those of `hexval`, `hexByteToBin` and `hexWordToBin`, and their weights are the two lemmas above. -/
theorem hexTextConvertsMostSignificantFirst : Obligations.HexTextConvertsMostSignificantFirst :=
  fun c3 c2 c1 c0 s =>
    ⟨hexval c3, hexval c2, hexval c1, hexval c0, hexByteToBin c3 c2, hexByteToBin c1 c0, hexWordToBin c3 c2 c1 c0,
      exec_hexNibbleToDec c3 s, exec_hexNibbleToDec c2 s, exec_hexNibbleToDec c1 s, exec_hexNibbleToDec c0 s,
      exec_hexByteToDec c3 c2 s, hexByteToBin_toNat_of_nibbles c3 c2,
      exec_hexByteToDec c1 c0 s, hexByteToBin_toNat_of_nibbles c1 c0,
      exec_hexWordToDec c3 c2 c1 c0 s, hexWordToBin_toNat_of_bytes c3 c2 c1 c0⟩

end Sys2Proof.Machine
end

section
/-! PROOFS. The page and the flash (spec/44_page_flash.md): what `reset_page` does to the Page Buffer (R191). -/

namespace Sys2Proof.Machine

theorem exec_resetPage (s : State) : exec .resetPage s = .next (clearPage s) := rfl

/-- The erased-byte value of R191 as a number, and the whole frame: no field but the Page Buffer changes. -/
theorem clearPage_eq (s : State) : clearPage s = { s with page := List.replicate s.cfg.pageSize 0xFF } := rfl

/-- Settles O30: `reset_page` runs `clearPage`, whose byte is 0xFF. -/
theorem resetPageErasesTheBuffer : Obligations.ResetPageErasesTheBuffer := by
  intro s
  rw [exec_resetPage, clearPage_eq]

end Sys2Proof.Machine
end

section
/-! PROOFS. The Transport (spec/41_transport.md): its operations and handlers, and the two rings as queues. -/

namespace Sys2Proof.Machine

/-! ## The operations -/

section
variable {s : State}

theorem takeRx_of_empty (h : s.rxHead = s.rxTail) : takeRx s = setResult .noByte s := if_pos h

theorem takeRx_of_byte (h : s.rxHead ≠ s.rxTail) : takeRx s =
    kick { s with result := .byte (byteOf s.rxb s.rxTail), rxTail := nextCursor s.rxTail s.cfg.rxSlots } := if_neg h

theorem exec_sendByte_of_room (b : Byte) (h : nextCursor s.txHead s.cfg.txSlots ≠ s.txTail) :
    exec (.sendByte b) s = .next (storeTx b s) := by
  have hfull : txFull s = false := decide_eq_false h
  rw [exec, execSendByte, hfull]
  rfl

theorem exec_sendByte_of_full (b : Byte) (h : nextCursor s.txHead s.cfg.txSlots = s.txTail) :
    exec (.sendByte b) s = .next (hold [.instr (.sendByte b)] s) := by
  have hfull : txFull s = true := decide_eq_true h
  rw [exec, execSendByte, hfull, if_pos rfl]

theorem exec_receiveByte_of_empty (h : s.rxHead = s.rxTail) :
    exec .receiveByte s = .next { s with result := .noByte } := by
  rw [exec, execReceiveByte, masked, takeRx_of_empty (s := { s with ie := false }) h]
  rfl

theorem exec_receiveByte_of_byte (h : s.rxHead ≠ s.rxTail) : exec .receiveByte s = .next { s with
    result := .byte (byteOf s.rxb s.rxTail), rxTail := nextCursor s.rxTail s.cfg.rxSlots, wdtElapsed := 0 } := by
  rw [exec, execReceiveByte, masked, takeRx_of_byte (s := { s with ie := false }) h]
  rfl

theorem exec_available (s : State) :
    exec .available s = .next { s with result := .bool (!decide (s.rxHead = s.rxTail)) } := rfl

theorem exec_flush_of_empty (h : s.txHead = s.txTail) : exec .flush s = .next s := if_pos h

theorem exec_flush_of_bytes (h : s.txHead ≠ s.txTail) : exec .flush s = .next (hold [.instr .flush] s) := if_neg h

/-- Settles O18: the two branches of `send_byte`. -/
theorem sendByteStoresOrHoldsTheCaller : Obligations.SendByteStoresOrHoldsTheCaller :=
  fun b _ => ⟨fun hroom => exec_sendByte_of_room b hroom, fun hfull => exec_sendByte_of_full b hfull⟩

/-- Settles O19: the two branches of `receive_byte`. -/
theorem receiveByteTakesTheOldestByte : Obligations.ReceiveByteTakesTheOldestByte :=
  fun _ => ⟨exec_receiveByte_of_empty, exec_receiveByte_of_byte⟩

/-- Settles O20: each read writes its result, and the mask is restored. -/
theorem availableAndClockAreReads : Obligations.AvailableAndClockAreReads := by
  intro s
  refine ⟨rfl, fun hempty => ?_, fun hbyte => ?_⟩
  · rw [exec_available, decide_eq_true hempty, Bool.not_true]
  · rw [exec_available, decide_eq_false hbyte, Bool.not_false]

/-- Settles O21: the two branches of `flush`, and `idle`. -/
theorem flushAndIdleHoldTheCaller : Obligations.FlushAndIdleHoldTheCaller :=
  fun _ => ⟨exec_flush_of_empty, exec_flush_of_bytes, rfl⟩

/-! ## Cursors -/

/-- A cursor below the last slot advances by one. -/
theorem nextCursor_of_lt {c n : Nat} (h : c + 1 < n) : nextCursor c n = c + 1 := Nat.mod_eq_of_lt h

/-- The last slot is followed by the first. -/
theorem nextCursor_last {n : Nat} (h : 0 < n) : nextCursor (n - 1) n = 0 := by
  rw [nextCursor, Nat.sub_add_cancel h, Nat.mod_self]

/-- Settles O23: the cursor advance below the last slot and at it, and the writes of `transport_init`. -/
theorem cursorAdvanceAndTransportInit : Obligations.CursorAdvanceAndTransportInit := by
  refine fun s => ⟨fun c n _ hlt => ?_, fun n hn => ?_, rfl⟩
  · rw [exec, execNext, nextCursor_of_lt hlt]
    rfl
  · rw [exec, execNext, nextCursor_last (Nat.lt_of_lt_of_le Nat.zero_lt_two hn)]
    rfl

/-! ## Critical sections -/

/-- The accesses of a critical body, in order. -/
def accesses (body : List Access) (s : State) : State := body.foldl (fun u x => access x u) s

theorem exec_critical (body : List Access) (s : State) : exec (.critical body) s = .next (masked (accesses body) s) := rfl

/-- An access changes neither the mask, nor the flash, nor the main flow. -/
theorem access_frame (x : Access) (s : State) :
    (access x s).ie = s.ie ∧ (access x s).flash = s.flash ∧ (access x s).main = s.main := by
  cases x with
  | takeRx =>
    simp only [access]
    rcases takeRx_cases s with ⟨-, h⟩ | ⟨-, h⟩ <;> rw [h] <;> exact ⟨rfl, rfl, rfl⟩
  | putTx b =>
    simp only [access]
    split <;> exact ⟨rfl, rfl, rfl⟩
  | readErr | readMs | testAvailable | testDrained | kick => exact ⟨rfl, rfl, rfl⟩

theorem accesses_frame (body : List Access) (s : State) :
    (accesses body s).flash = s.flash ∧ (accesses body s).main = s.main := by
  induction body generalizing s with
  | nil => exact ⟨rfl, rfl⟩
  | cons x body ih =>
    obtain ⟨-, hflash, hmain⟩ := access_frame x s
    exact ⟨(ih (access x s)).1.trans hflash, (ih (access x s)).2.trans hmain⟩

theorem setMask_of_eq {b : Bool} (h : s.ie = b) : { s with ie := b } = s := by
  subst h
  rfl

/-- A body after its first access: the mask that the second section saves is the one that the first restored. -/
theorem masked_accesses_cons (x : Access) (body : List Access) (s : State) :
    masked (accesses (x :: body)) s = masked (accesses body) (masked (accesses [x]) s) := by
  have hmask : { (access x { s with ie := false }) with ie := false } = access x { s with ie := false } :=
    setMask_of_eq (access_frame x { s with ie := false }).1
  show { accesses body (access x { s with ie := false }) with ie := s.ie } =
    { accesses body { (access x { s with ie := false }) with ie := false } with ie := s.ie }
  rw [hmask]

theorem exec_critical_putTx_of_full (b : Byte) (h : nextCursor s.txHead s.cfg.txSlots = s.txTail) :
    exec (.critical [.putTx b]) s = .next { s with result := .bool false } := by
  have haccess : access (.putTx b) { s with ie := false } = { s with ie := false, result := .bool false } :=
    if_pos (decide_eq_true h)
  rw [exec_critical, masked, accesses, List.foldl_cons, haccess]
  rfl

theorem exec_critical_putTx_of_room (b : Byte) (h : nextCursor s.txHead s.cfg.txSlots ≠ s.txTail) :
    exec (.critical [.putTx b]) s = .next { s with
      txb := s.txb.set s.txHead b, txHead := nextCursor s.txHead s.cfg.txSlots, wdtElapsed := 0, result := .bool true } := by
  have haccess : access (.putTx b) { s with ie := false } = setResult (.bool true) (storeTx b { s with ie := false }) :=
    if_neg fun hfull => h (of_decide_eq_true hfull)
  rw [exec_critical, masked, accesses, List.foldl_cons, haccess]
  rfl

/-- Settles O22: each single access is the operation whose body it is, and a longer body goes on from the state of its first access
(`masked_accesses_cons`). -/
theorem criticalSectionRestoresTheMask : Obligations.CriticalSectionRestoresTheMask := by
  intro s
  refine ⟨fun body => ⟨_, rfl, rfl, accesses_frame body _⟩, rfl, rfl, rfl, rfl, rfl, rfl, rfl,
    fun b hfull => exec_critical_putTx_of_full b hfull, fun b hroom => exec_critical_putTx_of_room b hroom,
    fun x body => ⟨_, rfl, rfl, ?_⟩⟩
  exact congrArg _ (masked_accesses_cons x body s)

/-! ## The handlers -/

/-- A handler that can start, or that runs, ends with its body's effect. -/
theorem runHandler_of_pending {h : Source} (body : State → State) (hp : pending h s = true)
    (hin : s.inHandler = some h ∨ (s.ie = true ∧ s.inHandler = none)) :
    ∃ u, runHandler h body s = exitHandler (body u) ∧ (u = s ∨ u = enterHandler h s) := by
  obtain hin | ⟨hie, hnone⟩ := hin
  · exact ⟨s, if_pos hin, .inl rfl⟩
  · have hserve : canServe h s = true := by rw [canServe, hp, hie, hnone]; rfl
    have hout : s.inHandler ≠ some h := by rw [hnone]; exact nofun
    exact ⟨_, (if_neg hout).trans (if_pos hserve), .inr rfl⟩

theorem exec_rxHandler_of_room (hp : s.rxPend = true) (hin : s.inHandler = some .rx ∨ (s.ie = true ∧ s.inHandler = none))
    (h : nextCursor s.rxHead s.cfg.rxSlots ≠ s.rxTail) : exec .rxHandler s = .next { s with
      err := latchReports s.err s.rxOvr s.rxFe, rxPend := false, rxb := s.rxb.set s.rxHead s.rxByte,
      rxHead := nextCursor s.rxHead s.cfg.rxSlots, wdtElapsed := 0, held := false, inHandler := none, ie := true } := by
  obtain ⟨u, hu, hus⟩ := runHandler_of_pending (h := .rx) rxBody hp hin
  have hfull : rxFull { u with err := latchReports u.err u.rxOvr u.rxFe, rxPend := false } = false := by
    obtain rfl | rfl := hus <;> exact decide_eq_false h
  rw [exec, execRxHandler, hu, rxBody]
  simp only [hfull, Bool.false_eq_true, if_false]
  obtain rfl | rfl := hus <;> rfl

theorem exec_rxHandler_of_full (hp : s.rxPend = true) (hin : s.inHandler = some .rx ∨ (s.ie = true ∧ s.inHandler = none))
    (h : nextCursor s.rxHead s.cfg.rxSlots = s.rxTail) : exec .rxHandler s = .next { s with
      err := latchOverflow (latchReports s.err s.rxOvr s.rxFe), rxPend := false, held := false, inHandler := none,
      ie := true } := by
  obtain ⟨u, hu, hus⟩ := runHandler_of_pending (h := .rx) rxBody hp hin
  have hfull : rxFull { u with err := latchReports u.err u.rxOvr u.rxFe, rxPend := false } = true := by
    obtain rfl | rfl := hus <;> exact decide_eq_true h
  rw [exec, execRxHandler, hu, rxBody]
  simp only [hfull, if_true]
  obtain rfl | rfl := hus <;> rfl

theorem exec_txHandler_of_pending (hrdy : s.txRdy = true) (hne : s.txHead ≠ s.txTail)
    (hin : s.inHandler = some .tx ∨ (s.ie = true ∧ s.inHandler = none)) :
    exec .txHandler s = .next (exitHandler (txBody s)) := by
  have hp : pending .tx s = true := by rw [pending, hrdy, decide_eq_false hne]; rfl
  obtain ⟨u, hu, hus⟩ := runHandler_of_pending txBody hp hin
  rw [exec, execTxHandler, hu]
  obtain rfl | rfl := hus <;> rfl

theorem exec_tickHandler_of_pending (hp : s.tickPend = true)
    (hin : s.inHandler = some .tick ∨ (s.ie = true ∧ s.inHandler = none)) :
    exec .tickHandler s = .next (exitHandler (tickBody s)) := by
  obtain ⟨u, hu, hus⟩ := runHandler_of_pending (h := .tick) tickBody hp hin
  rw [exec, execTickHandler, hu]
  obtain rfl | rfl := hus <;> rfl

/-- Inside a handler the processor's step is the handler, whether its move is named or is the default. -/
theorem step_handler {h : Source} (hin : s.inHandler = some h) :
    (∀ later, s.env = .cpu :: later → step s = exec (handlerInstr h) { s with env := later }) ∧
      (s.env = [] → step s = exec (handlerInstr h) s) := by
  refine ⟨fun later henv => ?_, fun henv => ?_⟩
  · rw [step_of_env henv]
    exact cpuStep_handler hin
  · have hcpu : defaultMove s = some .cpu := by rw [defaultMove, hin]; rfl
    rw [step_of_default henv hcpu]
    exact cpuStep_handler hin

/-- Settles O24: the two branches of `rx_handler`, and `step_handler`. -/
theorem rxHandlerStoresOrDropsTheByte : Obligations.RxHandlerStoresOrDropsTheByte :=
  fun _ hp hin => ⟨exec_rxHandler_of_room hp hin, exec_rxHandler_of_full hp hin, step_handler⟩

/-- Settles O25: the body of `tx_handler`, and `step_handler`. -/
theorem txHandlerSendsTheOldestByte : Obligations.TxHandlerSendsTheOldestByte :=
  fun _ hrdy hne hin => ⟨exec_txHandler_of_pending hrdy hne hin, step_handler⟩

/-- Settles O26: the body of `tick_handler`, and `step_handler`. -/
theorem tickHandlerAdvancesTheClock : Obligations.TickHandlerAdvancesTheClock :=
  fun _ hp hin => ⟨exec_tickHandler_of_pending hp hin, step_handler⟩

end

/-! ## Serving a source -/

section
variable {s : State}

theorem runHandler_of_not_servable {h : Source} (body : State → State) (hin : s.inHandler ≠ some h) (hc : canServe h s = false) :
    runHandler h body s = s := by
  rw [runHandler, if_neg hin, hc]
  rfl

theorem exec_handlerInstr_of_not_servable {h : Source} (hin : s.inHandler ≠ some h) (hc : canServe h s = false) :
    exec (handlerInstr h) s = .next s := by
  cases h <;> exact congrArg _ (runHandler_of_not_servable _ hin hc)

theorem canServe_of_masked (h : Source) (hm : s.ie = false ∨ s.inHandler ≠ none) : canServe h s = false := by
  obtain hie | hin := hm
  · rw [canServe, hie, Bool.and_false, Bool.false_and]
  · rw [canServe, Option.isNone_eq_false_iff.2 (Option.isSome_iff_ne_none.2 hin), Bool.and_false]

theorem canServe_of_not_pending {h : Source} (hp : pending h s = false) : canServe h s = false := by
  rw [canServe, hp, Bool.false_and, Bool.false_and]

theorem pending_iff (h : Source) (s : State) : pending h s = true ↔
    (h = .rx ∧ s.rxPend = true) ∨ (h = .tx ∧ s.txRdy = true ∧ s.txHead ≠ s.txTail) ∨ (h = .tick ∧ s.tickPend = true) := by
  cases h <;> simp [pending]

theorem canServe_of_open {h : Source} (hie : s.ie = true) (hin : s.inHandler = none) : canServe h s = pending h s := by
  rw [canServe, hie, hin, Option.isNone_none, Bool.and_true, Bool.and_true]

/-- The arbiter's move: it serves a source that can be served. -/
theorem step_serve_of_servable {h : Source} {later : List Move} (henv : s.env = .serve h :: later) (hc : canServe h s = true) :
    step s = .next { s with env := later, ie := false, inHandler := some h } := by
  rw [step_of_env henv]
  exact congrArg _ (if_pos hc)

/-- The arbiter's move changes nothing where the source cannot be served. -/
theorem step_serve_of_not_servable {h : Source} {later : List Move} (henv : s.env = .serve h :: later) (hc : canServe h s = false) :
    step s = .next { s with env := later } := by
  rw [step_of_env henv]
  exact congrArg _ (if_neg (Bool.eq_false_iff.1 hc))

/-- A handler that runs ends with the machine out of it, and leaves the main flow where it stopped. -/
theorem exec_handlerInstr_frame {h : Source} (hin : s.inHandler = some h) : ∃ t, exec (handlerInstr h) s = .next t ∧
    t.inHandler = none ∧ t.ie = true ∧ t.held = false ∧ t.main = s.main ∧ t.flash = s.flash ∧ t.page = s.page ∧
    t.line = s.line ∧ t.status = s.status := by
  cases h with
  | rx =>
    have hbody : (rxBody s).main = s.main ∧ (rxBody s).flash = s.flash ∧ (rxBody s).page = s.page ∧
        (rxBody s).line = s.line ∧ (rxBody s).status = s.status := by
      unfold rxBody
      simp only
      split <;> exact ⟨rfl, rfl, rfl, rfl, rfl⟩
    exact ⟨exitHandler (rxBody s), congrArg Host.Outcome.next (if_pos hin), rfl, rfl, rfl, hbody⟩
  | tx =>
    exact ⟨exitHandler (txBody s), congrArg Host.Outcome.next (if_pos hin), rfl, rfl, rfl, rfl, rfl, rfl, rfl, rfl⟩
  | tick =>
    exact ⟨exitHandler (tickBody s), congrArg Host.Outcome.next (if_pos hin), rfl, rfl, rfl, rfl, rfl, rfl, rfl, rfl⟩

end

/-- Settles O27: what cannot be served is not served (`exec_handlerInstr_of_not_servable`, `step_serve_of_not_servable`), what can be is entered masked,
and a handler's step ends it (`exec_handlerInstr_frame`). -/
theorem handlersEnterMaskedAndDoNotNest : Obligations.HandlersEnterMaskedAndDoNotNest := by
  refine ⟨fun s hm => ?_, fun s => ?_, fun s h later henv hie hin => ?_, fun s h later henv hm => ?_, fun s h later henv hin => ?_⟩
  · exact ⟨fun hin => exec_handlerInstr_of_not_servable (h := .rx) hin (canServe_of_masked _ hm),
      fun hin => exec_handlerInstr_of_not_servable (h := .tx) hin (canServe_of_masked _ hm),
      fun hin => exec_handlerInstr_of_not_servable (h := .tick) hin (canServe_of_masked _ hm)⟩
  · refine ⟨fun hin hp => exec_handlerInstr_of_not_servable (h := .rx) hin (canServe_of_not_pending hp), fun hin hp => ?_,
      fun hin hp => exec_handlerInstr_of_not_servable (h := .tick) hin (canServe_of_not_pending hp)⟩
    refine exec_handlerInstr_of_not_servable (h := .tx) hin (canServe_of_not_pending ?_)
    obtain hp | hp := hp <;> simp [pending, hp]
  · rw [← pending_iff]
    refine ⟨fun hp => step_serve_of_servable henv ((canServe_of_open hie hin).trans hp), fun hp => ?_⟩
    exact step_serve_of_not_servable henv ((canServe_of_open hie hin).trans (Bool.eq_false_iff.2 hp))
  · exact step_serve_of_not_servable henv (canServe_of_masked h hm)
  · rw [(step_handler hin).1 later henv]
    exact exec_handlerInstr_frame (s := { s with env := later }) hin

end Sys2Proof.Machine
end

section
/-! PROOFS. What a step can do, said once: a move of the environment, a handler run to its exit, or one task of the main flow. -/

namespace Sys2Proof.Machine

/-! ## The three kinds of step -/

/-- The state that a move finds: the move is off the list of moves. -/
def taken (s : State) : State := { s with env := s.env.tail }

/-- The state that a task of the main flow finds: its move and the task itself are taken off. -/
def started (k : List Task) (s : State) : State := { taken s with main := k }

theorem taken_of_env {s : State} {m : Move} {later : List Move} (h : s.env = m :: later) :
    taken s = { s with env := later } := by rw [taken, h, List.tail_cons]

theorem taken_of_default {s : State} (h : s.env = []) : taken s = s := by
  have hnil : s.env.tail = s.env := by rw [h, List.tail_nil]
  rw [taken, hnil]

/-- The kinds of step, each with the state it makes. Waiting is the move of the environment that changes nothing. -/
inductive StepOf (s : State) : State → Prop
  | environment (m : Move) : StepOf s (envMove m (taken s))
  | handler {t : State} (h : Source) (inside : s.inHandler = some h) (he : exec (handlerInstr h) (taken s) = .next t) :
      StepOf s t
  | task {t : State} (u : Task) (k : List Task) (hr : mainRuns s u) (hm : s.main = u :: k)
      (he : runTask u (started k s) = .next t) : StepOf s t

theorem cpuStep_stepOf {s t : State} (hc : cpuMoves s) (h : cpuStep (taken s) = .next t) : StepOf s t := by
  cases hh : s.inHandler with
  | some src => exact .handler src hh ((cpuStep_handler (s := taken s) hh).symm.trans h)
  | none =>
    have hmain : mainStep (taken s) = .next t := by rwa [cpuStep, show (taken s).inHandler = none from hh] at h
    unfold mainStep at hmain
    split at hmain
    · cases hmain
      exact .environment .cpu
    · rename_i hheld
      split at hmain
      · cases hmain
        exact .environment .cpu
      · rename_i u k hm
        exact .task u k ⟨hc, hh, Bool.eq_false_iff.2 hheld, k, hm⟩ hm hmain

theorem moveStep_stepOf {s t : State} {m : Move} (hc : m = .cpu → cpuMoves s) (h : moveStep m (taken s) = .next t) :
    StepOf s t := by
  cases m with
  | cpu => exact cpuStep_stepOf (hc rfl) h
  | _ =>
    cases h
    exact .environment _

/-- Every step is of one of the three kinds. -/
theorem stepOf_of_step {s t : State} (h : step s = .next t) : StepOf s t := by
  unfold step at h
  split at h
  · rename_i m later henv
    rw [← taken_of_env henv] at h
    exact moveStep_stepOf (fun hm => .inl ⟨later, hm ▸ henv⟩) h
  · rename_i henv
    rw [← taken_of_default henv] at h
    split at h
    · rename_i m hd
      rw [taken_of_default henv] at hd
      exact moveStep_stepOf (fun hm => .inr ⟨henv, hm ▸ hd⟩) h
    · cases h
      exact .environment .cpu

/-- A task is an instruction, written down or fetched, or a place inside an operation. -/
theorem runTask_cases {u : Task} {s t : State} (h : runTask u s = .next t) :
    (∃ i, (u = .instr i ∨ ∃ w, u = .fetch w ∧ decode w = .ok i) ∧ exec i s = .next t) ∨
      ∃ p, u = .micro p ∧ runMicro p s = .next t := by
  cases u with
  | instr i => exact .inl ⟨i, .inl rfl, h⟩
  | micro p => exact .inr ⟨p, rfl, h⟩
  | fetch w =>
    simp only [runTask] at h
    split at h
    · rename_i i hd
      exact .inl ⟨i, .inr ⟨w, rfl, hd⟩, h⟩
    · cases h

theorem runs_of_mainRuns {s : State} {u : Task} {i : Instr} (hr : mainRuns s u)
    (hu : u = .instr i ∨ ∃ w, u = .fetch w ∧ decode w = .ok i) : runs s i := by
  obtain rfl | ⟨w, rfl, hd⟩ := hu
  · exact .inl hr
  · exact .inr ⟨w, hr, hd⟩

/-! ## What the environment can do -/

/-- What a move does that is neither a completion of the device, nor a reset, nor a move of the application: it changes the event sources, the watchdog's
elapsed time, or enters a handler. -/
def Background (s t : State) : Prop :=
  t = { s with
    ie := t.ie, inHandler := t.inHandler, rxPend := t.rxPend, rxByte := t.rxByte, rxOvr := t.rxOvr, rxFe := t.rxFe,
    txRdy := t.txRdy, tickPend := t.tickPend, wdtElapsed := t.wdtElapsed }

theorem Background.refl (s : State) : Background s s := rfl

/-- What a move of the environment can do. -/
theorem envMove_cases (m : Move) (s : State) :
    Background s (envMove m s) ∨ envMove m s = completeFlash s ∨
      (∃ kind, envMove m s = deviceReset kind s) ∨
      (s.seq = .app ∧ ∃ second b, envMove m s = writeSig second b s) := by
  cases m with
  | cpu => exact .inl (.refl s)
  | serve h =>
    simp only [envMove]
    split
    · exact .inl rfl
    · exact .inl (.refl s)
  | uartRx b ovr fe =>
    simp only [envMove]
    split
    · exact .inl (.refl s)
    · exact .inl rfl
  | uartTxReady => exact .inl rfl
  | tick => exact .inl rfl
  | elapse dt =>
    simp only [envMove, passTime]
    split
    · split
      · exact .inr (.inr (.inl ⟨.watchdog, rfl⟩))
      · exact .inl rfl
    · exact .inl (.refl s)
  | flashDone => exact .inr (.inl rfl)
  | powerOn => exact .inr (.inr (.inl ⟨.powerOn, rfl⟩))
  | extReset => exact .inr (.inr (.inl ⟨.external, rfl⟩))
  | appSig second b =>
    simp only [envMove]
    split
    · rename_i hs
      exact .inr (.inr (.inr ⟨hs, second, b, rfl⟩))
    · exact .inl (.refl s)
  | appReset =>
    simp only [envMove]
    split
    · exact .inr (.inr (.inl ⟨.watchdog, rfl⟩))
    · exact .inl (.refl s)

theorem deviceReset_atResetEntry (k : ResetKind) (s : State) : atResetEntry (deviceReset k s) :=
  ⟨rfl, rfl, rfl, rfl, rfl, rfl⟩

end Sys2Proof.Machine
end

section
/-! PROOFS. What a task of the main flow leaves as it was: most instructions change none of the fields that the whole-machine rules speak of, and the
others are named (`silentInstr`, `silentPlace`). -/

namespace Sys2Proof.Machine

/-! ## The fields -/

/-- The fields of the whole-machine rules: the parameters, the control state, the error flags, the signature, the flash. -/
structure Effects where
  cfg : Params
  seq : Seq
  err : ErrFlags
  sig0 : Byte
  sig1 : Byte
  flash : Memory

/-- The whole-machine fields of a state. -/
def effects (s : State) : Effects := ⟨s.cfg, s.seq, s.err, s.sig0, s.sig1, s.flash⟩

/-- The fields of the output: the log of the transmitter and the outbound ring. -/
structure TxSide where
  txLog : List Byte
  txHead : Nat
  txTail : Nat
  txb : List Byte

/-- The output fields of a state. -/
def txSide (s : State) : TxSide := ⟨s.txLog, s.txHead, s.txTail, s.txb⟩

/-- The operation of the reboot into the application, or its last place. -/
def appReboot : Task → Bool
  | .instr .forceRebootToApp | .micro (.rebootArm .application) => true
  | _ => false

/-- A change that is none of the whole-machine rules' business: the fields stay, and no reboot into the application is put into the main flow. -/
structure Ordinary (s t : State) : Prop where
  effects : effects t = effects s
  main : ∀ x ∈ t.main, x ∈ s.main ∨ appReboot x = false

/-- An ordinary change that leaves the output as well. -/
structure Silent (s t : State) : Prop extends Ordinary s t where
  output : txSide t = txSide s

section
variable {s t u : State}

theorem Ordinary.cfg (h : Ordinary s t) : t.cfg = s.cfg := congrArg Effects.cfg h.effects
theorem Ordinary.seq (h : Ordinary s t) : t.seq = s.seq := congrArg Effects.seq h.effects
theorem Ordinary.err (h : Ordinary s t) : t.err = s.err := congrArg Effects.err h.effects
theorem Ordinary.sig0 (h : Ordinary s t) : t.sig0 = s.sig0 := congrArg Effects.sig0 h.effects
theorem Ordinary.sig1 (h : Ordinary s t) : t.sig1 = s.sig1 := congrArg Effects.sig1 h.effects
theorem Ordinary.flash (h : Ordinary s t) : t.flash = s.flash := congrArg Effects.flash h.effects

theorem Silent.before (ts : List Task) (hts : ts.any appReboot = false) (he : Machine.effects t = Machine.effects s)
    (ho : txSide t = txSide s) (hm : t.main = ts ++ s.main) : Silent s t where
  effects := he
  output := ho
  main x hx := by
    rw [hm, List.mem_append] at hx
    exact hx.symm.imp_right fun hmem => Bool.eq_false_iff.2 (List.any_eq_false.1 hts x hmem)

theorem Silent.same (he : Machine.effects t = Machine.effects s) (ho : txSide t = txSide s) (hm : t.main = s.main) :
    Silent s t :=
  .before [] rfl he ho hm

theorem Silent.refl (s : State) : Silent s s := .same rfl rfl rfl

theorem Silent.trans (h : Silent s t) (h' : Silent t u) : Silent s u where
  effects := h'.effects.trans h.effects
  output := h'.output.trans h.output
  main x hx := (h'.main x hx).elim (h.main x) .inr

end

/-! ## The shared operations -/

section
variable {s t u : State}

@[simp] theorem any_appReboot_emit (str : List Byte) : (emit str).any appReboot = false := by simp [emit, appReboot]

theorem Silent.takeRx (s : State) : Silent s (takeRx s) := by
  rcases takeRx_cases s with ⟨-, h⟩ | ⟨-, h⟩ <;> rw [h] <;> exact .same rfl rfl rfl

theorem Silent.memRead (a : Nat) (s : State) : Silent s (memRead a s).2 := by
  unfold Machine.memRead
  split <;> exact .same rfl rfl rfl

theorem Silent.raiseFault (c : Cause) (lo hi : Nat) (s : State) : Silent s (raiseFault c lo hi s) :=
  .before _ (any_appReboot_emit _) rfl rfl rfl

theorem Silent.raiseTransport (e : ErrFlags) (s : State) : Silent s (raiseTransport e s) where
  effects := rfl
  output := rfl
  main x hx := by
    have hreport : (emit (textOf s.cfg.strFault e) ++ [Task.instr .forceRebootToBootloader]).any appReboot = false := by
      simp [appReboot]
    exact .inr (Bool.eq_false_iff.2 (List.any_eq_false.1 hreport x hx))

theorem Silent.startLine (s : State) : Silent s (startLine s) := by
  unfold Machine.startLine
  split <;> exact .same rfl rfl rfl

theorem Silent.terminator (s : State) : Silent s (terminator s) := by
  unfold Machine.terminator
  split
  · exact .same rfl rfl rfl
  · split
    · exact .same rfl rfl rfl
    · exact .before (emit strCrlf ++ [.micro .lineEnd]) rfl rfl rfl rfl

theorem Silent.finishData (m : Mode) (r : Rec) (sum : Byte) (s : State) : Silent s (finishData m r sum s) := by
  unfold Machine.finishData
  split
  · exact .before (emit (progressText s.cfg m (s.count + r.data.length)) ++ [.micro .dataDone]) (by simp [appReboot]) rfl rfl rfl
  · exact .raiseFault _ _ _ s

theorem Silent.stageFrom {r : Rec} {data : List Byte} {a : Nat} {sum : Byte} (h : stageFrom r data a sum s = .next t) :
    Silent s t := by
  unfold Machine.stageFrom at h
  split at h
  · cases h
  · rename_i rest a' sum' v hc
    obtain ⟨-, -, hv, -⟩ := stageBytes_crossing hc
    cases h
    rw [hv]
    exact .before [.instr .writeCurrentPage, .instr .resetPage, .micro (.stageResume r rest a' sum')] rfl rfl rfl rfl
  · rename_i sum' v hc
    obtain ⟨-, hv, -⟩ := stageBytes_staged hc
    cases h
    refine Silent.trans (t := v) ?_ (.finishData _ _ _ v)
    rw [hv]
    exact .same rfl rfl rfl

theorem Silent.compareBytes {data : List Byte} {a i j : Nat} {sum sum' : Byte}
    (h : compareBytes data a i sum s = .mismatch j t ∨ compareBytes data a i sum s = .equal sum' t) : Silent s t := by
  induction data generalizing a i sum s with
  | nil =>
    obtain h | h := h <;> cases h
    exact .refl _
  | cons d ds ih =>
    unfold Machine.compareBytes at h
    split at h
    · obtain h | h := h <;> cases h
    · split at h
      · exact (Silent.memRead a s).trans (ih h)
      · obtain h | h := h <;> cases h
        exact .memRead a s

theorem Silent.handler {h : Source} {body : State → State} (hb : ∀ u, Silent u (body u)) (v : State) :
    Silent v (runHandler h body v) := by
  have hexit : ∀ u, Silent u (exitHandler u) := fun u => .same rfl rfl rfl
  rcases runHandler_cases h body v with ⟨-, e⟩ | ⟨-, -, -, e⟩ | ⟨e, -⟩ <;> rw [e]
  · exact (hb v).trans (hexit _)
  · exact Silent.trans (t := enterHandler h v) (.same rfl rfl rfl) ((hb _).trans (hexit _))
  · exact .refl v

end

/-! ## The instructions -/

/-- The instructions that are silent; the others are sending, the handlers of the UART, the initialisations, the handoff, the forced reboots and the
resets. -/
def silentInstr : Instr → Bool
  | .sendByte _ | .critical _ | .rxHandler | .txHandler | .transportInit | .blInit | .bootDecide | .jumpApp => false
  | .forceRebootToBootloader | .forceRebootToApp | .powerOn | .extReset | .wdtExpire => false
  | _ => true

/-- The rows of a record. -/
theorem exec_record_silent {i : Instr} {s t : State} (r : Rec)
    (hi : i = .recDataFlash r ∨ i = .recDataVerify r ∨ i = .recEofFlash r ∨ i = .recEofVerify r ∨ ∃ tt, i = .recOther tt r)
    (h : exec i s = .next t) : Silent s t := by
  obtain rfl | rfl | rfl | rfl | ⟨tt, rfl⟩ := hi
  · simp only [exec, execRecDataFlash] at h
    split at h
    · cases h
      exact .raiseFault _ _ _ s
    · exact .stageFrom h
  · simp only [exec, execRecDataVerify] at h
    split at h
    · cases h
      exact .raiseFault _ _ _ s
    · split at h
      · cases h
      · rename_i hc
        cases h
        exact (Silent.compareBytes (sum' := 0) (.inl hc)).trans (.raiseFault _ _ _ _)
      · rename_i hc
        cases h
        exact (Silent.compareBytes (j := 0) (.inr hc)).trans (.finishData _ _ _ _)
  · simp only [exec, execRecEofFlash] at h
    split at h <;> cases h
    · exact .before [.instr .writeCurrentPage, .instr .resetPage, .instr .rwwReenable, .micro .eofDone] rfl rfl rfl rfl
    · exact .raiseFault _ _ _ s
  · simp only [exec, execRecEofVerify] at h
    split at h <;> cases h
    · exact .same rfl rfl rfl
    · exact .raiseFault _ _ _ s
  · simp only [exec, execRecOther] at h
    split at h <;> cases h
    · exact .same rfl rfl rfl
    · exact .raiseFault _ _ _ s

/-- What a silent instruction does is silent. -/
theorem exec_silent {i : Instr} {s t : State} (hi : silentInstr i = true) (h : exec i s = .next t) : Silent s t := by
  cases i <;> try (cases hi; done)
  case recDataFlash r => exact exec_record_silent r (.inl rfl) h
  case recDataVerify r => exact exec_record_silent r (.inr (.inl rfl)) h
  case recEofFlash r => exact exec_record_silent r (.inr (.inr (.inl rfl))) h
  case recEofVerify r => exact exec_record_silent r (.inr (.inr (.inr (.inl rfl)))) h
  case recOther tt r => exact exec_record_silent r (.inr (.inr (.inr (.inr ⟨tt, rfl⟩)))) h
  all_goals simp only [exec] at h
  case byteCr | byteLf =>
    cases h
    exact .terminator s
  case byteOther b =>
    unfold execByteOther at h
    split at h <;> cases h <;> exact .same rfl rfl rfl
  case lineRecord =>
    cases h
    refine .before [.instr (.processRecord s.mode)] rfl ?_ ?_ ?_ <;> (simp only [push]; split <;> rfl)
  case lineCommand c =>
    cases h
    exact .before [.instr .menu] rfl rfl rfl rfl
  case lineEmpty =>
    cases h
    exact .before _ (any_appReboot_emit _) rfl rfl rfl
  case receiveByte =>
    cases h
    exact Silent.trans (t := { s with ie := false }) (.same rfl rfl rfl)
      ((Silent.takeRx _).trans (.same rfl rfl rfl))
  case flush =>
    unfold execFlush at h
    split at h <;> cases h
    · exact .refl s
    · exact .before [.instr .flush] rfl rfl rfl rfl
  case tickHandler =>
    cases h
    exact .handler (body := tickBody) (fun u => .same rfl rfl rfl) s
  case pollLine =>
    unfold execPollLine at h
    simp only at h
    split at h <;> cases h
    · exact (Silent.startLine s).trans (.raiseTransport _ _)
    · exact (Silent.startLine s).trans (.before [.instr .receiveByte, .micro .pollGot] rfl rfl rfl rfl)
  case writeCurrentPage =>
    cases h
    exact .before (pageWriteSteps s) (by simp [pageWriteSteps, appReboot]) rfl rfl rfl
  case rwwReenable =>
    cases h
    exact .before [.instr (.hwstep .rwwEnable)] rfl rfl rfl rfl
  case hwstep c =>
    cases h
    exact .before [.instr (callInstr c), .instr .flashWait, .micro (.unmask s.ie)] (by cases c <;> rfl) rfl rfl rfl
  case flashReadByte a =>
    unfold execFlashReadByte at h
    split at h <;> cases h
    exact (Silent.memRead a s).trans (.same rfl rfl rfl)
  case flashErasePage a =>
    unfold execFlashErasePage at h
    split at h <;> (try split at h) <;> cases h
    exact .same rfl rfl rfl
  case flashFillWord a w =>
    unfold execFlashFillWord at h
    split at h <;> (try split at h) <;> cases h
    exact .same rfl rfl rfl
  case flashCommitPage a =>
    unfold execFlashCommitPage at h
    split at h <;> (try split at h) <;> (try split at h) <;> cases h
    exact .same rfl rfl rfl
  case flashWait =>
    unfold execFlashWait at h
    split at h <;> cases h
    · exact .before [.instr .flashWait] rfl rfl rfl rfl
    · exact .refl s
  case flashRwwEnable =>
    unfold execFlashRwwEnable at h
    split at h <;> cases h
    exact .same rfl rfl rfl
  case processRecord m =>
    unfold execProcessRecord at h
    split at h <;> cases h
    exact .before [.fetch (.hexrec m (lineText s))] rfl rfl rfl rfl
  case bootMain =>
    cases h
    refine .before ([.instr .bootDecide, .instr .blInit] ++ emit s.cfg.strStartup
      ++ [.micro (.enterPass .flash), .instr (.runPass .flash), .micro (.passEnd .flash)]) (by simp [appReboot]) rfl rfl rfl
  case runPass m =>
    cases h
    refine .before (emit (bannerText s.cfg m) ++ emit s.cfg.strPrompt ++ [.micro .passLoop]) (by simp [appReboot]) ?_ ?_ ?_ <;>
      (cases m <;> rfl)
  case menu =>
    unfold execMenu at h
    split at h <;> cases h
    · exact .refl s
    · refine .before _ ?_ rfl rfl rfl
      rw [List.any_map, List.any_eq_false]
      intro act _
      cases act <;> exact Bool.false_ne_true
  case transportFault e =>
    cases h
    exact .raiseTransport _ _
  all_goals
    cases h
    exact .same rfl rfl rfl

theorem effects_access (x : Access) (s : State) : effects (access x s) = effects s := by
  cases x with
  | takeRx => exact (Silent.takeRx s).effects
  | putTx b =>
    simp only [access]
    split <;> rfl
  | readErr | readMs | testAvailable | testDrained | kick => rfl

theorem effects_accesses (body : List Access) (s : State) : effects (accesses body s) = effects s := by
  induction body generalizing s with
  | nil => rfl
  | cons x body ih => exact (ih (access x s)).trans (effects_access x s)

/-- A critical section touches the outbound ring and the watchdog, and is ordinary. -/
theorem exec_critical_ordinary {body : List Access} {s t : State} (h : exec (.critical body) s = .next t) : Ordinary s t := by
  rw [exec_critical] at h
  cases h
  refine ⟨effects_accesses body { s with ie := false }, fun x hx => .inl ?_⟩
  rwa [masked_main, (accesses_frame body { s with ie := false }).2] at hx

end Sys2Proof.Machine
end

section
/-! PROOFS. The whole-machine rules that one step at a time gives: what changes the flash, the control state, the error flags and the signature. Each is a
case analysis over `StepEffect`, which names the steps that are not silent. -/

namespace Sys2Proof.Machine

/-! ## The steps that are not silent -/

/-- The places that are silent; the others are the entry of a pass, the end of the verify pass, and the inside of a forced reboot. -/
def silentPlace : Micro → Bool
  | .enterPass _ | .passEnd .verify | .rebootSig1 _ | .rebootArm _ => false
  | _ => true

theorem runMicro_silent {p : Micro} {s t : State} (hp : silentPlace p = true) (h : runMicro p s = .next t) : Silent s t := by
  cases p with
  | enterPass m | rebootSig1 stage | rebootArm stage => cases hp
  | pollGot =>
    cases h
    unfold pollGot
    split
    · exact .before [_] rfl rfl rfl rfl
    · exact .same rfl rfl rfl
  | passLoop =>
    cases h
    unfold passLoop
    split
    · exact .before [.instr .pollLine, .micro .passRoute] rfl rfl rfl rfl
    · exact .before [.instr .pollLine, .micro .passRoute] rfl rfl rfl rfl
    · exact .same rfl rfl rfl
    · exact .same rfl rfl rfl
  | passRoute =>
    cases h
    unfold passRoute
    split
    · exact .before [_, .micro .passLoop] rfl rfl rfl rfl
    · exact .before [.micro .passLoop] rfl rfl rfl rfl
  | passEnd m =>
    cases m with
    | verify => cases hp
    | flash =>
      cases h
      unfold passEnd
      split
      · exact .before [.instr .forceRebootToBootloader] rfl rfl rfl rfl
      · exact .before [.instr .msNow, .micro .elapsed, .micro (.enterPass .verify), .instr (.runPass .verify),
          .micro (.passEnd .verify)] rfl rfl rfl rfl
  | elapsed =>
    cases h
    unfold reportElapsed
    split
    · exact .before _ (any_appReboot_emit _) rfl rfl rfl
    · exact .refl s
  | stageResume r rest a sum =>
    simp only [runMicro, stageResume] at h
    split at h
    · exact Silent.trans (t := { s with curPage := pageOf s.cfg a }) (.same rfl rfl rfl) (.stageFrom h)
    · cases h
  | idleLoop =>
    cases h
    exact .before [.micro .idleLoop] rfl rfl rfl rfl
  | spin =>
    cases h
    exact .before [.micro .spin] rfl rfl rfl rfl
  | lineEnd | dataDone | eofDone | unmask saved =>
    cases h
    exact .same rfl rfl rfl

theorem Silent.taken (s : State) : Silent s (taken s) := .same rfl rfl rfl

theorem Silent.started {s : State} {u : Task} {k : List Task} (hm : s.main = u :: k) : Silent s (started k s) :=
  ⟨⟨rfl, fun x hx => .inl (by rw [hm]; exact List.mem_cons_of_mem u hx)⟩, rfl⟩

theorem Silent.background {s t : State} (h : Background s t) : Silent s t := by
  rw [h]
  exact .same rfl rfl rfl

/-- The instructions with an effect of their own on the fields of the whole-machine rules, but for the two handlers and the resets. -/
def ownEffect : Instr → Bool
  | .sendByte _ | .critical _ | .transportInit | .blInit | .bootDecide | .jumpApp => true
  | .forceRebootToBootloader | .forceRebootToApp => true
  | _ => false

/-- What a step can do to the fields of the whole-machine rules. The state `v` is the one the task or handler found. -/
inductive StepEffect (s : State) : State → Prop
  | silent {t : State} (h : Silent s t) : StepEffect s t
  | device : StepEffect s (completeFlash (taken s))
  | reset (kind : ResetKind) : StepEffect s (deviceReset kind (taken s))
  | application (second : Bool) (b : Byte) (hs : s.seq = .app) : StepEffect s (writeSig second b (taken s))
  | receives (v : State) (hv : Silent s v) : StepEffect s (runHandler .rx rxBody v)
  | transmits (v : State) (hv : Silent s v) : StepEffect s (runHandler .tx txBody v)
  | operation {t : State} (i : Instr) (v : State) (hi : ownEffect i = true) (hv : Silent s v) (hr : runs s i)
      (he : exec i v = .next t) : StepEffect s t
  | place {t : State} (p : Micro) (v : State) (hp : silentPlace p = false) (hv : Silent s v) (hst : v.status = s.status)
      (hr : mainRuns s (.micro p)) (he : runMicro p v = .next t) : StepEffect s t

theorem stepEffect_of_exec {i : Instr} {k : List Task} {s t : State} (hv : Silent s (started k s)) (hr : runs s i)
    (he : exec i (started k s) = .next t) : StepEffect s t := by
  by_cases hs : silentInstr i = true
  · exact .silent (hv.trans (exec_silent hs he))
  by_cases ho : ownEffect i = true
  · exact .operation i _ ho hv hr he
  cases i <;> (try exact absurd rfl hs) <;> try exact absurd rfl ho
  case rxHandler =>
    cases he
    exact .receives _ hv
  case txHandler =>
    cases he
    exact .transmits _ hv
  case powerOn =>
    cases he
    exact .reset .powerOn
  case extReset =>
    cases he
    exact .reset .external
  case wdtExpire =>
    cases he
    exact .reset .watchdog

/-- Every step has one of these effects. -/
theorem stepEffect_of_step {s t : State} (h : step s = .next t) : StepEffect s t := by
  cases stepOf_of_step h with
  | environment m =>
    rcases envMove_cases m (taken s) with hb | hd | ⟨kind, hk⟩ | ⟨hs, second, b, hw⟩
    · exact .silent ((Silent.taken s).trans (.background hb))
    · rw [hd]
      exact .device
    · rw [hk]
      exact .reset kind
    · rw [hw]
      exact .application second b hs
  | handler src _ he =>
    cases src <;> cases he
    · exact .receives _ (.taken s)
    · exact .transmits _ (.taken s)
    · exact .silent ((Silent.taken s).trans (.handler (body := tickBody) (fun u => .same rfl rfl rfl) _))
  | task u k hr hm he =>
    obtain ⟨i, hu, hi⟩ | ⟨p, rfl, hp⟩ := runTask_cases he
    · exact stepEffect_of_exec (.started hm) (runs_of_mainRuns hr hu) hi
    · by_cases hs : silentPlace p = true
      · exact .silent ((Silent.started hm).trans (runMicro_silent hs hp))
      · exact .place p _ (Bool.eq_false_iff.2 hs) (.started hm) rfl hr hp

/-! ## The handlers of the UART -/

/-- `rx_handler` adds error flags, and changes nothing else of the whole-machine fields or of the output. -/
theorem runHandler_rx_frame (s : State) : ∃ ovr fe buf,
    effects (runHandler .rx rxBody s) =
      { effects s with err := { ovr := s.err.ovr || ovr, fe := s.err.fe || fe, buf := s.err.buf || buf } } ∧
    txSide (runHandler .rx rxBody s) = txSide s ∧ (runHandler .rx rxBody s).main = s.main ∧
    (runHandler .rx rxBody s).status = s.status := by
  have hbody : ∀ u : State, effects u = effects s → txSide u = txSide s → u.main = s.main → u.status = s.status →
      ∃ ovr fe buf, effects (exitHandler (rxBody u)) =
        { effects s with err := { ovr := s.err.ovr || ovr, fe := s.err.fe || fe, buf := s.err.buf || buf } } ∧
      txSide (exitHandler (rxBody u)) = txSide s ∧ (exitHandler (rxBody u)).main = s.main ∧
      (exitHandler (rxBody u)).status = s.status := by
    intro u he ho hm hst
    have herr : u.err = s.err := congrArg Effects.err he
    unfold rxBody
    simp only
    split
    · refine ⟨u.rxOvr, u.rxFe, true, ?_, ho, hm, hst⟩
      rw [← he, ← herr, Bool.or_true]
      rfl
    · refine ⟨u.rxOvr, u.rxFe, false, ?_, ho, hm, hst⟩
      rw [← he, ← herr, Bool.or_false]
      rfl
  rcases runHandler_cases .rx rxBody s with ⟨-, e⟩ | ⟨-, -, -, e⟩ | ⟨e, -⟩ <;> rw [e]
  · exact hbody s rfl rfl rfl rfl
  · exact hbody (enterHandler .rx s) rfl rfl rfl rfl
  · exact ⟨false, false, false, by simp only [Bool.or_false]; rfl, rfl, rfl, rfl⟩

/-- `tx_handler` changes the output and the watchdog only. -/
theorem runHandler_tx_frame (s : State) :
    effects (runHandler .tx txBody s) = effects s ∧ (runHandler .tx txBody s).main = s.main ∧
      (runHandler .tx txBody s).status = s.status := by
  rcases runHandler_cases .tx txBody s with ⟨-, e⟩ | ⟨-, -, -, e⟩ | ⟨e, -⟩ <;> rw [e] <;> exact ⟨rfl, rfl, rfl⟩

/-! ## The operations with an effect of their own -/

section
variable {i : Instr} {s t : State}

theorem exec_sendByte_cases {b : Byte} (h : exec (.sendByte b) s = .next t) :
    (txFull s = true ∧ t = hold [.instr (.sendByte b)] s) ∨ (txFull s = false ∧ t = storeTx b s) := by
  simp only [exec, execSendByte] at h
  split at h
  · rename_i hf
    cases h
    exact .inl ⟨hf, rfl⟩
  · rename_i hf
    cases h
    exact .inr ⟨Bool.eq_false_iff.2 hf, rfl⟩

theorem exec_sendByte_ordinary {b : Byte} (h : exec (.sendByte b) s = .next t) : Ordinary s t := by
  obtain ⟨-, rfl⟩ | ⟨-, rfl⟩ := exec_sendByte_cases h
  · have hs : Silent s (hold [.instr (.sendByte b)] s) := .before [.instr (.sendByte b)] rfl rfl rfl rfl
    exact hs.toOrdinary
  · exact ⟨rfl, fun x hx => .inl hx⟩

theorem exec_bootDecide_cases (h : exec .bootDecide s = .next t) :
    t = handOver { s with sig0 := 0x00, sig1 := 0x00 } ∨
      t = { s with sig0 := s.cfg.magic0, sig1 := s.cfg.magic1, seq := .blInit } := by
  simp only [exec, execBootDecide] at h
  split at h <;> cases h
  · exact .inl rfl
  · exact .inr rfl

/-- None of them changes the parameters or the flash. -/
theorem exec_ownEffect_frame (hi : ownEffect i = true) (h : exec i s = .next t) : t.cfg = s.cfg ∧ t.flash = s.flash := by
  cases i <;> try (cases hi; done)
  case sendByte b => exact ⟨(exec_sendByte_ordinary h).cfg, (exec_sendByte_ordinary h).flash⟩
  case critical body => exact ⟨(exec_critical_ordinary h).cfg, (exec_critical_ordinary h).flash⟩
  case bootDecide => obtain rfl | rfl := exec_bootDecide_cases h <;> exact ⟨rfl, rfl⟩
  all_goals
    cases h
    exact ⟨rfl, rfl⟩

end

/-- What the places that are not silent do. -/
theorem runMicro_place_cases {p : Micro} {s t : State} (hp : silentPlace p = false) (h : runMicro p s = .next t) :
    (∃ m, p = .enterPass m ∧ t = { s with seq := passSeq m }) ∨
      (p = .passEnd .verify ∧ t = passEnd .verify s) ∨
      (∃ stage, p = .rebootSig1 stage ∧ t = writeRebootSig1 stage s) ∨
      ∃ stage, p = .rebootArm stage ∧ t = enterReboot stage s := by
  cases p <;> try (cases hp; done)
  case enterPass m =>
    cases h
    exact .inl ⟨m, rfl, rfl⟩
  case passEnd m =>
    cases m <;> cases hp
    cases h
    exact .inr (.inl ⟨rfl, rfl⟩)
  case rebootSig1 stage =>
    cases h
    exact .inr (.inr (.inl ⟨stage, rfl, rfl⟩))
  case rebootArm stage =>
    cases h
    exact .inr (.inr (.inr ⟨stage, rfl, rfl⟩))

theorem effects_passEnd (m : Mode) (s : State) : effects (passEnd m s) = effects s := by
  unfold passEnd
  split
  · rfl
  · cases m <;> rfl

/-- None of them changes the error flags, the parameters or the flash. -/
theorem runMicro_place_frame {p : Micro} {s t : State} (hp : silentPlace p = false) (h : runMicro p s = .next t) :
    t.cfg = s.cfg ∧ t.flash = s.flash ∧ t.err = s.err := by
  obtain ⟨m, -, rfl⟩ | ⟨-, rfl⟩ | ⟨stage, -, rfl⟩ | ⟨stage, -, rfl⟩ := runMicro_place_cases hp h
  · exact ⟨rfl, rfl, rfl⟩
  · have he := effects_passEnd .verify s
    exact ⟨congrArg Effects.cfg he, congrArg Effects.flash he, congrArg Effects.err he⟩
  · exact ⟨rfl, rfl, rfl⟩
  · cases stage <;> exact ⟨rfl, rfl, rfl⟩

/-! ## The flash -/

/-- A block write is seen inside the block only. -/
theorem Memory.read_writeBytes_ne {m : Memory} {a x : Nat} {bs : List Byte}
    (h : Memory.read (Memory.writeBytes m a bs) x ≠ Memory.read m x) : a ≤ x ∧ x < a + bs.length := by
  by_contra hx
  exact h (by rw [Memory.read_writeBytes, if_neg hx])

theorem cutPage_cases {s : State} {a : Nat} (h : cutPage s = some a) :
    s.flashOp = some (.erase a) ∨ s.flashOp = some (.commit a) ∨ (s.flashOp = none ∧ ∃ k, s.flashSession = some (a, k)) := by
  unfold cutPage at h
  split at h
  · rename_i ho
    cases h
    exact .inl ho
  · rename_i ho
    cases h
    exact .inr (.inl ho)
  · rename_i ho
    simp only [Option.map_eq_some_iff, Prod.exists, exists_and_right, exists_eq_right] at h
    exact .inr (.inr ⟨ho, h⟩)

/-- Settles O55: the device and a reset are the only steps that write the flash (`StepEffect`), each one page. -/
theorem flashChangesOnlyUnderTheDevice : Obligations.FlashChangesOnlyUnderTheDevice := by
  intro s t x h hx
  cases stepEffect_of_step h with
  | silent hs => exact absurd (congrArg (Memory.read · x) hs.flash) hx
  | device =>
    rcases completeFlash_cases (taken s) with ⟨-, e⟩ | ⟨a, ho, e⟩ | ⟨a, ho, e⟩ <;> rw [e] at hx
    · exact absurd rfl hx
    · obtain ⟨h1, h2⟩ := Memory.read_writeBytes_ne hx
      rw [List.length_replicate] at h2
      exact ⟨a, h1, h2, .inl ho⟩
    · obtain ⟨h1, h2⟩ := Memory.read_writeBytes_ne hx
      rw [window_length] at h2
      exact ⟨a, h1, h2, .inr (.inl ho)⟩
  | reset kind =>
    change Memory.read (cutFlash (taken s)) x ≠ _ at hx
    rcases cutFlash_cases (taken s) with ⟨-, e⟩ | ⟨a, hc, e⟩ <;> rw [e] at hx
    · exact absurd rfl hx
    · obtain ⟨h1, h2⟩ := Memory.read_writeBytes_ne hx
      rw [freeBytes_length] at h2
      refine ⟨a, h1, h2, ?_⟩
      exact (cutPage_cases hc).imp_right (.imp_right fun ⟨ho, hk⟩ => ⟨ho, hk, deviceReset_atResetEntry kind _⟩)
  | application second b hs => cases second <;> exact absurd rfl hx
  | receives v hv =>
    obtain ⟨ovr, fe, buf, he, -⟩ := runHandler_rx_frame v
    exact absurd (congrArg (Memory.read · x) ((congrArg Effects.flash he).trans hv.flash)) hx
  | transmits v hv =>
    exact absurd (congrArg (Memory.read · x) ((congrArg Effects.flash (runHandler_tx_frame v).1).trans hv.flash)) hx
  | operation i v hi hv hr he =>
    exact absurd (congrArg (Memory.read · x) ((exec_ownEffect_frame hi he).2.trans hv.flash)) hx
  | place p v hp hv _ hr he =>
    exact absurd (congrArg (Memory.read · x) ((runMicro_place_frame hp he).2.1.trans hv.flash)) hx

/-! ## The error flags -/

/-- The error flags of a step: kept, added to, or cleared by an initialisation or a reset. -/
theorem step_err {s t : State} (h : step s = .next t) :
    (∃ ovr fe buf, t.err = { ovr := s.err.ovr || ovr, fe := s.err.fe || fe, buf := s.err.buf || buf }) ∨
      runs s .transportInit ∨ runs s .blInit ∨ atResetEntry t := by
  have hkept : t.err = s.err →
      ∃ ovr fe buf, t.err = { ovr := s.err.ovr || ovr, fe := s.err.fe || fe, buf := s.err.buf || buf } := fun e =>
    ⟨false, false, false, by simp only [e, Bool.or_false]⟩
  cases stepEffect_of_step h with
  | silent hs => exact .inl (hkept hs.err)
  | device => rcases completeFlash_cases (taken s) with ⟨-, e⟩ | ⟨a, -, e⟩ | ⟨a, -, e⟩ <;> exact .inl (hkept (by rw [e]; rfl))
  | reset kind => exact .inr (.inr (.inr (deviceReset_atResetEntry kind _)))
  | application second b hs => cases second <;> exact .inl (hkept rfl)
  | receives v hv =>
    obtain ⟨ovr, fe, buf, he, -⟩ := runHandler_rx_frame v
    rw [hv.err] at he
    exact .inl ⟨ovr, fe, buf, congrArg Effects.err he⟩
  | transmits v hv => exact .inl (hkept ((congrArg Effects.err (runHandler_tx_frame v).1).trans hv.err))
  | operation i v hi hv hr he =>
    cases i <;> try (cases hi; done)
    case sendByte b => exact .inl (hkept ((exec_sendByte_ordinary he).err.trans hv.err))
    case critical body => exact .inl (hkept ((exec_critical_ordinary he).err.trans hv.err))
    case transportInit => exact .inr (.inl hr)
    case blInit => exact .inr (.inr (.inl hr))
    case bootDecide => obtain rfl | rfl := exec_bootDecide_cases he <;> exact .inl (hkept hv.err)
    all_goals
      cases he
      exact .inl (hkept hv.err)
  | place p v hp hv _ hr he => exact .inl (hkept ((runMicro_place_frame hp he).2.2.trans hv.err))

/-- Settles O58: where the flags are kept or added to (`step_err`), a set flag stays set. -/
theorem errorFlagsStayLatched : Obligations.ErrorFlagsStayLatched := by
  intro s t h hcleared
  obtain ⟨ovr, fe, buf, e⟩ | hinit := step_err h
  · exfalso
    rw [e] at hcleared
    obtain ⟨h1, h2⟩ | ⟨h1, h2⟩ | ⟨h1, h2⟩ := hcleared <;> rw [h1, Bool.true_or] at h2 <;> exact Bool.noConfusion h2
  · exact hinit

/-! ## The signature and the parameters -/

/-- The parameters never change. -/
theorem step_cfg {s t : State} (h : step s = .next t) : t.cfg = s.cfg := by
  cases stepEffect_of_step h with
  | silent hs => exact hs.cfg
  | device => rcases completeFlash_cases (taken s) with ⟨-, e⟩ | ⟨a, -, e⟩ | ⟨a, -, e⟩ <;> rw [e] <;> rfl
  | reset kind => rfl
  | application second b hs => cases second <;> rfl
  | receives v hv =>
    obtain ⟨ovr, fe, buf, he, -⟩ := runHandler_rx_frame v
    exact (congrArg Effects.cfg he).trans hv.cfg
  | transmits v hv => exact (congrArg Effects.cfg (runHandler_tx_frame v).1).trans hv.cfg
  | operation i v hi hv hr he => exact (exec_ownEffect_frame hi he).1.trans hv.cfg
  | place p v hp hv _ hr he => exact (runMicro_place_frame hp he).1.trans hv.cfg

/-- The signature of a step: kept, or written by one of its owners. -/
theorem step_sig {s t : State} (h : step s = .next t) :
    (t.sig0 = s.sig0 ∧ t.sig1 = s.sig1) ∨ s.seq = .app ∨ atResetEntry t ∨
      (runs s .bootDecide ∧ ((t.sig0 = 0 ∧ t.sig1 = 0) ∨ (t.sig0 = s.cfg.magic0 ∧ t.sig1 = s.cfg.magic1))) ∨
      (∃ stage, runs s (rebootInstr stage) ∧ t.sig0 = (signatureFor s.cfg stage).1 ∧ t.sig1 = s.sig1) ∨
      ∃ stage, mainRuns s (.micro (.rebootSig1 stage)) ∧ t.sig0 = s.sig0 ∧ t.sig1 = (signatureFor s.cfg stage).2 := by
  have hkept : effects t = effects s → t.sig0 = s.sig0 ∧ t.sig1 = s.sig1 := fun he =>
    ⟨congrArg Effects.sig0 he, congrArg Effects.sig1 he⟩
  cases stepEffect_of_step h with
  | silent hs => exact .inl (hkept hs.effects)
  | device => rcases completeFlash_cases (taken s) with ⟨-, e⟩ | ⟨a, -, e⟩ | ⟨a, -, e⟩ <;> rw [e] <;> exact .inl ⟨rfl, rfl⟩
  | reset kind => exact .inr (.inr (.inl (deviceReset_atResetEntry kind _)))
  | application second b hs => exact .inr (.inl hs)
  | receives v hv =>
    obtain ⟨ovr, fe, buf, he, -⟩ := runHandler_rx_frame v
    exact .inl ⟨(congrArg Effects.sig0 he).trans hv.sig0, (congrArg Effects.sig1 he).trans hv.sig1⟩
  | transmits v hv => exact .inl (hkept ((runHandler_tx_frame v).1.trans hv.effects))
  | operation i v hi hv hr he =>
    cases i <;> try (cases hi; done)
    case sendByte b => exact .inl (hkept ((exec_sendByte_ordinary he).effects.trans hv.effects))
    case critical body => exact .inl (hkept ((exec_critical_ordinary he).effects.trans hv.effects))
    case bootDecide =>
      refine .inr (.inr (.inr (.inl ⟨hr, ?_⟩)))
      rw [← hv.cfg]
      exact (exec_bootDecide_cases he).imp (fun e => by rw [e]; exact ⟨rfl, rfl⟩) (fun e => by rw [e]; exact ⟨rfl, rfl⟩)
    case forceRebootToBootloader =>
      cases he
      exact .inr (.inr (.inr (.inr (.inl ⟨.bootloader, hr, rfl, hv.sig1⟩))))
    case forceRebootToApp =>
      cases he
      rw [← hv.cfg]
      exact .inr (.inr (.inr (.inr (.inl ⟨.application, hr, rfl, hv.sig1⟩))))
    all_goals
      cases he
      exact .inl ⟨hv.sig0, hv.sig1⟩
  | place p v hp hv _ hr he =>
    obtain ⟨m, -, rfl⟩ | ⟨-, rfl⟩ | ⟨stage, rfl, rfl⟩ | ⟨stage, -, rfl⟩ := runMicro_place_cases hp he
    · exact .inl ⟨hv.sig0, hv.sig1⟩
    · exact .inl (hkept ((effects_passEnd .verify v).trans hv.effects))
    · rw [← hv.cfg]
      exact .inr (.inr (.inr (.inr (.inr ⟨stage, hr, hv.sig0, rfl⟩))))
    · cases stage <;> exact .inl ⟨hv.sig0, hv.sig1⟩

/-- Settles O59: the owners of `step_sig`, by the stage a forced reboot is for. -/
theorem signatureIsWrittenByItsOwners : Obligations.SignatureIsWrittenByItsOwners := by
  intro s t h
  refine ⟨step_cfg h, fun happ hchanged => ?_⟩
  obtain ⟨h0, h1⟩ | hs | hentry | hdecide | ⟨stage, hr, h0, h1⟩ | ⟨stage, hr, h0, h1⟩ := step_sig h
  · exact absurd hchanged (by simp [h0, h1])
  · exact absurd hs happ
  · exact .inl hentry
  · exact .inr (.inl hdecide)
  · cases stage with
    | bootloader => exact .inr (.inr (.inl ⟨hr, h0, h1⟩))
    | application => exact .inr (.inr (.inr (.inl ⟨hr, h0, h1⟩)))
  · cases stage with
    | bootloader => exact .inr (.inr (.inr (.inr (.inl ⟨hr, h0, h1⟩))))
    | application => exact .inr (.inr (.inr (.inr (.inr ⟨hr, h0, h1⟩))))

end Sys2Proof.Machine
end

section
/-! PROOFS. The invariant `Good`: every instruction, place, handler and move of the environment keeps it. The bricks of Laws/Good.lean are completed
here by the operations they leave out. -/

namespace Sys2Proof.Machine

section
variable {s t : State}

/-! ## Resets -/

/-- The state after a power-up is good for every legal choice of the parameters. -/
theorem good_powerUp {p : Params} (hp : p.legal = true) : Good (State.powerUp p) := by
  have h := hp
  simp only [Params.legal, Bool.and_eq_true, decide_eq_true_eq] at h
  obtain ⟨⟨⟨⟨⟨⟨⟨⟨⟨⟨⟨hrx, htx⟩, -⟩, hpage⟩, -⟩, -⟩, hflash⟩, -⟩, -⟩, -⟩, -⟩, -⟩ := h
  exact {
    legal := hp
    rxHead_lt := Nat.lt_of_lt_of_le Nat.zero_lt_two hrx
    rxTail_lt := Nat.lt_of_lt_of_le Nat.zero_lt_two hrx
    txHead_lt := Nat.lt_of_lt_of_le Nat.zero_lt_two htx
    txTail_lt := Nat.lt_of_lt_of_le Nat.zero_lt_two htx
    rxb_length := List.length_replicate
    txb_length := List.length_replicate
    line_length := List.length_replicate
    lineLen_le := Nat.zero_le _
    page_length := List.length_replicate
    curPage_lt := by
      show 0 * p.pageSize < p.flashSize
      omega
    ms_lt := Nat.two_pow_pos _
    tStart_lt := Nat.two_pow_pos _
    ftemp_length := List.length_replicate
    flash_wf := Memory.wf_nil
    flash_range := fun _ h => nomatch h
    erase_at := fun _ h => nomatch h
    commit_at := fun _ h => nomatch h
    session_at := fun _ _ h => nomatch h
    watchdog := fun h => nomatch h
    handler_masked := fun h => absurd rfl h }

/-- Page 0 starts inside the flash. -/
theorem Good.firstPage_lt (hg : Good s) : 0 * s.cfg.pageSize < s.cfg.flashSize := by
  have hpages := hg.pages
  omega

/-- A reset cuts at most a page of the flash, and every register has its value after a power-up. -/
theorem Good.deviceReset (k : ResetKind) (hg : Good s) : Good (deviceReset k s) := by
  have hcut : Memory.wf (cutFlash s) ∧ ∀ c ∈ cutFlash s, c.1 < s.cfg.flashSize := by
    rcases cutFlash_cases s with ⟨-, e⟩ | ⟨a, hc, e⟩ <;> rw [e]
    · exact ⟨hg.flash_wf, hg.flash_range⟩
    · exact hg.writePage (hg.cutPage_at hc) (freeBytes_length _ _)
  exact { good_powerUp hg.legal with flash_wf := hcut.1, flash_range := hcut.2 }

/-! ## The Transport -/

theorem Good.initTransport (hg : Good s) : Good (initTransport s) :=
  { hg with
    rxHead_lt := Nat.lt_of_lt_of_le Nat.zero_lt_two hg.slots.1
    rxTail_lt := Nat.lt_of_lt_of_le Nat.zero_lt_two hg.slots.1
    txHead_lt := Nat.lt_of_lt_of_le Nat.zero_lt_two hg.slots.2
    txTail_lt := Nat.lt_of_lt_of_le Nat.zero_lt_two hg.slots.2 }

theorem Good.hold (again : List Task) (hg : Good s) : Good (hold again s) := { hg with }

theorem Good.rxBody (hg : Good s) : Good (rxBody s) := by
  have hlatched : Good { s with err := latchReports s.err s.rxOvr s.rxFe, rxPend := false } := { hg with }
  unfold Machine.rxBody
  simp only
  split
  · exact { hlatched with }
  · exact hlatched.storeRx _

theorem Good.txBody (hg : Good s) : Good (txBody s) :=
  { hg.kick with txTail_lt := nextCursor_lt _ (Nat.lt_of_lt_of_le Nat.zero_lt_two hg.slots.2) }

theorem Good.tickBody (hg : Good s) : Good (tickBody s) := { hg with ms_lt := Nat.mod_lt _ (Nat.two_pow_pos _) }

theorem Good.access (x : Access) (hg : Good s) : Good (access x s) := by
  cases x with
  | takeRx => exact hg.takeRx
  | kick => exact hg.kick
  | putTx b =>
    simp only [Machine.access]
    split
    · exact hg.setResult _
    · exact (hg.storeTx b).setResult _
  | readErr | readMs | testAvailable | testDrained => exact hg.setResult _

theorem takeRx_inHandler (s : State) : (takeRx s).inHandler = s.inHandler := by
  rcases takeRx_cases s with ⟨-, h⟩ | ⟨-, h⟩ <;> rw [h] <;> rfl

theorem access_inHandler (x : Access) (s : State) : (access x s).inHandler = s.inHandler := by
  cases x with
  | takeRx => exact takeRx_inHandler s
  | putTx b =>
    simp only [access]
    split <;> rfl
  | readErr | readMs | testAvailable | testDrained | kick => rfl

theorem accesses_inHandler (body : List Access) (s : State) : (accesses body s).inHandler = s.inHandler := by
  induction body generalizing s with
  | nil => rfl
  | cons x body ih => exact (ih (access x s)).trans (access_inHandler x s)

theorem Good.accesses (body : List Access) (hg : Good s) : Good (accesses body s) := by
  induction body generalizing s with
  | nil => exact hg
  | cons x body ih => exact ih (hg.access x)

/-! ## The Line Reader and the passes -/

theorem Good.startLine (hg : Good s) : Good (startLine s) := by
  unfold Machine.startLine
  split
  · exact { hg with lineLen_le := Nat.zero_le _ }
  · exact hg

theorem Good.completeLine (hg : Good s) : Good (completeLine s) := { hg with }

theorem Good.terminator (hg : Good s) : Good (terminator s) := by
  unfold Machine.terminator
  split
  · exact hg.setResult _
  · split
    · exact hg.completeLine
    · exact hg.push _

theorem Good.startPass (m : Mode) (hg : Good s) : Good (startPass m s) := by
  cases m with
  | flash => exact { hg with page_length := List.length_replicate }
  | verify => exact { hg with }

/-! ## Records -/

theorem Good.finishData (m : Mode) (r : Rec) (sum : Byte) (hg : Good s) : Good (finishData m r sum s) := by
  unfold Machine.finishData
  split
  · exact { hg with }
  · exact hg.raiseFault _ _ _

theorem Good.setPage {page : List Byte} (hl : page.length = s.page.length) (hg : Good s) : Good { s with page := page } :=
  { hg with page_length := hl.trans hg.page_length }

theorem Good.stageFrom {r : Rec} {data : List Byte} {a : Nat} {sum : Byte} (hg : Good s)
    (h : stageFrom r data a sum s = .next t) : Good t := by
  unfold Machine.stageFrom at h
  split at h
  · cases h
  · rename_i hc
    obtain ⟨-, -, hv, hl⟩ := stageBytes_crossing hc
    cases h
    rw [hv]
    exact (hg.setPage hl).push _
  · rename_i hc
    obtain ⟨-, hv, hl⟩ := stageBytes_staged hc
    cases h
    rw [hv]
    exact (hg.setPage hl).finishData _ _ _

/-- The page of an address inside the flash starts inside the flash. -/
theorem Good.setCurPage {a : Nat} (ha : inFlash s.cfg a = true) (hg : Good s) : Good { s with curPage := pageOf s.cfg a } :=
  { hg with curPage_lt := Nat.lt_of_le_of_lt (Nat.div_mul_le_self _ _) (of_decide_eq_true ha) }

theorem Good.stageResume {r : Rec} {rest : List Byte} {a : Nat} {sum : Byte} (hg : Good s)
    (h : stageResume r rest a sum s = .next t) : Good t := by
  unfold Machine.stageResume at h
  split at h
  · rename_i ha
    exact (hg.setCurPage ha).stageFrom h
  · cases h

theorem Good.compareBytes {data : List Byte} {a i j : Nat} {sum sum' : Byte} (hg : Good s)
    (h : compareBytes data a i sum s = .mismatch j t ∨ compareBytes data a i sum s = .equal sum' t) : Good t := by
  induction data generalizing a i sum s with
  | nil =>
    obtain h | h := h <;> cases h
    exact hg
  | cons d ds ih =>
    unfold Machine.compareBytes at h
    split at h
    · obtain h | h := h <;> cases h
    · split at h
      · exact ih (hg.memRead a) h
      · obtain h | h := h <;> cases h
        exact hg.memRead a

/-! ## Handoff and forced reboots -/

theorem Good.raiseTransport (e : ErrFlags) (hg : Good s) : Good (raiseTransport e s) := { hg with }

theorem Good.startReboot (stage : Stage) (hg : Good s) : Good (startReboot stage s) := { hg with }

theorem Good.enterReboot (stage : Stage) (hg : Good s) : Good (enterReboot stage s) := by
  have harmed : Good (armReboot s) := Good.armWdt (s := { s with rebootArmed := true }) .short { hg with }
  cases stage with
  | bootloader => exact { harmed with }
  | application => exact { harmed with handler_masked := fun _ => rfl }

/-! ## The flash calls -/

theorem Good.flashErasePage {a : Nat} (hg : Good s) (h : execFlashErasePage a s = .next t) : Good t := by
  unfold execFlashErasePage at h
  split at h
  · cases h
  · rename_i hcall
    split at h <;> cases h
    rename_i hin
    simp only [flashBusy, pageAligned, inFlash, Bool.or_eq_true, Bool.not_eq_true', not_or, decide_eq_false_iff_not,
      Decidable.not_not] at hcall hin
    refine { hg with erase_at := fun b hb => ?_, commit_at := (fun _ h => nomatch h), session_at := (fun _ _ h => nomatch h) }
    cases hb
    exact ⟨hcall.2, hin⟩

/-- The pair a fill may take is that of the session, and lies inside the page. -/
theorem fillPair_eq_some {a base k : Nat} (h : fillPair a s = some (base, k)) :
    s.flashSession = some (base, k) ∧ a = base + 2 * k ∧ 2 * k < s.cfg.pageSize := by
  unfold fillPair at h
  split at h
  · cases h
  · rename_i hs
    split at h <;> cases h
    rename_i hk
    exact ⟨hs, hk⟩

theorem Good.flashFillWord {a : Nat} {w : Word} (hg : Good s) (h : execFlashFillWord a w s = .next t) : Good t := by
  unfold execFlashFillWord at h
  split at h
  · cases h
  · split at h <;> cases h
    rename_i base k hf
    obtain ⟨hs, -, hk⟩ := fillPair_eq_some hf
    have heven := hg.pages.2.1
    refine { hg with ftemp_length := ?_, session_at := fun b j hb => ?_ }
    · exact List.length_set.trans (List.length_set.trans hg.ftemp_length)
    · cases hb
      exact ⟨(hg.session_at _ _ hs).1, by show 2 * (k + 1) ≤ s.cfg.pageSize; omega⟩

theorem Good.flashCommitPage {a : Nat} (hg : Good s) (h : execFlashCommitPage a s = .next t) : Good t := by
  unfold execFlashCommitPage at h
  split at h
  · cases h
  · rename_i hcall
    split at h
    · cases h
    · rename_i hin
      split at h <;> cases h
      simp only [flashBusy, pageAligned, inFlash, Bool.or_eq_true, Bool.not_eq_true', not_or, decide_eq_false_iff_not,
        Decidable.not_not] at hcall hin
      refine { hg with erase_at := (fun _ h => nomatch h), commit_at := fun b hb => ?_ }
      cases hb
      exact ⟨hcall.2, hin⟩

/-! ## The instructions -/

/-- Every instruction of the main flow keeps a good state good. -/
theorem Good.exec {i : Instr} (hg : Good s) (hi : s.inHandler = none) (h : exec i s = .next t) : Good t := by
  cases i
  all_goals simp only [Machine.exec] at h
  case byteEsc =>
    cases h
    exact Good.completeLine { hg with lineLen_le := Nat.zero_le _ }
  case byteCr | byteLf =>
    cases h
    exact hg.terminator
  case byteOther b =>
    unfold execByteOther at h
    split at h <;> cases h
    · rename_i hroom
      exact { hg with line_length := List.length_set.trans hg.line_length, lineLen_le := hroom }
    · exact hg.setResult _
  case lineRecord =>
    cases h
    split
    · exact hg.push _
    · exact Good.push _ { hg with tStart_lt := hg.ms_lt }
  case recDataFlash r =>
    unfold execRecDataFlash at h
    split at h
    · cases h
      exact hg.raiseFault _ _ _
    · exact hg.stageFrom h
  case recDataVerify r =>
    unfold execRecDataVerify at h
    split at h
    · cases h
      exact hg.raiseFault _ _ _
    · split at h
      · cases h
      · rename_i hc
        cases h
        exact (hg.compareBytes (sum' := 0) (.inl hc)).raiseFault _ _ _
      · rename_i hc
        cases h
        exact (hg.compareBytes (j := 0) (.inr hc)).finishData _ _ _
  case recEofFlash r =>
    unfold execRecEofFlash at h
    split at h <;> cases h
    · exact hg.push _
    · exact hg.raiseFault _ _ _
  case recEofVerify r =>
    unfold execRecEofVerify at h
    split at h <;> cases h
    · exact { hg with }
    · exact hg.raiseFault _ _ _
  case recOther tt r =>
    unfold execRecOther at h
    split at h <;> cases h
    · exact hg.setResult _
    · exact hg.raiseFault _ _ _
  case sendByte b =>
    unfold execSendByte at h
    split at h <;> cases h
    · exact hg.hold _
    · exact hg.masked hi (fun u hu => hu.storeTx b) (fun _ => rfl)
  case receiveByte =>
    cases h
    exact hg.masked hi (fun u hu => hu.takeRx) takeRx_inHandler
  case flush =>
    unfold execFlush at h
    split at h <;> cases h
    · exact hg
    · exact hg.hold _
  case rxHandler =>
    cases h
    exact hg.runHandler _ fun u hu => hu.rxBody
  case txHandler =>
    cases h
    exact hg.runHandler _ fun u hu => hu.txBody
  case tickHandler =>
    cases h
    exact hg.runHandler _ fun u hu => hu.tickBody
  case critical body =>
    cases h
    exact hg.masked hi (fun u hu => hu.accesses body) (accesses_inHandler body)
  case transportInit =>
    cases h
    exact hg.initTransport
  case pollLine =>
    unfold execPollLine at h
    simp only at h
    split at h <;> cases h
    · exact hg.startLine.raiseTransport _
    · exact hg.startLine.push _
  case resetPage =>
    cases h
    exact { hg with page_length := List.length_replicate }
  case hwstep c =>
    cases h
    exact (hg.mask false hi).push _
  case flashReadByte a =>
    unfold execFlashReadByte at h
    split at h <;> cases h
    exact (hg.memRead a).setResult _
  case flashErasePage a => exact hg.flashErasePage h
  case flashFillWord a w => exact hg.flashFillWord h
  case flashCommitPage a => exact hg.flashCommitPage h
  case flashWait =>
    unfold execFlashWait at h
    split at h <;> cases h
    · exact hg.push _
    · exact hg
  case flashRwwEnable =>
    unfold execFlashRwwEnable at h
    split at h <;> cases h
    exact { hg with }
  case processRecord m =>
    unfold execProcessRecord at h
    split at h <;> cases h
    exact hg.push _
  case blInit =>
    cases h
    have hinit := hg.initTransport
    exact {
      hinit with
      lineLen_le := Nat.zero_le _
      curPage_lt := hg.firstPage_lt
      ms_lt := Nat.two_pow_pos _
      watchdog := fun _ => hg.timeout_pos .deadman
      handler_masked := fun hh => absurd hi hh }
  case runPass m =>
    cases h
    exact (hg.startPass m).push _
  case menu =>
    unfold execMenu at h
    split at h <;> cases h
    · exact hg
    · exact Good.push _ { hg with }
  case bootDecide =>
    unfold execBootDecide at h
    split at h <;> cases h <;> exact { hg with }
  case kick =>
    cases h
    exact hg.kick
  case wdtArm x =>
    cases h
    exact hg.armWdt x
  case powerOn | extReset | wdtExpire =>
    cases h
    exact hg.deviceReset _
  all_goals
    cases h
    exact { hg with }

/-- Every place inside an operation keeps a good state good. -/
theorem Good.runMicro {p : Micro} (hg : Good s) (hi : s.inHandler = none) (h : runMicro p s = .next t) : Good t := by
  cases p
  all_goals simp only [Machine.runMicro] at h
  case pollGot =>
    cases h
    unfold pollGot
    split
    · exact hg.push _
    · exact hg.setResult _
  case passLoop =>
    cases h
    unfold passLoop
    split
    · exact hg.push _
    · exact hg.push _
    · exact hg.setResult _
    · exact hg.setResult _
  case passRoute =>
    cases h
    unfold passRoute
    split <;> exact hg.push _
  case passEnd m =>
    cases h
    unfold passEnd
    split
    · exact hg.push _
    · cases m <;> exact hg.push _
  case elapsed =>
    cases h
    unfold reportElapsed
    split
    · exact hg.push _
    · exact hg
  case stageResume r rest a sum => exact hg.stageResume h
  case eofDone =>
    cases h
    exact { hg with curPage_lt := hg.firstPage_lt }
  case unmask saved =>
    cases h
    exact hg.mask saved hi
  case rebootArm stage =>
    cases h
    exact hg.enterReboot stage
  all_goals
    cases h
    exact { hg with }

/-! ## The moves -/

theorem Good.passTime (dt : Nat) (hg : Good s) : Good (passTime dt s) := by
  unfold Machine.passTime
  split
  · split
    · exact hg.deviceReset .watchdog
    · rename_i _ hlt
      exact { hg with watchdog := fun _ => Nat.lt_of_not_le hlt }
  · exact hg

theorem Good.envMove (m : Move) (hg : Good s) : Good (envMove m s) := by
  cases m with
  | cpu => exact hg
  | serve h =>
    simp only [Machine.envMove]
    split
    · exact hg.enterHandler h
    · exact hg
  | uartRx b ovr fe =>
    simp only [Machine.envMove]
    split
    · exact hg
    · exact { hg with }
  | uartTxReady | tick => exact { hg with }
  | elapse dt => exact hg.passTime dt
  | flashDone => exact hg.completeFlash
  | powerOn => exact hg.deviceReset .powerOn
  | extReset => exact hg.deviceReset .external
  | appSig second b =>
    simp only [Machine.envMove]
    split
    · cases second <;> exact { hg with }
    · exact hg
  | appReset =>
    simp only [Machine.envMove]
    split
    · exact hg.deviceReset _
    · exact hg

/-- Settles O54: the three kinds of step, each by its lemma above. -/
theorem everyStepKeepsGoodStates : Obligations.EveryStepKeepsGoodStates := by
  intro s t hg h
  have htaken : Good (taken s) := { hg with }
  cases stepOf_of_step h with
  | environment m => exact htaken.envMove m
  | handler src _ he =>
    cases src <;> cases he
    · exact htaken.runHandler _ fun u hu => hu.rxBody
    · exact htaken.runHandler _ fun u hu => hu.txBody
    · exact htaken.runHandler _ fun u hu => hu.tickBody
  | task u k hr hm he =>
    have hstarted : Good (started k s) := { hg with }
    obtain ⟨-, hi, -⟩ := hr
    obtain ⟨i, -, hexec⟩ | ⟨p, -, hplace⟩ := runTask_cases he
    · exact hstarted.exec hi hexec
    · exact hstarted.runMicro hi hplace

end

end Sys2Proof.Machine
end

section
/-! PROOFS. The main flow stays on course, and the control state moves along the rows of R250's table. The pieces of `FlowOnCourse` (a report before a
pass, the way to a forced reboot, the inside of a pass) get one step lemma each; what is no task of the main flow leaves all of them. -/

namespace Sys2Proof.Machine

section
variable {s t : State} {u : Task} {k : List Task}

/-! ## The flow at each control state -/

theorem flowOnCourse_decide (hs : s.seq = .decide) : FlowOnCourse s ↔ s.main = [.instr .bootMain] ∨
    s.main = .instr .bootDecide :: .instr .blInit :: emit s.cfg.strStartup ++ passFrom .flash := by
  rw [FlowOnCourse, hs]

theorem flowOnCourse_blInit (hs : s.seq = .blInit) : FlowOnCourse s ↔
    s.main = .instr .blInit :: emit s.cfg.strStartup ++ passFrom .flash ∨
      ∃ report, report.all reportTask = true ∧ s.main = report ++ passFrom .flash := by
  rw [FlowOnCourse, hs]

theorem flowOnCourse_passFlash (hs : s.seq = .passFlash) : FlowOnCourse s ↔ InPass .flash s ∨
    (s.status = .ok ∧ ∃ report, report.all reportTask = true ∧ s.main = report ++ passFrom .verify) := by
  rw [FlowOnCourse, hs]

theorem flowOnCourse_passVerify (hs : s.seq = .passVerify) : FlowOnCourse s ↔
    InPass .verify s ∨ (s.status = .ok ∧ ToReboot .application s) := by
  rw [FlowOnCourse, hs]

theorem flowOnCourse_rebootBl (hs : s.seq = .rebootBl) : FlowOnCourse s ↔ s.main = [.micro .idleLoop] := by
  rw [FlowOnCourse, hs]

theorem flowOnCourse_rebootApp (hs : s.seq = .rebootApp) : FlowOnCourse s ↔ s.main = [.micro .spin] := by
  rw [FlowOnCourse, hs]

theorem flowOnCourse_app (hs : s.seq = .app) : FlowOnCourse s ↔ s.main = [] := by
  rw [FlowOnCourse, hs]

/-! ## What leaves the flow -/

theorem ToReboot.congr {stage : Stage} (hm : t.main = s.main) (h : ToReboot stage s) : ToReboot stage t := by
  unfold ToReboot at h ⊢
  rwa [hm]

theorem InPass.congr {m : Mode} (hm : t.main = s.main) (hst : t.status = s.status)
    (he : anyError s.err = true → anyError t.err = true) (h : InPass m s) : InPass m t := by
  unfold InPass at h ⊢
  rw [hm, hst]
  refine h.imp_right (.imp_right (.imp_right fun ⟨hto, hwhy⟩ => ⟨hto.congr hm, hwhy.imp_right he⟩))

/-- A change that leaves the main flow, the control state, the pass status and the parameters, and clears no error flag, leaves the flow on course. -/
theorem FlowOnCourse.congr (hs : t.seq = s.seq) (hm : t.main = s.main) (hst : t.status = s.status) (hc : t.cfg = s.cfg)
    (he : anyError s.err = true → anyError t.err = true) (h : FlowOnCourse s) : FlowOnCourse t := by
  unfold FlowOnCourse at h ⊢
  rw [hs, hm, hc, hst]
  cases hseq : s.seq <;> rw [hseq] at h
  case passFlash => exact h.imp_left (.congr hm hst he)
  case passVerify => exact h.imp (.congr hm hst he) (fun ⟨hok, hto⟩ => ⟨hok, hto.congr hm⟩)
  all_goals exact h

/-- A handler leaves the main flow, the control state, the pass status and the parameters, and clears no error flag. -/
theorem FlowOnCourse.handler {src : Source} (hf : FlowOnCourse s) (h : exec (handlerInstr src) s = .next t) :
    FlowOnCourse t ∧ t.seq = s.seq := by
  cases src with
  | rx =>
    cases h
    obtain ⟨ovr, fe, buf, he, -, hm, hst⟩ := runHandler_rx_frame s
    have herr := congrArg Effects.err he
    have hseq := congrArg Effects.seq he
    refine ⟨hf.congr hseq hm hst (congrArg Effects.cfg he) fun hany => ?_, hseq⟩
    change (runHandler .rx rxBody s).err = _ at herr
    rw [herr]
    simp only [anyError, Bool.or_eq_true] at hany ⊢
    tauto
  | tx =>
    cases h
    obtain ⟨he, hm, hst⟩ := runHandler_tx_frame s
    have herr : (runHandler .tx txBody s).err = s.err := congrArg Effects.err he
    have hseq := congrArg Effects.seq he
    exact ⟨hf.congr hseq hm hst (congrArg Effects.cfg he) fun hany => by rwa [herr], hseq⟩
  | tick =>
    cases h
    rcases runHandler_cases .tick tickBody s with ⟨-, e⟩ | ⟨-, -, -, e⟩ | ⟨e, -⟩ <;> rw [e]
    · exact ⟨hf.congr rfl rfl rfl rfl id, rfl⟩
    · exact ⟨hf.congr rfl rfl rfl rfl id, rfl⟩
    · exact ⟨hf, rfl⟩

/-- A move of the environment leaves the flow and the control state, or resets the device. -/
theorem FlowOnCourse.envMove (m : Move) (hf : FlowOnCourse s) :
    FlowOnCourse (envMove m s) ∧ ((Machine.envMove m s).seq = s.seq ∨ atResetEntry (Machine.envMove m s)) := by
  rcases envMove_cases m s with hb | hd | ⟨kind, hk⟩ | ⟨-, second, b, hw⟩
  · rw [hb]
    exact ⟨hf.congr rfl rfl rfl rfl id, .inl rfl⟩
  · rw [hd]
    rcases completeFlash_cases s with ⟨-, e⟩ | ⟨a, -, e⟩ | ⟨a, -, e⟩ <;> rw [e]
    · exact ⟨hf, .inl rfl⟩
    · exact ⟨hf.congr rfl rfl rfl rfl id, .inl rfl⟩
    · exact ⟨hf.congr rfl rfl rfl rfl id, .inl rfl⟩
  · rw [hk]
    exact ⟨flowOnCourse_of_entry (deviceReset_atResetEntry kind s), .inr (deviceReset_atResetEntry kind s)⟩
  · rw [hw]
    cases second <;> exact ⟨hf.congr rfl rfl rfl rfl id, .inl rfl⟩

/-! ## The rows of R250's table -/

/-- What a task that runs on course does to the control state: it stays, or one row of R250's table applies. -/
inductive SeqRow (s t : State) : Prop
  | stays (h : t.seq = s.seq)
  | decided (hs : s.seq = .decide) (hr : runs s .bootDecide) (ht : t.seq = .app ∨ t.seq = .blInit)
  | flashPass (hs : s.seq = .blInit) (ht : t.seq = .passFlash)
  | verifyPass (hs : s.seq = .passFlash) (hok : s.status = .ok) (ht : t.seq = .passVerify)
  | bootloader (hs : s.seq = .passFlash ∨ s.seq = .passVerify) (hwhy : s.status = .error ∨ anyError s.err = true)
      (ht : t.seq = .rebootBl)
  | application (hs : s.seq = .passVerify) (hok : s.status = .ok) (ht : t.seq = .rebootApp)

/-! ## One task of a piece -/

/-- One task on the way to a forced reboot: further on the way, or at its end. -/
theorem ToReboot.step {stage : Stage} (hm : s.main = u :: k) (h : ToReboot stage s) (he : runTask u (started k s) = .next t) :
    (t.seq = s.seq ∧ t.status = s.status ∧ t.err = s.err ∧ ToReboot stage t) ∨ t = enterReboot stage (started [] s) := by
  obtain ⟨report, hr, hmain⟩ | hmain | hmain := h <;> rw [hm] at hmain
  · cases report with
    | nil =>
      cases hmain
      cases stage <;> cases he <;> exact .inl ⟨rfl, rfl, rfl, .inr (.inl rfl)⟩
    | cons r rs =>
      obtain ⟨rfl, rfl⟩ := List.cons.inj hmain
      rw [List.all_cons, Bool.and_eq_true] at hr
      obtain ⟨hseq, hst, herr, -, report', hr', hmain'⟩ := runTask_report_outcome hr.1 he
      refine .inl ⟨hseq, hst, herr, .inl ⟨report' ++ rs, ?_, hmain'.trans (List.append_assoc ..).symm⟩⟩
      rw [List.all_append, hr', hr.2, Bool.and_self]
  · cases hmain
    cases he
    exact .inl ⟨rfl, rfl, rfl, .inr (.inr rfl)⟩
  · cases hmain
    cases he
    exact .inr rfl

/-- One task of a report before a pass: further in the report, or the entry of the pass. -/
theorem report_step {m : Mode} {report : List Task} (hr : report.all reportTask = true)
    (hm : s.main = u :: k) (hmain : s.main = report ++ passFrom m) (he : runTask u (started k s) = .next t) :
    (t.seq = s.seq ∧ t.status = s.status ∧ ∃ report', report'.all reportTask = true ∧ t.main = report' ++ passFrom m) ∨
      (t.seq = passSeq m ∧ t.main = [.instr (.runPass m), .micro (.passEnd m)]) := by
  rw [hm] at hmain
  cases report with
  | nil =>
    cases hmain
    cases he
    exact .inr ⟨rfl, rfl⟩
  | cons r rs =>
    obtain ⟨rfl, rfl⟩ := List.cons.inj hmain
    rw [List.all_cons, Bool.and_eq_true] at hr
    obtain ⟨hseq, hst, -, -, report', hr', hmain'⟩ := runTask_report_outcome hr.1 he
    refine .inl ⟨hseq, hst, report' ++ rs, ?_, hmain'.trans (List.append_assoc ..).symm⟩
    rw [List.all_append, hr', hr.2, Bool.and_self]

theorem push_main_of (ts : List Task) (hk : s.main = k) : (push ts s).main = ts ++ k := by rw [push_main, hk]

/-- The loop head of a pass: polling, or the return with the status. -/
theorem passLoop_inPass {m : Mode} (hk : s.main = [.micro (.passEnd m)]) : InPass m (passLoop s) := by
  unfold passLoop
  split
  · exact .inr (.inl ⟨[.instr .pollLine], _, rfl, .inr rfl, push_main_of [_, _] hk⟩)
  · exact .inr (.inl ⟨[.instr .pollLine], _, rfl, .inr rfl, push_main_of [_, _] hk⟩)
  · rename_i hok
    exact .inr (.inr (.inl ⟨hk, .inl hok⟩))
  · rename_i herr
    exact .inr (.inr (.inl ⟨hk, .inr herr⟩))

/-- The routing of a line: the line is decoded, then the loop goes on. -/
theorem passRoute_inPass {m : Mode} (hk : s.main = [.micro (.passEnd m)]) : InPass m (passRoute s) := by
  unfold passRoute
  split
  · exact .inr (.inl ⟨[.fetch (.line (lineText s))], _, rfl, .inl rfl, push_main_of [_, _] hk⟩)
  · exact .inr (.inl ⟨[], _, rfl, .inl rfl, push_main_of [_] hk⟩)

/-- What the end of a pass with the status OK puts before the main flow. -/
def afterPass : Mode → List Task
  | .flash => passFrom .verify
  | .verify => [.instr .forceRebootToApp]

theorem passEnd_of_ok {m : Mode} (hok : s.status = .ok) :
    passEnd m s = push ([.instr .msNow, .micro .elapsed] ++ afterPass m) s := by
  unfold passEnd
  rw [if_neg (by simp [hok])]
  cases m <;> rfl

/-- One task of a pass: further in the pass; the end of a pass in OK; or the end of a forced reboot into the bootloader. -/
theorem InPass.step {m : Mode} (hm : s.main = u :: k) (h : InPass m s) (he : runTask u (started k s) = .next t) :
    (t.seq = s.seq ∧ InPass m t) ∨
      (t.seq = s.seq ∧ t.status = .ok ∧ t.main = [.instr .msNow, .micro .elapsed] ++ afterPass m) ∨
      (t = enterReboot .bootloader (started [] s) ∧ (s.status = .error ∨ anyError s.err = true)) := by
  obtain hmain | ⟨body, look, hbody, hlook, hmain⟩ | ⟨hmain, hst⟩ | ⟨hto, hwhy⟩ := h
  · rw [hm] at hmain
    cases hmain
    cases he
    refine .inl ⟨?_, .inr (.inl ⟨emit (bannerText s.cfg m) ++ emit s.cfg.strPrompt, .micro .passLoop, ?_, .inl rfl, ?_⟩)⟩
    · cases m <;> rfl
    · rw [List.all_append, emit_all_bodyTask, emit_all_bodyTask, Bool.and_self]
    · rw [push_main, List.append_assoc]
      cases m <;> rfl
  · rw [hm] at hmain
    cases body with
    | nil =>
      cases hmain
      obtain rfl | rfl := hlook <;> cases he
      · refine .inl ⟨?_, passLoop_inPass rfl⟩
        unfold passLoop
        split <;> rfl
      · refine .inl ⟨?_, passRoute_inPass rfl⟩
        unfold passRoute
        split <;> rfl
    | cons b bs =>
      obtain ⟨rfl, rfl⟩ := List.cons.inj hmain
      rw [List.all_cons, Bool.and_eq_true] at hbody
      obtain ⟨hseq, ⟨body', hb', hmain'⟩ | ⟨str, hmain', herr⟩⟩ := runTask_body_outcome hbody.1 he
      · refine .inl ⟨hseq, .inr (.inl ⟨body' ++ bs, look, ?_, hlook, hmain'.trans (List.append_assoc ..).symm⟩)⟩
        rw [List.all_append, hb', hbody.2, Bool.and_self]
      · exact .inl ⟨hseq, .inr (.inr (.inr ⟨.inl ⟨emit str, emit_all_reportTask str, hmain'⟩, .inr herr⟩))⟩
  · rw [hm] at hmain
    cases hmain
    cases he
    obtain hok | herr := hst
    · rw [passEnd_of_ok (s := started [] s) hok]
      exact .inr (.inl ⟨rfl, hok, List.append_nil _⟩)
    · have hend : passEnd m (started [] s) = push [.instr .forceRebootToBootloader] (started [] s) := if_pos herr
      rw [hend]
      exact .inl ⟨rfl, .inr (.inr (.inr ⟨.inl ⟨[], rfl, rfl⟩, .inl herr⟩))⟩
  · obtain ⟨hseq, hst, herr, hto'⟩ | hend := hto.step hm he
    · refine .inl ⟨hseq, .inr (.inr (.inr ⟨hto', ?_⟩))⟩
      rwa [hst, herr]
    · exact .inr (.inr ⟨hend, hwhy⟩)

/-! ## One task on course -/

/-- A task on course before the first pass: `boot_main`, `boot_decide`, `bl_init` and the start-up text (R240). -/
theorem FlowOnCourse.task_beforePass (hf : FlowOnCourse s) (hs : s.seq = .decide ∨ s.seq = .blInit) (hr : mainRuns s u)
    (hm : s.main = u :: k) (he : runTask u (started k s) = .next t) : FlowOnCourse t ∧ SeqRow s t := by
  obtain hs | hs := hs
  · rw [flowOnCourse_decide hs, hm] at hf
    obtain hmain | hmain := hf <;> cases hmain
    · cases he
      refine ⟨(flowOnCourse_decide ?_).2 (.inr ?_), .stays rfl⟩
      · exact hs
      · exact (List.append_assoc [Task.instr .bootDecide, .instr .blInit] _ _).trans (congrArg _ (List.append_nil _))
    · obtain rfl | rfl := exec_bootDecide_cases he
      · exact ⟨(flowOnCourse_app rfl).2 rfl, .decided hs (.inl hr) (.inl rfl)⟩
      · exact ⟨(flowOnCourse_blInit rfl).2 (.inl rfl), .decided hs (.inl hr) (.inr rfl)⟩
  · rw [flowOnCourse_blInit hs] at hf
    obtain hmain | ⟨report, hrep, hmain⟩ := hf
    · rw [hm] at hmain
      cases hmain
      cases he
      refine ⟨(flowOnCourse_blInit ?_).2 (.inr ⟨_, emit_all_reportTask _, rfl⟩), .stays rfl⟩
      exact hs
    · obtain ⟨hseq, -, hmain'⟩ | ⟨hseq, hmain'⟩ := report_step hrep hm hmain he
      · exact ⟨(flowOnCourse_blInit (hseq.trans hs)).2 (.inr hmain'), .stays hseq⟩
      · exact ⟨(flowOnCourse_passFlash hseq).2 (.inl (.inl hmain')), .flashPass hs hseq⟩

/-- A task on course in the flash pass, or in the report after it. -/
theorem FlowOnCourse.task_passFlash (hf : FlowOnCourse s) (hs : s.seq = .passFlash) (hm : s.main = u :: k)
    (he : runTask u (started k s) = .next t) : FlowOnCourse t ∧ SeqRow s t := by
  obtain hin | ⟨hok, report, hrep, hmain⟩ := (flowOnCourse_passFlash hs).1 hf
  · obtain ⟨hseq, hin'⟩ | ⟨hseq, hok, hmain'⟩ | ⟨rfl, hwhy⟩ := hin.step hm he
    · exact ⟨(flowOnCourse_passFlash (hseq.trans hs)).2 (.inl hin'), .stays hseq⟩
    · exact ⟨(flowOnCourse_passFlash (hseq.trans hs)).2 (.inr ⟨hok, _, rfl, hmain'⟩), .stays hseq⟩
    · exact ⟨(flowOnCourse_rebootBl rfl).2 rfl, .bootloader (.inl hs) hwhy rfl⟩
  · obtain ⟨hseq, hst, hmain'⟩ | ⟨hseq, hmain'⟩ := report_step hrep hm hmain he
    · exact ⟨(flowOnCourse_passFlash (hseq.trans hs)).2 (.inr ⟨hst.trans hok, hmain'⟩), .stays hseq⟩
    · exact ⟨(flowOnCourse_passVerify hseq).2 (.inl (.inl hmain')), .verifyPass hs hok hseq⟩

/-- A task on course in the verify pass, or on the way from it to the reboot into the application. -/
theorem FlowOnCourse.task_passVerify (hf : FlowOnCourse s) (hs : s.seq = .passVerify) (hm : s.main = u :: k)
    (he : runTask u (started k s) = .next t) : FlowOnCourse t ∧ SeqRow s t := by
  obtain hin | ⟨hok, hto⟩ := (flowOnCourse_passVerify hs).1 hf
  · obtain ⟨hseq, hin'⟩ | ⟨hseq, hok, hmain'⟩ | ⟨rfl, hwhy⟩ := hin.step hm he
    · exact ⟨(flowOnCourse_passVerify (hseq.trans hs)).2 (.inl hin'), .stays hseq⟩
    · exact ⟨(flowOnCourse_passVerify (hseq.trans hs)).2 (.inr ⟨hok, .inl ⟨_, rfl, hmain'⟩⟩), .stays hseq⟩
    · exact ⟨(flowOnCourse_rebootBl rfl).2 rfl, .bootloader (.inr hs) hwhy rfl⟩
  · obtain ⟨hseq, hst, -, hto'⟩ | rfl := hto.step hm he
    · exact ⟨(flowOnCourse_passVerify (hseq.trans hs)).2 (.inr ⟨hst.trans hok, hto'⟩), .stays hseq⟩
    · exact ⟨(flowOnCourse_rebootApp rfl).2 rfl, .application hs hok rfl⟩

/-- A task that runs on course leaves the flow on course, and the control state moves by a row of R250's table. -/
theorem FlowOnCourse.task (hf : FlowOnCourse s) (hr : mainRuns s u) (hm : s.main = u :: k)
    (he : runTask u (started k s) = .next t) : FlowOnCourse t ∧ SeqRow s t := by
  cases hs : s.seq with
  | decide => exact hf.task_beforePass (.inl hs) hr hm he
  | blInit => exact hf.task_beforePass (.inr hs) hr hm he
  | passFlash => exact hf.task_passFlash hs hm he
  | passVerify => exact hf.task_passVerify hs hm he
  | rebootBl =>
    rw [flowOnCourse_rebootBl hs, hm] at hf
    cases hf
    cases he
    refine ⟨(flowOnCourse_rebootBl ?_).2 rfl, .stays rfl⟩
    exact hs
  | rebootApp =>
    rw [flowOnCourse_rebootApp hs, hm] at hf
    cases hf
    cases he
    refine ⟨(flowOnCourse_rebootApp ?_).2 rfl, .stays rfl⟩
    exact hs
  | app =>
    rw [flowOnCourse_app hs, hm] at hf
    cases hf

/-- Every step from a state on course leaves the flow on course, and is a reset or moves the control state by a row of R250's table. -/
theorem FlowOnCourse.step (hf : FlowOnCourse s) (h : step s = .next t) : FlowOnCourse t ∧ (atResetEntry t ∨ SeqRow s t) := by
  have htaken : FlowOnCourse (taken s) := hf.congr rfl rfl rfl rfl id
  cases stepOf_of_step h with
  | environment m => exact (htaken.envMove m).imp_right fun hseq => hseq.symm.imp_right .stays
  | handler src _ he => exact (htaken.handler he).imp_right fun hseq => .inr (.stays hseq)
  | task u k hr hm he => exact (hf.task hr hm he).imp_right .inr

/-- Settles O60: the invariant's half of `FlowOnCourse.step`. -/
theorem everyStepKeepsTheFlowOnCourse : Obligations.EveryStepKeepsTheFlowOnCourse :=
  fun _ _ hf h => (hf.step h).1

/-! ## The control state -/

/-- The control state of a forced reboot. -/
def rebootSeq : Stage → Seq
  | .bootloader => .rebootBl
  | .application => .rebootApp

/-- What changes the control state, in every state (the first clause of R250). -/
theorem step_seq (h : Machine.step s = .next t) :
    t.seq = s.seq ∨ atResetEntry t ∨ (runs s .bootDecide ∧ (t.seq = .app ∨ t.seq = .blInit)) ∨
      (runs s .jumpApp ∧ t.seq = .app) ∨ (∃ m, mainRuns s (.micro (.enterPass m)) ∧ t.seq = passSeq m) ∨
      ∃ stage, mainRuns s (.micro (.rebootArm stage)) ∧ t.seq = rebootSeq stage := by
  cases stepEffect_of_step h with
  | silent hs => exact .inl hs.seq
  | device => rcases completeFlash_cases (taken s) with ⟨-, e⟩ | ⟨a, -, e⟩ | ⟨a, -, e⟩ <;> rw [e] <;> exact .inl rfl
  | reset kind => exact .inr (.inl (deviceReset_atResetEntry kind _))
  | application second b hs => cases second <;> exact .inl rfl
  | receives v hv =>
    obtain ⟨ovr, fe, buf, he, -⟩ := runHandler_rx_frame v
    exact .inl ((congrArg Effects.seq he).trans hv.seq)
  | transmits v hv => exact .inl ((congrArg Effects.seq (runHandler_tx_frame v).1).trans hv.seq)
  | operation i v hi hv hr he =>
    cases i <;> try (cases hi; done)
    case sendByte b => exact .inl ((exec_sendByte_ordinary he).seq.trans hv.seq)
    case critical body => exact .inl ((exec_critical_ordinary he).seq.trans hv.seq)
    case bootDecide =>
      refine .inr (.inr (.inl ⟨hr, ?_⟩))
      obtain rfl | rfl := exec_bootDecide_cases he
      · exact .inl rfl
      · exact .inr rfl
    case jumpApp =>
      cases he
      exact .inr (.inr (.inr (.inl ⟨hr, rfl⟩)))
    all_goals
      cases he
      exact .inl hv.seq
  | place p v hp hv _ hr he =>
    obtain ⟨m, rfl, rfl⟩ | ⟨-, rfl⟩ | ⟨stage, -, rfl⟩ | ⟨stage, rfl, rfl⟩ := runMicro_place_cases hp he
    · exact .inr (.inr (.inr (.inr (.inl ⟨m, hr, rfl⟩))))
    · exact .inl ((congrArg Effects.seq (effects_passEnd .verify v)).trans hv.seq)
    · exact .inl hv.seq
    · exact .inr (.inr (.inr (.inr (.inr ⟨stage, hr, by cases stage <;> rfl⟩))))

/-- Settles O56: in every state by `step_seq`, and on course by the rows of `FlowOnCourse.step`. -/
theorem seqChangesOnlyByItsTransitions : Obligations.SeqChangesOnlyByItsTransitions := by
  refine ⟨fun s t h hne => ?_, fun s t hf h hne => ?_⟩
  · obtain hstay | hentry | hdecide | hjump | ⟨m, hr, ht⟩ | ⟨stage, hr, ht⟩ := step_seq h
    · exact absurd hstay hne
    · exact .inl hentry
    · exact .inr (.inl hdecide)
    · exact .inr (.inr (.inl hjump))
    · cases m with
      | flash => exact .inr (.inr (.inr (.inl ⟨hr, ht⟩)))
      | verify => exact .inr (.inr (.inr (.inr (.inl ⟨hr, ht⟩))))
    · cases stage with
      | bootloader => exact .inr (.inr (.inr (.inr (.inr (.inl ⟨hr, ht⟩)))))
      | application => exact .inr (.inr (.inr (.inr (.inr (.inr ⟨hr, ht⟩)))))
  · obtain hentry | hrow := (hf.step h).2
    · exact .inl hentry
    · cases hrow with
      | stays hstay => exact absurd hstay hne
      | decided hs hr ht => exact .inr (.inl ⟨hs, hr, ht⟩)
      | flashPass hs ht => exact .inr (.inr (.inl ⟨hs, ht⟩))
      | verifyPass hs hok ht => exact .inr (.inr (.inr (.inl ⟨hs, hok, ht⟩)))
      | bootloader hs hwhy ht =>
        refine .inr (.inr (.inr (.inr (.inl ⟨hs, hwhy.imp_right fun hany => ?_, ht⟩))))
        simpa only [anyError, Bool.or_eq_true, or_assoc] using hany
      | application hs hok ht => exact .inr (.inr (.inr (.inr (.inr ⟨hs, hok, ht⟩))))

end

end Sys2Proof.Machine
end

section
/-! PROOFS. The reboot into the application (spec/46_boot_sequencer.md R249, spec/70_reset_and_hazards.md R334): where it is put before the main flow,
and what a run that comes to it has done before. -/

namespace Sys2Proof.Machine

section
variable {s t : State}

/-! ## Where the reboot comes from -/

/-- What puts the reboot into the application, or its last place, into the main flow. -/
theorem step_appReboot (h : step s = .next t) {x : Task} (hx : x ∈ t.main) (happ : appReboot x = true) :
    x ∈ s.main ∨ (x = .instr .forceRebootToApp ∧ mainRuns s (.micro (.passEnd .verify)) ∧ s.status ≠ .error) ∨
      (x = .micro (.rebootArm .application) ∧ runs s .forceRebootToApp) := by
  have hkept : ∀ {v : State}, Silent s v → x ∈ v.main → x ∈ s.main := fun hv hmem =>
    (hv.main x hmem).resolve_right (by simp [happ])
  cases stepEffect_of_step h with
  | silent hs => exact .inl (hkept hs hx)
  | device =>
    rcases completeFlash_cases (taken s) with ⟨-, e⟩ | ⟨a, -, e⟩ | ⟨a, -, e⟩ <;> rw [e] at hx <;> exact .inl hx
  | reset kind =>
    obtain rfl := List.mem_singleton.1 hx
    cases happ
  | application second b hs => cases second <;> exact .inl hx
  | receives v hv =>
    obtain ⟨ovr, fe, buf, -, -, hm, -⟩ := runHandler_rx_frame v
    rw [hm] at hx
    exact .inl (hkept hv hx)
  | transmits v hv =>
    rw [(runHandler_tx_frame v).2.1] at hx
    exact .inl (hkept hv hx)
  | operation i v hi hv hr he =>
    cases i <;> try (cases hi; done)
    case sendByte b => exact .inl (hkept hv (((exec_sendByte_ordinary he).main x hx).resolve_right (by simp [happ])))
    case critical body => exact .inl (hkept hv (((exec_critical_ordinary he).main x hx).resolve_right (by simp [happ])))
    case bootDecide =>
      obtain rfl | rfl := exec_bootDecide_cases he
      · cases hx
      · exact .inl (hkept hv hx)
    case jumpApp =>
      cases he
      cases hx
    case forceRebootToBootloader =>
      cases he
      obtain rfl | hx := List.mem_cons.1 hx
      · cases happ
      · obtain rfl := List.mem_singleton.1 hx
        cases happ
    case forceRebootToApp =>
      cases he
      obtain rfl | hx := List.mem_cons.1 hx
      · cases happ
      · exact .inr (.inr ⟨List.mem_singleton.1 hx, hr⟩)
    all_goals
      cases he
      exact .inl (hkept hv hx)
  | place p v hp hv hst hr he =>
    obtain ⟨m, -, rfl⟩ | ⟨rfl, rfl⟩ | ⟨stage, -, rfl⟩ | ⟨stage, -, rfl⟩ := runMicro_place_cases hp he
    · exact .inl (hkept hv hx)
    · unfold passEnd at hx
      split at hx
      · obtain rfl | hx := List.mem_cons.1 hx
        · cases happ
        · exact .inl (hkept hv hx)
      · rename_i hne
        rw [hst] at hne
        rw [push_main, List.mem_append] at hx
        obtain hx | hx := hx
        · simp only [List.mem_cons, List.not_mem_nil, or_false] at hx
          obtain rfl | rfl | rfl := hx
          · cases happ
          · cases happ
          · exact .inr (.inl ⟨rfl, hr, hne⟩)
        · exact .inl (hkept hv hx)
    · exact .inl (hkept hv hx)
    · cases stage <;> obtain rfl := List.mem_singleton.1 hx <;> cases happ

/-! ## Where the reboot stands on course -/

/-- A task of the reboot into the application, also as a unit that decodes to its operation. -/
def leadsToApp (x : Task) : Prop := appReboot x = true ∨ ∃ w, x = .fetch w ∧ decode w = .ok .forceRebootToApp

theorem not_leadsToApp_of_bodyTask {x : Task} (hb : bodyTask x = true) : ¬ leadsToApp x := by
  rintro (happ | ⟨w, rfl, hd⟩)
  · unfold appReboot at happ
    split at happ <;> contradiction
  · cases w <;> try (cases hb; done)
    · obtain h | h | h | ⟨c, h⟩ := decode_byte_rows hd <;> cases h
    · obtain h | h | ⟨c, h⟩ := decode_line_rows hd <;> cases h
    · obtain ⟨r, h | h | h | h | ⟨tt, h⟩⟩ := decode_hexrec_rows hd <;> cases h

theorem not_leadsToApp_of_reportTask {x : Task} (hr : reportTask x = true) : ¬ leadsToApp x := by
  rintro (happ | ⟨w, rfl, -⟩)
  · unfold appReboot at happ
    split at happ <;> contradiction
  · cases hr

theorem not_leadsToApp_of_place {p : Micro} (hp : p ≠ .rebootArm .application) : ¬ leadsToApp (.micro p) := by
  rintro (happ | ⟨w, h, -⟩)
  · unfold appReboot at happ
    split at happ
    · contradiction
    · rename_i h
      exact hp (Task.micro.inj h)
    · cases happ
  · cases h

theorem not_leadsToApp_of_instr {i : Instr} (hi : i ≠ .forceRebootToApp) : ¬ leadsToApp (.instr i) := by
  rintro (happ | ⟨w, h, -⟩)
  · unfold appReboot at happ
    split at happ
    · rename_i h
      exact hi (Task.instr.inj h)
    · contradiction
    · cases happ
  · cases h

/-- On the way to the bootloader there is no reboot into the application. -/
theorem ToReboot.not_leadsToApp (h : ToReboot .bootloader s) : ∀ x ∈ s.main, ¬ leadsToApp x := by
  obtain ⟨report, hr, hm⟩ | hm | hm := h <;> rw [hm]
  · rw [List.all_eq_true] at hr
    rw [List.forall_mem_append, List.forall_mem_singleton]
    exact ⟨fun x hx => not_leadsToApp_of_reportTask (hr x hx), not_leadsToApp_of_instr (by simp [rebootInstr])⟩
  · rw [List.forall_mem_cons, List.forall_mem_singleton]
    exact ⟨not_leadsToApp_of_place (by simp), not_leadsToApp_of_place (by simp)⟩
  · rw [List.forall_mem_singleton]
    exact not_leadsToApp_of_place (by simp)

/-- Inside a pass there is no reboot into the application. -/
theorem InPass.not_leadsToApp {m : Mode} (h : InPass m s) : ∀ x ∈ s.main, ¬ leadsToApp x := by
  obtain hm | ⟨body, look, hb, hl, hm⟩ | ⟨hm, -⟩ | ⟨hto, -⟩ := h
  · rw [hm, List.forall_mem_cons, List.forall_mem_singleton]
    exact ⟨not_leadsToApp_of_instr (by simp), not_leadsToApp_of_place (by simp)⟩
  · rw [List.all_eq_true] at hb
    rw [hm, List.forall_mem_append, List.forall_mem_cons, List.forall_mem_singleton]
    refine ⟨fun x hx => not_leadsToApp_of_bodyTask (hb x hx), ?_, not_leadsToApp_of_place (by simp)⟩
    obtain rfl | rfl := hl <;> exact not_leadsToApp_of_place (by simp)
  · rw [hm, List.forall_mem_singleton]
    exact not_leadsToApp_of_place (by simp)
  · exact hto.not_leadsToApp

theorem passFrom_not_leadsToApp (m : Mode) : ∀ x ∈ passFrom m, ¬ leadsToApp x := by
  rw [passFrom, List.forall_mem_cons, List.forall_mem_cons, List.forall_mem_singleton]
  exact ⟨not_leadsToApp_of_place (by simp), not_leadsToApp_of_instr (by simp), not_leadsToApp_of_place (by simp)⟩

theorem report_not_leadsToApp {report : List Task} (hr : report.all reportTask = true) (m : Mode) :
    ∀ x ∈ report ++ passFrom m, ¬ leadsToApp x := by
  rw [List.all_eq_true] at hr
  rw [List.forall_mem_append]
  exact ⟨fun x hx => not_leadsToApp_of_reportTask (hr x hx), passFrom_not_leadsToApp m⟩

/-- On course the reboot into the application stands in the main flow only after a verify pass with the status OK. -/
theorem FlowOnCourse.leadsToApp (hf : FlowOnCourse s) {x : Task} (hx : x ∈ s.main) (happ : leadsToApp x) :
    s.seq = .passVerify ∧ s.status = .ok := by
  have hstartup := report_not_leadsToApp (emit_all_reportTask s.cfg.strStartup) .flash
  cases hs : s.seq with
  | passVerify =>
    obtain hin | ⟨hok, -⟩ := (flowOnCourse_passVerify hs).1 hf
    · exact absurd happ (hin.not_leadsToApp x hx)
    · exact ⟨rfl, hok⟩
  | decide =>
    obtain hm | hm := (flowOnCourse_decide hs).1 hf <;> rw [hm] at hx
    · obtain rfl := List.mem_singleton.1 hx
      exact absurd happ (not_leadsToApp_of_instr (by simp))
    · obtain rfl | hx := List.mem_cons.1 hx
      · exact absurd happ (not_leadsToApp_of_instr (by simp))
      · obtain rfl | hx := List.mem_cons.1 hx
        · exact absurd happ (not_leadsToApp_of_instr (by simp))
        · exact absurd happ (hstartup x hx)
  | blInit =>
    obtain hm | ⟨report, hr, hm⟩ := (flowOnCourse_blInit hs).1 hf <;> rw [hm] at hx
    · obtain rfl | hx := List.mem_cons.1 hx
      · exact absurd happ (not_leadsToApp_of_instr (by simp))
      · exact absurd happ (hstartup x hx)
    · exact absurd happ (report_not_leadsToApp hr .flash x hx)
  | passFlash =>
    obtain hin | ⟨-, report, hr, hm⟩ := (flowOnCourse_passFlash hs).1 hf
    · exact absurd happ (hin.not_leadsToApp x hx)
    · rw [hm] at hx
      exact absurd happ (report_not_leadsToApp hr .verify x hx)
  | rebootBl =>
    rw [(flowOnCourse_rebootBl hs).1 hf] at hx
    obtain rfl := List.mem_singleton.1 hx
    exact absurd happ (not_leadsToApp_of_place (by simp))
  | rebootApp =>
    rw [(flowOnCourse_rebootApp hs).1 hf] at hx
    obtain rfl := List.mem_singleton.1 hx
    exact absurd happ (not_leadsToApp_of_place (by simp))
  | app =>
    rw [(flowOnCourse_app hs).1 hf] at hx
    cases hx

theorem FlowOnCourse.runs_forceRebootToApp (hf : FlowOnCourse s) (hr : runs s .forceRebootToApp) :
    s.seq = .passVerify ∧ s.status = .ok := by
  obtain ⟨-, -, -, k, hm⟩ | ⟨w, ⟨-, -, -, k, hm⟩, hd⟩ := hr
  · exact hf.leadsToApp (hm ▸ List.mem_cons_self) (.inl rfl)
  · exact hf.leadsToApp (hm ▸ List.mem_cons_self) (.inr ⟨w, rfl, hd⟩)

theorem mem_main_of_mainRuns {u : Task} (hr : mainRuns s u) : u ∈ s.main := by
  obtain ⟨-, -, -, k, hm⟩ := hr
  rw [hm]
  exact List.mem_cons_self

/-! ## Runs -/

/-- The last step of a run. -/
theorem steps_succ {n : Nat} (h : steps (n + 1) s = .next t) : ∃ u, steps n s = .next u ∧ step u = .next t := by
  induction n generalizing s with
  | zero =>
    refine ⟨s, rfl, ?_⟩
    rw [steps] at h
    split at h
    · rename_i hstep
      rwa [hstep]
    · cases h
    · cases h
  | succ n ih =>
    rw [steps] at h
    split at h
    · rename_i v hv
      obtain ⟨u, hu, hstep⟩ := ih h
      exact ⟨u, (steps_cons hv).trans hu, hstep⟩
    · cases h
    · cases h

/-- Step `i` of the run from `s` leaves a flash pass in OK for the verify pass. -/
def EntersVerify (s : State) (i : Nat) : Prop :=
  ∃ u, steps i s = .next u ∧ u.seq = .passFlash ∧ u.status = .ok ∧ mainRuns u (.micro (.enterPass .verify))

/-- Step `j` of the run from `s` begins the reboot into the application, with the status OK. -/
def BeginsReboot (s : State) (j : Nat) : Prop := ∃ v, steps j s = .next v ∧ v.status = .ok ∧ runs v .forceRebootToApp

/-- Step `k` of the run from `s` ends the reboot into the application, with the status OK. -/
def EndsReboot (s : State) (k : Nat) : Prop :=
  ∃ w, steps k s = .next w ∧ w.status = .ok ∧ mainRuns w (.micro (.rebootArm .application))

/-- After step `i` the run from `s` is in the verify pass, up to step `k`. -/
def VerifyBetween (s : State) (i k : Nat) : Prop := ∀ l x, i < l → l ≤ k → steps l s = .next x → x.seq = .passVerify

theorem VerifyBetween.succ {i n : Nat} (h : VerifyBetween s i n) (hrun : steps (n + 1) s = .next t) (ht : t.seq = .passVerify) :
    VerifyBetween s i (n + 1) := by
  intro l x hl hln hx
  obtain hlt | rfl := Nat.lt_or_eq_of_le hln
  · exact h l x hl (Nat.le_of_lt_succ hlt) hx
  · cases hrun.symm.trans hx
    exact ht

theorem verifyBetween_self (s : State) (n : Nat) : VerifyBetween s n n := fun _ _ hl hln _ => absurd hl (Nat.not_lt.2 hln)

/-- What a run of `n` steps from `s` to `t` has done, when it is in the verify pass or in the reboot into the application. -/
structure History (s : State) (n : Nat) (t : State) : Prop where
  course : FlowOnCourse t
  verify : t.seq = .passVerify → ∃ i, i < n ∧ EntersVerify s i ∧ VerifyBetween s i n ∧
    (Task.micro (.rebootArm .application) ∈ t.main → ∃ j, i < j ∧ j < n ∧ BeginsReboot s j)
  reboot : t.seq = .rebootApp → ∃ i j k, i < j ∧ j < k ∧ k < n ∧ EntersVerify s i ∧ BeginsReboot s j ∧ EndsReboot s k ∧
    VerifyBetween s i k

/-- The control state enters the verify pass only by the place that enters it. -/
theorem enters_of_verify (h : step s = .next t) (hs : s.seq = .passFlash) (ht : t.seq = .passVerify) :
    mainRuns s (.micro (.enterPass .verify)) := by
  have hsource := seqChangesOnlyByItsTransitions.1 s t h (by rw [hs, ht]; exact nofun)
  simpa [atResetEntry, ht] using hsource

/-- The control state enters the reboot into the application only by the last place of it. -/
theorem ends_of_rebootApp (h : step s = .next t) (hs : s.seq = .passVerify) (ht : t.seq = .rebootApp) :
    mainRuns s (.micro (.rebootArm .application)) := by
  have hsource := seqChangesOnlyByItsTransitions.1 s t h (by rw [hs, ht]; exact nofun)
  simpa [atResetEntry, ht] using hsource

/-- What stands before the last place of the reboot: it was there before, or the operation ran, with the status OK. -/
theorem begins_of_mem {n : Nat} (hrun : steps n s = .next t) (hf : FlowOnCourse t) {u : State} (h : step t = .next u)
    (hx : Task.micro (.rebootArm .application) ∈ u.main) :
    Task.micro (.rebootArm .application) ∈ t.main ∨ (t.seq = .passVerify ∧ BeginsReboot s n) := by
  obtain hmem | ⟨hx, -⟩ | ⟨-, hr⟩ := step_appReboot h hx rfl
  · exact .inl hmem
  · cases hx
  · obtain ⟨hseq, hok⟩ := hf.runs_forceRebootToApp hr
    exact .inr ⟨hseq, t, hrun, hok, hr⟩

/-- One more step of a run. -/
theorem History.succ {n : Nat} {u : State} (hh : History s n t) (hrun : steps n s = .next t) (hrun' : steps (n + 1) s = .next u)
    (h : step t = .next u) : History s (n + 1) u where
  course := (hh.course.step h).1
  verify hu := by
    obtain hentry | hrow := (hh.course.step h).2
    · rw [hentry.1] at hu
      cases hu
    cases hrow with
    | stays hstay =>
      obtain ⟨i, hi, henter, hbetween, hbegin⟩ := hh.verify (hstay.symm.trans hu)
      refine ⟨i, Nat.lt_succ_of_lt hi, henter, hbetween.succ hrun' hu, fun hx => ?_⟩
      obtain hmem | ⟨-, hbegins⟩ := begins_of_mem hrun hh.course h hx
      · obtain ⟨j, hij, hjn, hbegins⟩ := hbegin hmem
        exact ⟨j, hij, Nat.lt_succ_of_lt hjn, hbegins⟩
      · exact ⟨n, hi, Nat.lt_succ_self n, hbegins⟩
    | verifyPass hs hok _ =>
      refine ⟨n, Nat.lt_succ_self n, ⟨t, hrun, hs, hok, enters_of_verify h hs hu⟩, (verifyBetween_self s n).succ hrun' hu,
        fun hx => ?_⟩
      exfalso
      obtain hmem | ⟨hseq, -⟩ := begins_of_mem hrun hh.course h hx
      · have hseq := (hh.course.leadsToApp hmem (.inl rfl)).1
        rw [hs] at hseq
        cases hseq
      · rw [hs] at hseq
        cases hseq
    | decided _ _ ht =>
      obtain ht | ht := ht <;> rw [ht] at hu <;> cases hu
    | flashPass _ ht | bootloader _ _ ht | application _ _ ht =>
      rw [ht] at hu
      cases hu
  reboot hu := by
    obtain hentry | hrow := (hh.course.step h).2
    · rw [hentry.1] at hu
      cases hu
    cases hrow with
    | stays hstay =>
      obtain ⟨i, j, k, hij, hjk, hkn, hrest⟩ := hh.reboot (hstay.symm.trans hu)
      exact ⟨i, j, k, hij, hjk, Nat.lt_succ_of_lt hkn, hrest⟩
    | application hs hok _ =>
      have hends := ends_of_rebootApp h hs hu
      obtain ⟨i, hi, henter, hbetween, hbegin⟩ := hh.verify hs
      obtain ⟨j, hij, hjn, hbegins⟩ := hbegin (mem_main_of_mainRuns hends)
      exact ⟨i, j, n, hij, hjn, Nat.lt_succ_self n, henter, hbegins, ⟨t, hrun, hok, hends⟩, hbetween⟩
    | decided _ _ ht =>
      obtain ht | ht := ht <;> rw [ht] at hu <;> cases hu
    | flashPass _ ht | bootloader _ _ ht | verifyPass _ _ ht =>
      rw [ht] at hu
      cases hu

/-- Every run from a state on course, outside the verify pass and that reboot, has this history. -/
theorem history_of_steps (hf : FlowOnCourse s) (hv : s.seq ≠ .passVerify) (hr : s.seq ≠ .rebootApp) (n : Nat)
    (hrun : steps n s = .next t) : History s n t := by
  induction n generalizing t with
  | zero =>
    cases hrun
    exact ⟨hf, fun h => absurd h hv, fun h => absurd h hr⟩
  | succ n ih =>
    obtain ⟨u, hu, hstep⟩ := steps_succ hrun
    exact (ih hu).succ hu hrun hstep

end

/-- Settles O57: in every state by `step_appReboot`, and for a run by its `History`. -/
theorem rebootToAppOnlyAfterVerify : Obligations.RebootToAppOnlyAfterVerify := by
  refine ⟨fun s t h hx => ?_, fun s t h hx => ?_, fun n s t hf hv hr hrun ht => ?_⟩
  · obtain hmem | ⟨-, hend⟩ | ⟨hx, -⟩ := step_appReboot h hx rfl
    · exact .inl hmem
    · exact .inr hend
    · cases hx
  · obtain hmem | ⟨hx, -⟩ | ⟨-, hr⟩ := step_appReboot h hx rfl
    · exact .inl hmem
    · cases hx
    · exact .inr hr
  · obtain ⟨i, j, k, hij, hjk, hkn, ⟨u, hu, hseq, hok, henter⟩, ⟨v, hv, hokv, hbegin⟩, ⟨w, hw, hokw, hends⟩, hbetween⟩ :=
      (history_of_steps hf hv hr n hrun).reboot ht
    exact ⟨i, j, k, u, v, w, hij, hjk, hkn, hu, hseq, hok, henter, hv, hokv, hbegin, hw, hokw, hends, hbetween⟩

end Sys2Proof.Machine
end

section
/-! PROOFS. The rings as queues (spec/10_state.md R22, spec/41_transport.md R121 to R126): what a store and a take do to the bytes buffered, for both
rings, and from it the inbound queue and the output that no step drops or reorders. -/

namespace Sys2Proof.Machine

/-! ## Cursor arithmetic -/

/-- How many bytes a ring holds. -/
def ringCount (head tail slots : Nat) : Nat := (head + slots - tail) % slots

theorem mod_of_lt_twice {x n : Nat} (h : x < n + n) : x % n = if x < n then x else x - n := by
  split
  · exact Nat.mod_eq_of_lt ‹_›
  · rw [Nat.mod_eq_sub_mod (by omega), Nat.mod_eq_of_lt (by omega)]

section
variable {buf : List Byte} {head tail slots : Nat}

theorem nextCursor_eq (hh : head < slots) : nextCursor head slots = if head + 1 = slots then 0 else head + 1 := by
  rw [nextCursor, mod_of_lt_twice (by omega)]
  split_ifs <;> omega

theorem ringCount_eq (hh : head < slots) (ht : tail < slots) :
    ringCount head tail slots = if tail ≤ head then head - tail else head + slots - tail := by
  rw [ringCount, mod_of_lt_twice (by omega)]
  split_ifs <;> omega

theorem ringCount_le (hh : head < slots) (ht : tail < slots) : ringCount head tail slots ≤ slots - 1 := by
  rw [ringCount_eq hh ht]
  split_ifs <;> omega

theorem ringCount_eq_zero_iff (hh : head < slots) (ht : tail < slots) : ringCount head tail slots = 0 ↔ head = tail := by
  rw [ringCount_eq hh ht]
  split_ifs <;> omega

/-- A full ring holds one byte less than it has slots. -/
theorem ringCount_eq_full_iff (hh : head < slots) (ht : tail < slots) :
    ringCount head tail slots = slots - 1 ↔ nextCursor head slots = tail := by
  rw [ringCount_eq hh ht, nextCursor_eq hh]
  split_ifs <;> omega

theorem ringCount_store (hh : head < slots) (ht : tail < slots) (hroom : nextCursor head slots ≠ tail) :
    ringCount (nextCursor head slots) tail slots = ringCount head tail slots + 1 := by
  have hpos : 0 < slots := Nat.lt_of_le_of_lt (Nat.zero_le _) hh
  rw [ringCount_eq (nextCursor_lt head hpos) ht, ringCount_eq hh ht]
  rw [nextCursor_eq hh] at hroom ⊢
  split_ifs at hroom ⊢ <;> omega

theorem ringCount_take (hh : head < slots) (ht : tail < slots) (hne : head ≠ tail) :
    ringCount head tail slots = ringCount head (nextCursor tail slots) slots + 1 := by
  have hpos : 0 < slots := Nat.lt_of_le_of_lt (Nat.zero_le _) hh
  rw [ringCount_eq hh (nextCursor_lt tail hpos), ringCount_eq hh ht, nextCursor_eq ht]
  split_ifs <;> omega

/-! ## The bytes of a ring -/

theorem ringQueue_eq (buf : List Byte) (head tail slots : Nat) :
    ringQueue buf head tail slots = (List.range (ringCount head tail slots)).map fun k => byteOf buf ((tail + k) % slots) := rfl

@[simp] theorem ringQueue_length (buf : List Byte) (head tail slots : Nat) :
    (ringQueue buf head tail slots).length = ringCount head tail slots := by
  rw [ringQueue_eq, List.length_map, List.length_range]

theorem ringQueue_eq_nil_iff (hh : head < slots) (ht : tail < slots) : ringQueue buf head tail slots = [] ↔ head = tail := by
  rw [← List.length_eq_zero_iff, ringQueue_length, ringCount_eq_zero_iff hh ht]

/-- A byte stored in a ring that has room is its newest. -/
theorem ringQueue_store (b : Byte) (hh : head < slots) (ht : tail < slots) (hlen : buf.length = slots)
    (hroom : nextCursor head slots ≠ tail) :
    ringQueue (buf.set head b) (nextCursor head slots) tail slots = ringQueue buf head tail slots ++ [b] := by
  have hcount := ringCount_eq hh ht
  rw [ringQueue_eq, ringCount_store hh ht hroom, List.range_succ, List.map_append, List.map_singleton, ringQueue_eq]
  congr 1
  · refine List.map_congr_left fun k hk => ?_
    rw [List.mem_range] at hk
    rw [byteOf_set, if_neg]
    rw [mod_of_lt_twice (by split_ifs at hcount <;> omega)]
    split_ifs at hcount ⊢ <;> omega
  · rw [byteOf_set, if_pos]
    rw [mod_of_lt_twice (by split_ifs at hcount <;> omega), hlen]
    split_ifs at hcount ⊢ <;> omega

/-- The byte taken from a ring that is not empty is its oldest. -/
theorem ringQueue_take (buf : List Byte) (hh : head < slots) (ht : tail < slots) (hne : head ≠ tail) :
    ringQueue buf head tail slots = byteOf buf tail :: ringQueue buf head (nextCursor tail slots) slots := by
  rw [ringQueue_eq, ringCount_take hh ht hne, List.range_succ_eq_map, List.map_cons, List.map_map, ringQueue_eq,
    Nat.add_zero, Nat.mod_eq_of_lt ht]
  congr 1
  refine List.map_congr_left fun k _ => ?_
  show byteOf buf ((tail + (k + 1)) % slots) = byteOf buf (((tail + 1) % slots + k) % slots)
  rw [Nat.mod_add_mod, Nat.add_assoc, Nat.add_comm 1 k]

end

/-! ## The inbound queue -/

section
variable {s : State}

theorem rxQueue_eq_nil_iff (hg : Good s) : rxQueue s = [] ↔ s.rxHead = s.rxTail :=
  ringQueue_eq_nil_iff hg.rxHead_lt hg.rxTail_lt

theorem rxQueue_length_le (hg : Good s) : (rxQueue s).length ≤ s.cfg.rxSlots - 1 := by
  rw [rxQueue, ringQueue_length]
  exact ringCount_le hg.rxHead_lt hg.rxTail_lt

theorem rxQueue_full_iff (hg : Good s) :
    (rxQueue s).length = s.cfg.rxSlots - 1 ↔ nextCursor s.rxHead s.cfg.rxSlots = s.rxTail := by
  rw [rxQueue, ringQueue_length]
  exact ringCount_eq_full_iff hg.rxHead_lt hg.rxTail_lt

/-- In a good state with interrupts enabled no handler runs. -/
theorem Good.handler_can_run {h : Source} (hg : Good s) (hin : s.ie = true ∨ s.inHandler = some h) :
    s.inHandler = some h ∨ (s.ie = true ∧ s.inHandler = none) := by
  obtain hie | hin := hin
  · refine .inr ⟨hie, by_contra fun hne => ?_⟩
    rw [hg.handler_masked hne] at hie
    cases hie
  · exact .inl hin

/-- Settles O28: `receive_byte` and `rx_handler` by their equations, the queue by `ringQueue_take` and `ringQueue_store`. -/
theorem inboundRingIsABoundedQueue : Obligations.InboundRingIsABoundedQueue := by
  intro s hg
  refine ⟨rxQueue_length_le hg, fun hnil => exec_receiveByte_of_empty ((rxQueue_eq_nil_iff hg).1 hnil), fun b q hq => ?_,
    fun hp hin hroom => ?_, fun hp hin hfull => ?_⟩
  · have hne : s.rxHead ≠ s.rxTail := fun h => by rw [(rxQueue_eq_nil_iff hg).2 h] at hq; cases hq
    have htake := ringQueue_take s.rxb hg.rxHead_lt hg.rxTail_lt hne
    obtain ⟨hb, hrest⟩ := List.cons.inj (htake.symm.trans hq)
    exact ⟨_, exec_receiveByte_of_byte hne, congrArg _ hb, hrest⟩
  · have hne : nextCursor s.rxHead s.cfg.rxSlots ≠ s.rxTail := fun h => (Nat.ne_of_lt hroom) ((rxQueue_full_iff hg).2 h)
    exact ⟨_, exec_rxHandler_of_room hp (hg.handler_can_run hin) hne,
      ringQueue_store s.rxByte hg.rxHead_lt hg.rxTail_lt hg.rxb_length hne, rfl⟩
  · exact ⟨_, exec_rxHandler_of_full hp (hg.handler_can_run hin) ((rxQueue_full_iff hg).1 hfull), rfl, rfl⟩

end

/-! ## The output -/

/-- The bytes transmitted and then the bytes still buffered. -/
def output (s : State) : List Byte := s.txLog ++ txQueue s

/-- The output only grows at its end. -/
def OutputGrows (s t : State) : Prop := ∃ new, output t = output s ++ new

/-- What a good state says of the outbound ring. -/
structure TxRing (s : State) : Prop where
  head_lt : s.txHead < s.cfg.txSlots
  tail_lt : s.txTail < s.cfg.txSlots
  length : s.txb.length = s.cfg.txSlots

section
variable {s t u : State}

theorem Good.txRing (hg : Good s) : TxRing s := ⟨hg.txHead_lt, hg.txTail_lt, hg.txb_length⟩

theorem output_congr (hc : t.cfg = s.cfg) (ho : txSide t = txSide s) : output t = output s := by
  have hlog : t.txLog = s.txLog := congrArg TxSide.txLog ho
  have hhead : t.txHead = s.txHead := congrArg TxSide.txHead ho
  have htail : t.txTail = s.txTail := congrArg TxSide.txTail ho
  have hbuf : t.txb = s.txb := congrArg TxSide.txb ho
  rw [output, output, txQueue, txQueue, hc, hlog, hhead, htail, hbuf]

theorem TxRing.congr (hr : TxRing s) (hc : t.cfg = s.cfg) (ho : txSide t = txSide s) : TxRing t where
  head_lt := by
    rw [hc, show t.txHead = s.txHead from congrArg TxSide.txHead ho]
    exact hr.head_lt
  tail_lt := by
    rw [hc, show t.txTail = s.txTail from congrArg TxSide.txTail ho]
    exact hr.tail_lt
  length := by
    rw [hc, show t.txb = s.txb from congrArg TxSide.txb ho]
    exact hr.length

theorem OutputGrows.of_eq (h : output t = output s) : OutputGrows s t := ⟨[], by rw [h, List.append_nil]⟩

theorem OutputGrows.trans (h : OutputGrows s t) (h' : OutputGrows t u) : OutputGrows s u := by
  obtain ⟨new, hnew⟩ := h
  obtain ⟨new', hnew'⟩ := h'
  exact ⟨new ++ new', by rw [hnew', hnew, List.append_assoc]⟩

theorem OutputGrows.congr (hc : t.cfg = s.cfg) (ho : txSide t = txSide s) : OutputGrows s t := .of_eq (output_congr hc ho)

/-- A byte stored for sending is the newest of the output. -/
theorem TxRing.storeTx (b : Byte) (hr : TxRing s) (hfull : txFull s = false) :
    OutputGrows s (storeTx b s) ∧ TxRing (storeTx b s) := by
  refine ⟨⟨[b], ?_⟩, ?_⟩
  · have hstore := ringQueue_store b hr.head_lt hr.tail_lt hr.length (of_decide_eq_false hfull)
    exact (congrArg _ hstore).trans (List.append_assoc ..).symm
  · exact ⟨nextCursor_lt _ (Nat.lt_of_le_of_lt (Nat.zero_le _) hr.head_lt), hr.tail_lt, List.length_set.trans hr.length⟩

/-- A byte handed to the transmitter leaves the ring and enters the log. From an empty ring, which `tx_handler` is not entered with, the output would
grow by what the ring then holds. -/
theorem TxRing.txBody (hr : TxRing s) : OutputGrows s (txBody s) := by
  by_cases hne : s.txHead = s.txTail
  · have hnil : txQueue s = [] := (ringQueue_eq_nil_iff hr.head_lt hr.tail_lt).2 hne
    refine ⟨[byteOf s.txb s.txTail] ++ txQueue (Machine.txBody s), ?_⟩
    rw [output, output, hnil, List.append_nil]
    exact List.append_assoc ..
  · have htake := ringQueue_take s.txb hr.head_lt hr.tail_lt hne
    have hqueue : txQueue s = byteOf s.txb s.txTail :: txQueue (Machine.txBody s) := htake
    refine .of_eq ?_
    rw [output, output, hqueue]
    exact List.append_assoc s.txLog [_] _

theorem TxRing.access (x : Access) (hr : TxRing s) : OutputGrows s (access x s) ∧ TxRing (access x s) := by
  have hsame : ∀ t : State, t.cfg = s.cfg → txSide t = txSide s → OutputGrows s t ∧ TxRing t := fun t hc ho =>
    ⟨.congr hc ho, hr.congr hc ho⟩
  cases x with
  | takeRx => exact hsame _ (Silent.takeRx s).cfg (Silent.takeRx s).output
  | putTx b =>
    simp only [Machine.access]
    split
    · exact hsame _ rfl rfl
    · rename_i hfull
      obtain ⟨hgrows, hring⟩ := hr.storeTx b (Bool.eq_false_iff.2 hfull)
      exact ⟨hgrows.trans (.congr rfl rfl), hring.congr rfl rfl⟩
  | readErr | readMs | testAvailable | testDrained | kick => exact hsame _ rfl rfl

theorem TxRing.accesses (body : List Access) (hr : TxRing s) : OutputGrows s (accesses body s) := by
  induction body generalizing s with
  | nil => exact .congr rfl rfl
  | cons x body ih =>
    obtain ⟨hgrows, hring⟩ := hr.access x
    exact hgrows.trans (ih hring)

theorem TxRing.handler (hr : TxRing s) : OutputGrows s (runHandler .tx Machine.txBody s) := by
  rcases runHandler_cases .tx Machine.txBody s with ⟨-, e⟩ | ⟨-, -, -, e⟩ | ⟨e, -⟩ <;> rw [e]
  · exact hr.txBody.trans (.congr rfl rfl)
  · have hentered : TxRing (enterHandler .tx s) := hr.congr rfl rfl
    exact (OutputGrows.congr rfl rfl).trans (hentered.txBody.trans (.congr rfl rfl))
  · exact .congr rfl rfl

theorem txSide_passEnd (m : Mode) (s : State) : txSide (passEnd m s) = txSide s := by
  unfold passEnd
  split
  · rfl
  · cases m <;> rfl

/-- The output of a step: it grows, or the ring is set up again, or the device is reset. -/
theorem step_output (hr : TxRing s) (h : step s = .next t) :
    OutputGrows s t ∨ runs s .transportInit ∨ runs s .blInit ∨ atResetEntry t := by
  cases stepEffect_of_step h with
  | silent hs => exact .inl (.congr hs.cfg hs.output)
  | device =>
    rcases completeFlash_cases (taken s) with ⟨-, e⟩ | ⟨a, -, e⟩ | ⟨a, -, e⟩ <;> rw [e] <;> exact .inl (.congr rfl rfl)
  | reset kind => exact .inr (.inr (.inr (deviceReset_atResetEntry kind _)))
  | application second b hs => cases second <;> exact .inl (.congr rfl rfl)
  | receives v hv =>
    obtain ⟨ovr, fe, buf, he, ho, -⟩ := runHandler_rx_frame v
    exact .inl (.congr ((congrArg Effects.cfg he).trans hv.cfg) (ho.trans hv.output))
  | transmits v hv =>
    exact .inl ((OutputGrows.congr hv.cfg hv.output).trans (hr.congr hv.cfg hv.output).handler)
  | operation i v hi hv hrun he =>
    have hsv : OutputGrows s v := .congr hv.cfg hv.output
    have hrv : TxRing v := hr.congr hv.cfg hv.output
    cases i <;> try (cases hi; done)
    case sendByte b =>
      obtain ⟨-, rfl⟩ | ⟨hfull, rfl⟩ := exec_sendByte_cases he
      · exact .inl (hsv.trans (.congr rfl rfl))
      · exact .inl (hsv.trans (hrv.storeTx b hfull).1)
    case critical body =>
      cases he
      have hmasked : TxRing { v with ie := false } := hrv.congr rfl rfl
      exact .inl ((hsv.trans (.congr rfl rfl)).trans ((hmasked.accesses body).trans (.congr rfl rfl)))
    case transportInit => exact .inr (.inl hrun)
    case blInit => exact .inr (.inr (.inl hrun))
    case bootDecide => obtain rfl | rfl := exec_bootDecide_cases he <;> exact .inl (hsv.trans (.congr rfl rfl))
    all_goals
      cases he
      exact .inl (hsv.trans (.congr rfl rfl))
  | place p v hp hv _ _ he =>
    have hsv : OutputGrows s v := .congr hv.cfg hv.output
    obtain ⟨m, -, rfl⟩ | ⟨-, rfl⟩ | ⟨stage, -, rfl⟩ | ⟨stage, -, rfl⟩ := runMicro_place_cases hp he
    · exact .inl (hsv.trans (.congr rfl rfl))
    · exact .inl (hsv.trans (.congr (congrArg Effects.cfg (effects_passEnd .verify v)) (txSide_passEnd .verify v)))
    · exact .inl (hsv.trans (.congr rfl rfl))
    · cases stage <;> exact .inl (hsv.trans (.congr rfl rfl))

end

/-- Settles O29: `step_output`, from the ranges of a good state. -/
theorem outputIsNeverDroppedOrReordered : Obligations.OutputIsNeverDroppedOrReordered :=
  fun _ _ hg h => step_output hg.txRing h

end Sys2Proof.Machine
end

section
/-! PROOFS. The decoder and the encoder (spec/30_encoding.md), and the conversions to text (spec/43_hex_decoder.md): what each format accepts, and that
decoding what was encoded gives it back. -/

namespace Sys2Proof.Machine

/-! ## Values and their text -/

/-- The upper nibble of a byte, as a number. -/
theorem extractLsb'_upper_nibble (b : Byte) : b.extractLsb' 4 4 = BitVec.ofNat 4 (b.toNat / 16) := by
  apply BitVec.eq_of_toNat_eq
  rw [BitVec.extractLsb'_toNat, BitVec.toNat_ofNat, Nat.shiftRight_eq_div_pow]

/-- The lower nibble of a byte, as a number. -/
theorem extractLsb'_lower_nibble (b : Byte) : b.extractLsb' 0 4 = BitVec.ofNat 4 (b.toNat % 16) := by
  apply BitVec.eq_of_toNat_eq
  rw [BitVec.extractLsb'_toNat, BitVec.toNat_ofNat, Nat.shiftRight_zero]
  omega

/-- The upper byte of a word, as a number. -/
theorem extractLsb'_upper_byte (w : Word) : w.extractLsb' 8 8 = BitVec.ofNat 8 (w.toNat / 256) := by
  apply BitVec.eq_of_toNat_eq
  rw [BitVec.extractLsb'_toNat, BitVec.toNat_ofNat, Nat.shiftRight_eq_div_pow]

/-- The lower byte of a word, as a number. -/
theorem extractLsb'_lower_byte (w : Word) : w.extractLsb' 0 8 = BitVec.ofNat 8 (w.toNat % 256) := by
  apply BitVec.eq_of_toNat_eq
  rw [BitVec.extractLsb'_toNat, BitVec.toNat_ofNat, Nat.shiftRight_zero]
  omega

/-- A byte is its two nibbles. -/
theorem nibbles_append (b : Byte) : b.extractLsb' 4 4 ++ b.extractLsb' 0 4 = b := by
  apply BitVec.eq_of_toNat_eq
  rw [append_toNat, extractLsb'_upper_nibble, extractLsb'_lower_nibble, BitVec.toNat_ofNat, BitVec.toNat_ofNat]
  omega

/-- A word is its two bytes. -/
theorem bytes_append (w : Word) : w.extractLsb' 8 8 ++ w.extractLsb' 0 8 = w := by
  apply BitVec.eq_of_toNat_eq
  rw [append_toNat, extractLsb'_upper_byte, extractLsb'_lower_byte, BitVec.toNat_ofNat, BitVec.toNat_ofNat]
  omega

/-- The characters of R101 are upper case. -/
theorem hexchar_toNat (v : Nibble) : (hexchar v).toNat = if v.toNat ≤ 9 then 48 + v.toNat else 65 + v.toNat - 10 := by
  unfold hexchar
  split
  · rw [BitVec.toNat_ofNat]
    omega
  · rw [BitVec.toNat_ofNat]
    omega

@[simp] theorem hexval_hexchar (v : Nibble) : hexval (hexchar v) = v := by
  apply BitVec.eq_of_toNat_eq
  rw [hexval_toNat, digitValue, hexchar_toNat]
  split_ifs <;> omega

/-- A byte comes back from its two characters. -/
theorem hexByteToBin_hexchar (b : Byte) : hexByteToBin (hexchar (b.extractLsb' 4 4)) (hexchar (b.extractLsb' 0 4)) = b := by
  rw [hexByteToBin, hexval_hexchar, hexval_hexchar, nibbles_append]

/-- Settles O9: the characters are those of the nibbles, which are the quotient and the rest by 16. -/
theorem binaryConvertsToUpperCaseText : Obligations.BinaryConvertsToUpperCaseText := by
  refine ⟨fun v s => ⟨hexchar v, rfl, hexchar_toNat v⟩, fun b s => ?_, fun w s => ?_⟩
  · refine ⟨_, _, rfl, ?_, ?_⟩
    · rw [← extractLsb'_upper_nibble]
      rfl
    · rw [← extractLsb'_lower_nibble]
      rfl
  · refine ⟨_, _, _, _, rfl, ?_, ?_⟩
    · rw [← extractLsb'_upper_byte]
      rfl
    · rw [← extractLsb'_lower_byte]
      rfl

/-- Settles O10: nibbles come back by `hexval_hexchar`, bytes by `hexByteToBin_hexchar`, words from their bytes. -/
theorem hexConversionsRoundTrip : Obligations.HexConversionsRoundTrip := by
  refine ⟨fun v s => ⟨hexchar v, rfl, ?_⟩, fun b s => ⟨_, _, rfl, ?_⟩, fun w s => ⟨_, _, _, _, rfl, ?_⟩, fun s => ⟨rfl, rfl⟩⟩
  · rw [exec_hexNibbleToDec, hexval_hexchar]
    rfl
  · rw [exec_hexByteToDec, hexByteToBin_hexchar]
    rfl
  · rw [exec_hexWordToDec, hexWordToBin, hexByteToBin_hexchar, hexByteToBin_hexchar, bytes_append]
    rfl

/-! ## Records as text -/

theorem readRec_of_short {cs : List Byte} (h : cs.length < 11 + 2 * columnByte cs 1) : readRec cs = none := by
  rw [readRec, byteAt_toNat, if_pos h, ite_self]

theorem decode_hexrec_of_short (m : Mode) {cs : List Byte} (h : cs.length < 11 + 2 * columnByte cs 1) :
    decode (.hexrec m cs) = .error .shortRecord := by
  rw [decode, decodeRecord, readRec_of_short h]

/-- Settles O4: `process_record` and the decoder read the line by the same `readRec`. -/
theorem processRecordNeedsTheWholeRecord : Obligations.ProcessRecordNeedsTheWholeRecord := by
  refine fun m s => ⟨fun hlong => ?_, fun hshort => ⟨?_, decode_hexrec_of_short m hshort⟩⟩
  · rw [exec, execProcessRecord, readRec_of_length hlong]
    rfl
  · rw [exec, execProcessRecord, readRec_of_short hshort]

/-- The bytes of a record in the order of its columns (R95). -/
def recordBytes (tt : Byte) (r : Rec) : List Byte :=
  BitVec.ofNat 8 r.data.length :: r.addr.extractLsb' 8 8 :: r.addr.extractLsb' 0 8 :: tt :: (r.data ++ [r.ss])

/-- A record line is the marker and two characters a byte. -/
theorem recordText_eq (tt : Byte) (r : Rec) : recordText tt r = chColon :: (recordBytes tt r).flatMap binByteToHex := by
  simp [recordText, recordBytes, binWordToHex]

theorem flatMap_binByteToHex_length (bs : List Byte) : (bs.flatMap binByteToHex).length = 2 * bs.length := by
  induction bs with
  | nil => rfl
  | cons b bs ih =>
    rw [List.flatMap_cons, List.length_append, ih, List.length_cons]
    show 2 + 2 * bs.length = 2 * (bs.length + 1)
    omega

theorem recordText_length (tt : Byte) (r : Rec) : (recordText tt r).length = 11 + 2 * r.data.length := by
  rw [recordText_eq, List.length_cons, flatMap_binByteToHex_length]
  simp only [recordBytes, List.length_cons, List.length_append, List.length_nil]
  omega

/-- Each byte stands at its two columns. -/
theorem byteAt_flatMap (c : Byte) (bs : List Byte) {i : Nat} (hi : i < bs.length) :
    byteAt (c :: bs.flatMap binByteToHex) (1 + 2 * i) = bs.getD i 0 := by
  induction bs generalizing c i with
  | nil => exact absurd hi (Nat.not_lt_zero i)
  | cons b bs ih =>
    cases i with
    | zero => exact hexByteToBin_hexchar b
    | succ i =>
      have hrest := ih (hexchar (b.extractLsb' 0 4)) (Nat.lt_of_succ_lt_succ hi)
      rw [List.getD_cons_succ, ← hrest, show 1 + 2 * (i + 1) = 1 + 2 * i + 2 by omega]
      rfl

section
variable (tt : Byte) (r : Rec)

theorem byteAt_recordText {i : Nat} (hi : i < 5 + r.data.length) :
    byteAt (recordText tt r) (1 + 2 * i) = (recordBytes tt r).getD i 0 := by
  rw [recordText_eq]
  refine byteAt_flatMap _ _ ?_
  simp only [recordBytes, List.length_cons, List.length_append, List.length_nil]
  omega

theorem columnByte_recordText_count (h : r.wellFormed = true) : columnByte (recordText tt r) 1 = r.data.length := by
  have hle : r.data.length ≤ 255 := of_decide_eq_true h
  have hcc : byteAt (recordText tt r) 1 = BitVec.ofNat 8 r.data.length := byteAt_recordText tt r (i := 0) (by omega)
  rw [← byteAt_toNat, hcc, BitVec.toNat_ofNat]
  omega

/-- The fields come back from the text of a record. -/
theorem fieldsOf_recordText (h : r.wellFormed = true) : fieldsOf (recordText tt r) = r := by
  have hcc := columnByte_recordText_count tt r h
  have haddr : wordAt (recordText tt r) 3 = r.addr := by
    have hhi : byteAt (recordText tt r) 3 = r.addr.extractLsb' 8 8 := byteAt_recordText tt r (i := 1) (by omega)
    have hlo : byteAt (recordText tt r) 5 = r.addr.extractLsb' 0 8 := byteAt_recordText tt r (i := 2) (by omega)
    show byteAt (recordText tt r) 3 ++ byteAt (recordText tt r) 5 = r.addr
    rw [hhi, hlo, bytes_append]
  have hbyte : ∀ i, i < 1 + r.data.length → byteAt (recordText tt r) (9 + 2 * i) = (r.data ++ [r.ss]).getD i 0 := fun i hi => by
    rw [show 9 + 2 * i = 1 + 2 * (i + 4) by omega, byteAt_recordText tt r (by omega)]
    rfl
  have hdata : (List.range r.data.length).map (fun i => byteAt (recordText tt r) (9 + 2 * i)) = r.data := by
    refine List.ext_getElem (by simp) fun i h1 h2 => ?_
    rw [List.getElem_map, List.getElem_range, hbyte i (by omega), List.getD_append _ _ _ _ h2, List.getD_eq_getElem _ _ h2]
  have hss : byteAt (recordText tt r) (9 + 2 * r.data.length) = r.ss := by
    rw [hbyte _ (by omega), List.getD_append_right _ _ _ _ (Nat.le_refl _), Nat.sub_self]
    rfl
  rw [fieldsOf, hcc, haddr, hdata, hss]

/-- The text of a record decodes to its row. -/
theorem decode_recordText (m : Mode) (h : r.wellFormed = true) : decode (.hexrec m (recordText tt r)) = .ok (recordRow m tt r) := by
  have htt : byteAt (recordText tt r) 7 = tt := byteAt_recordText tt r (i := 3) (by omega)
  rw [decode_hexrec_of_length m (by rw [columnByte_recordText_count tt r h, recordText_length]), htt, fieldsOf_recordText tt r h]

end

/-! ## What was encoded comes back -/

theorem decodeByte_of_other {b : Byte} (h : isControlByte b = false) : decodeByte b = .byteOther b := by
  simp only [isControlByte, Bool.or_eq_false_iff, decide_eq_false_iff_not] at h
  obtain ⟨⟨hesc, hcr⟩, hlf⟩ := h
  rw [decodeByte, if_neg hesc, if_neg hcr, if_neg hlf]

/-- The table of R94 has a row for every hex digit. -/
theorem decodeDigit_of_nonhex {c : Byte} (h : isHexDigit c = false) : decodeDigit c = .hexNonhex c := by
  unfold decodeDigit
  split
  case h_23 => rfl
  all_goals
    rename_i hc
    simp [isHexDigit, hc] at h

/-- Settles O1: each format by its lemma; a symbolic unit carries the operands as they are. -/
theorem decodeOfEncodeIsTheInstruction : Obligations.DecodeOfEncodeIsTheInstruction := by
  intro i hi
  cases i
  case byteOther b => exact congrArg _ (decodeByte_of_other (Bool.not_eq_true' _ ▸ hi))
  case lineCommand c =>
    have hc : c ≠ chColon := by simpa [Instr.wellFormed] using hi
    exact congrArg _ (if_neg hc)
  case recDataFlash r => exact decode_recordText 0x00 r .flash hi
  case recDataVerify r => exact decode_recordText 0x00 r .verify hi
  case recEofFlash r => exact decode_recordText 0x01 r .flash hi
  case recEofVerify r => exact decode_recordText 0x01 r .verify hi
  case recOther tt r =>
    simp only [Instr.wellFormed, Bool.and_eq_true, decide_eq_true_eq] at hi
    obtain ⟨htt, hr⟩ := hi
    rw [encode, decode_recordText tt r .flash hr, recordRow_of_other r .flash htt]
  case hexNonhex c => exact congrArg _ (decodeDigit_of_nonhex (by simpa [Instr.wellFormed] using hi))
  case next c n =>
    have hcn : 2 ≤ n ∧ c < n := by simpa [Instr.wellFormed] using hi
    exact if_pos hcn
  all_goals rfl

/-! ## What is decoded is well formed -/

theorem decodeByte_wellFormed (b : Byte) : (decodeByte b).wellFormed = true := by
  unfold decodeByte
  split_ifs with hesc hcr hlf
  · rfl
  · rfl
  · rfl
  · simp [Instr.wellFormed, isControlByte, hesc, hcr, hlf]

theorem decodeLine_wellFormed (cs : List Byte) : (decodeLine cs).wellFormed = true := by
  cases cs with
  | nil => rfl
  | cons c cs =>
    by_cases hc : c = chColon
    · rw [show decodeLine (c :: cs) = .lineRecord from if_pos hc]
      rfl
    · rw [show decodeLine (c :: cs) = .lineCommand c from if_neg hc]
      simp [Instr.wellFormed, hc]

theorem recordRow_wellFormed (m : Mode) (tt : Byte) {r : Rec} (hr : r.wellFormed = true) : (recordRow m tt r).wellFormed = true := by
  obtain h0 | h1 | h2 : tt.toNat = 0 ∨ tt.toNat = 1 ∨ 2 ≤ tt.toNat := by omega
  · cases m with
    | flash => rwa [(recordRow_of_data r h0).1]
    | verify => rwa [(recordRow_of_data r h0).2]
  · cases m with
    | flash => rwa [(recordRow_of_eof r h1).1]
    | verify => rwa [(recordRow_of_eof r h1).2]
  · rw [recordRow_of_other r m h2]
    simp [Instr.wellFormed, h2, hr]

/-- The byte count of a decoded record is the value of two characters. -/
theorem fieldsOf_wellFormed (cs : List Byte) : (fieldsOf cs).wellFormed = true := by
  refine decide_eq_true ?_
  have hlt := (byteAt cs 1).isLt
  rw [byteAt_toNat] at hlt
  rw [fieldsOf_data_length]
  omega

theorem decodeDigit_wellFormed (c : Byte) : (decodeDigit c).wellFormed = true := by
  unfold decodeDigit
  split
  case h_23 =>
    simp only [imp_false] at *
    simp only [Instr.wellFormed, isHexDigit, Bool.not_eq_true', Bool.or_eq_false_iff, Bool.and_eq_false_iff,
      decide_eq_false_iff_not]
    omega
  all_goals rfl

theorem noOperand_wellFormed {xs : List Operand} {i j : Instr} (hi : i.wellFormed = true) (h : noOperand xs i = .ok j) :
    j.wellFormed = true := by
  cases xs with
  | nil =>
    cases h
    exact hi
  | cons x xs => cases h

theorem decodeSymbolic_wellFormed {op : OpName} {xs : List Operand} {i : Instr} (h : decodeSymbolic op xs = .ok i) :
    i.wellFormed = true := by
  cases op <;> simp only [decodeSymbolic] at h
  case next =>
    split at h
    · split at h <;> cases h
      rename_i hcn
      simpa [Instr.wellFormed] using hcn
    · cases h
  case sendByte | critical | hexNibbleToDec | hexNibbleToHex | hexByteToDec | hexByteToHex | hexWordToDec | hexWordToHex | hwstep
      | flashReadByte | flashErasePage | flashFillWord | flashCommitPage | processRecord | runPass | wdtArm | transportFault =>
    split at h <;> cases h
    rfl
  all_goals exact noOperand_wellFormed (by rfl) h

/-- Settles O2: each format by its lemma. -/
theorem decodedInstructionsAreWellFormed : Obligations.DecodedInstructionsAreWellFormed := by
  intro u i h
  cases u with
  | byte b =>
    cases h
    exact decodeByte_wellFormed b
  | line cs =>
    cases h
    exact decodeLine_wellFormed cs
  | hexrec m cs =>
    obtain hshort | hlong := Nat.lt_or_ge cs.length (11 + 2 * columnByte cs 1)
    · rw [decode_hexrec_of_short m hshort] at h
      cases h
    · rw [decode_hexrec_of_length m hlong] at h
      cases h
      exact recordRow_wellFormed m _ (fieldsOf_wellFormed cs)
  | digit c =>
    cases h
    exact decodeDigit_wellFormed c
  | symbolic op xs => exact decodeSymbolic_wellFormed h
  | unreadable nbits w => cases h

/-! ## Units written out, and the step that runs a unit -/

/-- Settles O5: each unit is evaluated by the decoder. -/
theorem unitsWrittenFromTheSpecDecode : Obligations.UnitsWrittenFromTheSpecDecode :=
  ⟨rfl, rfl, rfl, rfl, rfl, rfl, rfl, rfl, rfl, rfl, rfl, rfl, rfl⟩

theorem runTask_of_decode {t : Task} {i : Instr} (h : t = .instr i ∨ ∃ u, t = .fetch u ∧ decode u = .ok i) (s : State) :
    runTask t s = exec i s := by
  obtain rfl | ⟨u, rfl, hd⟩ := h
  · rfl
  · rw [runTask, hd]

/-- Settles O6: the processor's step runs the next task (`cpuStep_main`, `step_task`), which is the instruction. -/
theorem stepRunsTheDecodedInstruction : Obligations.StepRunsTheDecodedInstruction := by
  intro s t k i hin hheld hm ht
  refine ⟨fun later henv => ?_, fun henv hwait => ?_⟩
  · rw [step_of_env henv]
    exact (cpuStep_main (s := { s with env := later }) hin hheld hm).trans (runTask_of_decode ht _)
  · rw [step_task ⟨henv, hin, hheld⟩ hm hwait]
    exact runTask_of_decode ht _

end Sys2Proof.Machine
end

section
/-! PROOFS. The Line Reader's polling (spec/42_line_reader.md) and the Boot Sequencer (spec/46_boot_sequencer.md): one equation a branch. -/

namespace Sys2Proof.Machine

section
variable {s : State}

/-! ## Polling -/

theorem exec_byteOther_of_full (b : Byte) (h : s.cfg.lineCap ≤ s.lineLen) :
    exec (.byteOther b) s = .next (setResult (.bool false) s) :=
  if_neg (Nat.not_lt.2 h)

/-- Settles O14: the branch of class OTHER where there is no room (`exec_byteOther_of_full`). -/
theorem byteBeyondTheCapacityIsDropped : Obligations.ByteBeyondTheCapacityIsDropped :=
  fun b _ hfull => exec_byteOther_of_full b hfull

theorem startLine_of_open (h : s.lineDone = false) : startLine s = s := if_neg (Bool.eq_false_iff.1 h)

theorem startLine_of_done (h : s.lineDone = true) : startLine s = { s with lineLen := 0, lineDone := false } := if_pos h

theorem startLine_err (s : State) : (startLine s).err = s.err := by
  unfold startLine
  split <;> rfl

theorem exec_pollLine_of_noError (h : anyError s.err = false) :
    exec .pollLine s = .next (push [.instr .receiveByte, .micro .pollGot] (startLine s)) := by
  have hnone : anyError (startLine s).err = false := by rwa [startLine_err]
  exact if_neg (Bool.eq_false_iff.1 hnone)

theorem exec_pollLine_of_error (h : anyError s.err = true) : exec .pollLine s = exec (.transportFault s.err) (startLine s) := by
  have hany : anyError (startLine s).err = true := by rwa [startLine_err]
  rw [← startLine_err s]
  exact if_pos hany

theorem runMicro_pollGot_of_noByte (h : s.result = .noByte) : runMicro .pollGot s = .next (setResult (.bool false) s) := by
  rw [runMicro, pollGot, h]

theorem runMicro_pollGot_of_byte {b : Byte} (h : s.result = .byte b) :
    runMicro .pollGot s = .next (push [.fetch (.byte b)] s) := by
  rw [runMicro, pollGot, h]

/-- Settles O15: no flag is set, and the two branches of `startLine` and of the byte taken give the clauses. -/
theorem pollLineTakesOneByte : Obligations.PollLineTakesOneByte := by
  intro s herr
  have hnone : anyError s.err = false := by rw [herr]; rfl
  refine ⟨fun hopen => ?_, fun hdone => ?_, runMicro_pollGot_of_noByte, fun b => runMicro_pollGot_of_byte⟩
  · rw [exec_pollLine_of_noError hnone, startLine_of_open hopen]
    rfl
  · rw [exec_pollLine_of_noError hnone, startLine_of_done hdone]
    rfl

/-- Settles O16: `poll_line` with a flag set is `TransportFault` on the started line (`exec_pollLine_of_error`). -/
theorem transportFaultAbandonsTheMainFlow : Obligations.TransportFaultAbandonsTheMainFlow := by
  refine ⟨fun _ _ => rfl, fun s herr => ?_⟩
  have hany : anyError s.err = true := by simpa only [anyError, Bool.or_eq_true, or_assoc] using herr
  rw [exec_pollLine_of_error hany]
  exact ⟨fun hopen => by rw [startLine_of_open hopen], fun hdone => by rw [startLine_of_done hdone]⟩

/-! ## Lines -/

theorem exec_lineRecord_of_running (h : s.tRunning = true) :
    exec .lineRecord s = .next (push [.instr (.processRecord s.mode)] s) := by
  rw [exec, execLineRecord, if_pos h]

theorem exec_lineRecord_of_first (h : s.tRunning = false) :
    exec .lineRecord s = .next (push [.instr (.processRecord s.mode)] { s with tStart := s.ms, tRunning := true }) := by
  rw [exec, execLineRecord, if_neg (Bool.eq_false_iff.1 h)]

theorem exec_menu_of_return (h : s.menuPlan = []) : exec .menu s = .next s := by
  rw [exec, execMenu, h]

theorem exec_menu_of_acts {acts : List MenuAct} {later : List (List MenuAct)} (h : s.menuPlan = acts :: later) :
    exec .menu s = .next (push (acts.map menuTask) { s with menuPlan := later }) := by
  rw [exec, execMenu, h]

/-- Settles O17: a record line with the measurement running or not, and the menu with acts left or not. -/
theorem linesAreRoutedByTheirClass : Obligations.LinesAreRoutedByTheirClass :=
  fun _ => ⟨exec_lineRecord_of_running, exec_lineRecord_of_first, rfl, fun _ => rfl, exec_menu_of_return,
    fun _ _ => exec_menu_of_acts⟩

/-! ## The passes -/

theorem passLoop_of_polling (h : s.status = .waiting ∨ s.status = .inProgress) :
    passLoop s = push [.instr .pollLine, .micro .passRoute] s := by
  obtain h | h := h <;> rw [passLoop, h]

theorem passLoop_of_ended (h : s.status = .ok ∨ s.status = .error) : passLoop s = setResult (.status s.status) s := by
  obtain h | h := h <;> rw [passLoop, h]

theorem passRoute_of_line (h : s.result = .bool true) :
    passRoute s = push [.fetch (.line (lineText s)), .micro .passLoop] s := if_pos h

theorem passRoute_of_noLine (h : s.result = .bool false) : passRoute s = push [.micro .passLoop] s :=
  if_neg (by rw [h]; exact nofun)

/-- `boot_main`'s tasks stand before what was there. -/
theorem exec_bootMain (s : State) : exec .bootMain s = .next { s with
    main := .instr .bootDecide :: .instr .blInit :: emit s.cfg.strStartup ++ passFrom .flash ++ s.main } := rfl

/-- `run_pass` starts the pass, and its banner, prompt and loop stand before what was there. -/
theorem exec_runPass (m : Mode) (s : State) : exec (.runPass m) s =
    .next (push (emit (bannerText s.cfg m) ++ emit s.cfg.strPrompt ++ [.micro .passLoop]) (startPass m s)) := rfl

/-- Settles O45: the tasks of `boot_main` and of `run_pass`, and the branches of the loop's head and of its routing. -/
theorem passesPollUntilTheyEnd : Obligations.PassesPollUntilTheyEnd := by
  intro s
  refine ⟨?_, ?_, ?_, fun m => ?_, fun h => ?_, fun h => ?_, fun h => ?_, fun h => ?_⟩
  · rw [exec_bootMain, List.append_assoc]
    rfl
  · rw [exec_runPass, push, List.append_assoc]
    rfl
  · rw [exec_runPass, push, List.append_assoc]
    rfl
  · cases m <;> rfl
  · rw [runMicro, passLoop_of_polling h]
    rfl
  · rw [runMicro, passLoop_of_ended h]
    rfl
  · rw [runMicro, passRoute_of_line h]
    rfl
  · rw [runMicro, passRoute_of_noLine h]
    rfl

theorem passEnd_of_error (m : Mode) (h : s.status = .error) : passEnd m s = push [.instr .forceRebootToBootloader] s := if_pos h

/-- The elapsed time of two clock values, with the wrap between them or not. -/
theorem elapsedTime_eq {p : Params} {tStart t : Nat} (hs : tStart < 2 ^ p.msWidth) (ht : t < 2 ^ p.msWidth) :
    elapsedTime p tStart t = if tStart ≤ t then t - tStart else t + 2 ^ p.msWidth - tStart := by
  rw [elapsedTime, Nat.mod_eq_of_lt hs]
  split
  · rw [show t + 2 ^ p.msWidth - tStart = (t - tStart) + 2 ^ p.msWidth by omega, Nat.add_mod_right, Nat.mod_eq_of_lt (by omega)]
  · rw [Nat.mod_eq_of_lt (by omega)]

theorem reportElapsed_of_clock {t : Nat} (h : s.result = .clock t) :
    reportElapsed s = push (emit (textOf s.cfg.strElapsed (elapsedTime s.cfg s.tStart t))) s := by
  rw [reportElapsed, h]

/-- Settles O46: the end of a pass by its status, and the elapsed time in numbers. -/
theorem passEndsInRebootOrNextPass : Obligations.PassEndsInRebootOrNextPass := by
  refine fun s => ⟨fun m h => ?_, fun h => ?_, fun h => ?_, fun t h hs ht => ?_⟩
  · rw [runMicro, passEnd_of_error m h]
    rfl
  · rw [runMicro, passEnd_of_ok h]
    rfl
  · rw [runMicro, passEnd_of_ok h]
    rfl
  · rw [runMicro, reportElapsed_of_clock h, elapsedTime_eq hs ht]
    rfl

/-- Settles O47: the writes of `bl_init` and of the operations it calls, taken together. -/
theorem blInitPreparesTheStage : Obligations.BlInitPreparesTheStage := fun _ => rfl

end

end Sys2Proof.Machine
end

section
/-! PROOFS. Handoff, watchdog, resets and the environment (spec/47_handoff_watchdog.md, spec/70_reset_and_hazards.md). -/

namespace Sys2Proof.Machine

section
variable {s : State}

/-! ## The handoff -/

theorem exec_bootDecide_of_application (h : plainPowerUp s = true ∨ sigIsMagic s = true) :
    exec .bootDecide s = .next (handOver { s with sig0 := 0x00, sig1 := 0x00 }) :=
  if_pos (Bool.or_eq_true_iff.2 h)

theorem exec_bootDecide_of_bootloader (hp : plainPowerUp s = false) (hm : sigIsMagic s = false) :
    exec .bootDecide s = .next { s with sig0 := s.cfg.magic0, sig1 := s.cfg.magic1, seq := .blInit } :=
  if_neg (by rw [hp, hm]; exact nofun)

theorem plainPowerUp_iff : plainPowerUp s = true ↔ s.rcExt = false ∧ s.rcWdt = false := by
  simp [plainPowerUp]

theorem sigIsMagic_iff : sigIsMagic s = true ↔ s.sig0 = s.cfg.magic0 ∧ s.sig1 = s.cfg.magic1 := by
  simp [sigIsMagic]

/-- Settles O48: the two branches of `boot_decide`, their conditions read off `plainPowerUp` and `sigIsMagic`. -/
theorem bootDecideFollowsItsTable : Obligations.BootDecideFollowsItsTable := by
  intro s
  rw [← plainPowerUp_iff, ← sigIsMagic_iff]
  refine ⟨exec_bootDecide_of_application, fun hcause hsig => ?_⟩
  refine exec_bootDecide_of_bootloader ?_ (Bool.eq_false_iff.2 hsig)
  obtain h | h := hcause <;> simp [plainPowerUp, h]

/-! ## The forced reboots -/

/-- Left alone, a forced reboot comes to its loop in three steps. -/
theorem steps_forceReboot {stage : Stage} {k : List Task} (ha : Alone s) (hm : s.main = .instr (rebootInstr stage) :: k) :
    steps 3 s = .next (enterReboot stage (writeRebootSig1 stage (startReboot stage s))) := by
  have hstart : step s = .next (startReboot stage s) := by
    rw [step_task ha hm (.inl (by cases stage <;> simp [rebootInstr]))]
    cases stage <;> rfl
  have hwrite : step (startReboot stage s) =
      .next { writeRebootSig1 stage (startReboot stage s) with main := [.micro (.rebootArm stage)] } :=
    step_task (t := .micro (.rebootSig1 stage)) (k := [.micro (.rebootArm stage)]) (by exact ⟨ha.env, ha.handler, ha.held⟩) rfl
      (.inl nofun)
  have harm : step { writeRebootSig1 stage (startReboot stage s) with main := [.micro (.rebootArm stage)] } =
      .next (enterReboot stage (writeRebootSig1 stage (startReboot stage s))) := by
    rw [step_task (t := .micro (.rebootArm stage)) (k := []) (by exact ⟨ha.env, ha.handler, ha.held⟩) rfl (.inl nofun)]
    cases stage <;> rfl
  rw [steps_cons hstart, steps_cons hwrite, steps_cons harm, steps_zero]

/-- Settles O49: each clause is the update its operation makes; the run is `steps_forceReboot`. -/
theorem handoffRebootsAndWatchdog : Obligations.HandoffRebootsAndWatchdog := by
  intro s
  refine ⟨rfl, rfl, rfl, rfl, rfl, rfl, fun k henv hin hheld => ⟨fun hm => ?_, fun hm => ?_⟩, rfl, rfl, rfl, rfl, fun t => rfl⟩
  · exact steps_forceReboot (stage := .bootloader) ⟨henv, hin, hheld⟩ hm
  · exact steps_forceReboot (stage := .application) ⟨henv, hin, hheld⟩ hm

/-- The watchdog reset keeps the signature and the parameters, and sets its cause. -/
theorem deviceReset_watchdog_frame (s : State) : (deviceReset .watchdog s).sig0 = s.sig0 ∧
    (deviceReset .watchdog s).sig1 = s.sig1 ∧ (deviceReset .watchdog s).cfg = s.cfg ∧ (deviceReset .watchdog s).rcWdt = true :=
  ⟨rfl, rfl, rfl, rfl⟩

/-- What `boot_decide` comes to after a watchdog reset: the application where the signature is the magic, else the bootloader. -/
theorem exec_bootDecide_after_watchdog (s : State) : ∃ t, exec .bootDecide (deviceReset .watchdog s) = .next t ∧
    t.seq = (if s.sig0 = s.cfg.magic0 ∧ s.sig1 = s.cfg.magic1 then .app else .blInit) ∧
    (t.seq = .app → t.sig0 = 0 ∧ t.sig1 = 0) ∧ (t.seq = .blInit → t.sig0 = s.cfg.magic0 ∧ t.sig1 = s.cfg.magic1) := by
  obtain ⟨h0, h1, hcfg, hcause⟩ := deviceReset_watchdog_frame s
  have hplain : plainPowerUp (deviceReset .watchdog s) = false := by simp [plainPowerUp, hcause]
  by_cases hmagic : s.sig0 = s.cfg.magic0 ∧ s.sig1 = s.cfg.magic1
  · have hsig : sigIsMagic (deviceReset .watchdog s) = true := sigIsMagic_iff.2 hmagic
    exact ⟨_, exec_bootDecide_of_application (.inr hsig), (if_pos hmagic).symm, fun _ => ⟨rfl, rfl⟩, nofun⟩
  · have hsig : sigIsMagic (deviceReset .watchdog s) = false := Bool.eq_false_iff.2 (mt sigIsMagic_iff.1 hmagic)
    exact ⟨_, exec_bootDecide_of_bootloader hplain hsig, (if_neg hmagic).symm, nofun, fun _ => ⟨rfl, rfl⟩⟩

/-- The magic of legal parameters is not (0, 0) (D43). -/
theorem magic_ne_zero {p : Params} (hp : p.legal = true) : ¬(0 = p.magic0 ∧ 0 = p.magic1) := by
  simp only [Params.legal, Bool.and_eq_true, Bool.not_eq_true', Bool.and_eq_false_iff, decide_eq_false_iff_not] at hp
  rintro ⟨h0, h1⟩
  exact hp.1.1.1.2.elim (fun h => h h0.symm) (fun h => h h1.symm)

/-- The signature that a whole forced reboot leaves is that of its stage (R264, R265). -/
theorem reboot_signature (stage : Stage) (s : State) :
    (enterReboot stage (writeRebootSig1 stage (startReboot stage s))).sig0 = (signatureFor s.cfg stage).1 ∧
      (enterReboot stage (writeRebootSig1 stage (startReboot stage s))).sig1 = (signatureFor s.cfg stage).2 := by
  cases stage <;> exact ⟨rfl, rfl⟩

/-- Settles O51: every clause runs `boot_decide` after a watchdog reset (`exec_bootDecide_after_watchdog`) on the signature written before it. -/
theorem rebootsComeOutWhereTheyShould : Obligations.RebootsComeOutWhereTheyShould := by
  intro s hlegal
  refine ⟨?_, ?_, fun h0 h1 => ?_, ?_, ?_⟩
  · obtain ⟨x, hx, hseq, -, hbl⟩ :=
      exec_bootDecide_after_watchdog (enterReboot .bootloader (writeRebootSig1 .bootloader (startReboot .bootloader s)))
    have hout : x.seq = .blInit := hseq.trans (if_neg (magic_ne_zero hlegal))
    exact ⟨_, _, _, _, x, rfl, rfl, rfl, rfl, hx, hout, hbl hout⟩
  · obtain ⟨x, hx, hseq, happ, -⟩ :=
      exec_bootDecide_after_watchdog (enterReboot .application (writeRebootSig1 .application (startReboot .application s)))
    have hout : x.seq = .app := hseq.trans (if_pos (reboot_signature .application s))
    exact ⟨_, _, _, _, x, rfl, rfl, rfl, rfl, hx, hout, happ hout⟩
  · obtain ⟨v, hv, hseq, -, -⟩ := exec_bootDecide_after_watchdog s
    exact ⟨_, v, rfl, hv, hseq.trans (if_pos ⟨h0, h1⟩)⟩
  · obtain ⟨v, hv, hseq, -, -⟩ := exec_bootDecide_after_watchdog (startReboot .bootloader s)
    exact ⟨_, _, v, rfl, rfl, hv, rfl, rfl, hseq.trans (if_congr (and_congr_left' eq_comm) rfl rfl)⟩
  · obtain ⟨v, hv, hseq, -, -⟩ := exec_bootDecide_after_watchdog (startReboot .application s)
    exact ⟨_, _, v, rfl, rfl, hv, rfl, rfl, hseq.trans (if_congr (and_iff_right rfl) rfl rfl)⟩

/-! ## Resets -/

/-- The kind of a reset event. -/
theorem exec_reset_cases {i : Instr} (hi : i = .powerOn ∨ i = .extReset ∨ i = .wdtExpire) (s : State) :
    ∃ kind, exec i s = .next (deviceReset kind s) ∧ (i = .powerOn → kind = .powerOn) ∧ (i = .extReset → kind = .external) ∧
      (i = .wdtExpire → kind = .watchdog) := by
  obtain rfl | rfl | rfl := hi
  · exact ⟨.powerOn, rfl, fun _ => rfl, nofun, nofun⟩
  · exact ⟨.external, rfl, nofun, fun _ => rfl, nofun⟩
  · exact ⟨.watchdog, rfl, nofun, nofun, fun _ => rfl⟩

theorem cutPage_eq_some {a : Nat} (h : s.flashOp = some (.erase a) ∨ s.flashOp = some (.commit a) ∨
    (s.flashOp = none ∧ ∃ k, s.flashSession = some (a, k))) : cutPage s = some a := by
  obtain h | h | ⟨h, k, hk⟩ := h
  · rw [cutPage, h]
  · rw [cutPage, h]
  · rw [cutPage, h, hk]
    rfl

theorem cutPage_eq_none (ho : s.flashOp = none) (hs : s.flashSession = none) : cutPage s = none := by
  rw [cutPage, ho, hs]
  rfl

/-- A reset leaves the flash outside the page it cuts. -/
theorem read_cutFlash {a x : Nat} (h : cutPage s = some a) (hx : ¬(a ≤ x ∧ x < a + s.cfg.pageSize)) :
    Memory.read (cutFlash s) x = Memory.read s.flash x := by
  rw [cutFlash, h, Memory.read_writeBytes, freeBytes_length, if_neg hx]

/-- Settles O50: each reset event is a `deviceReset` of its kind; the flash by `read_cutFlash`. -/
theorem resetEventsReachTheEntry : Obligations.ResetEventsReachTheEntry := by
  intro i s hi
  obtain ⟨kind, he, hpower, hext, hwdt⟩ := exec_reset_cases hi s
  refine ⟨_, he, deviceReset_atResetEntry kind s, rfl, rfl, rfl, rfl, rfl, rfl, rfl, fun h => ?_, fun h => ?_, fun h => ?_,
    fun ho hs => ?_, fun a ha x hx => ?_⟩
  · rw [hpower h]
    exact ⟨rfl, rfl⟩
  · rw [hext h]
    rfl
  · rw [hwdt h]
    exact ⟨rfl, rfl, rfl⟩
  · show cutFlash s = s.flash
    rw [cutFlash, cutPage_eq_none ho hs]
  · exact read_cutFlash (cutPage_eq_some ha) hx

/-- Settles O53: the values are those of `State.powerUp`, and `good_powerUp` gives the invariant. -/
theorem powerUpStateIsTheSpecsAndGood : Obligations.PowerUpStateIsTheSpecsAndGood := by
  have hflow : ∀ p, FlowOnCourse (State.powerUp p) := fun p => (flowOnCourse_decide rfl).2 (.inl rfl)
  refine ⟨fun p => ⟨⟨rfl, rfl, rfl, rfl, rfl, rfl⟩, rfl, rfl, rfl, rfl, rfl, rfl, rfl, good_powerUp, hflow p⟩, rfl, ?_, hflow _⟩
  exact good_powerUp (by decide)

/-! ## The environment -/

theorem step_envMove {m : Move} {later : List Move} (henv : s.env = m :: later) (hm : m ≠ .cpu) :
    step s = .next (envMove m { s with env := later }) := by
  rw [step_of_env henv]
  cases m with
  | cpu => exact absurd rfl hm
  | _ => rfl

theorem passTime_of_disarmed (dt : Nat) (h : s.wdtEn = false) : passTime dt s = s := if_neg (Bool.eq_false_iff.1 h)

theorem passTime_of_below {dt : Nat} (h : s.wdtEn = true) (hlt : s.wdtElapsed + dt < timeoutOf s.cfg s.wdtTimeout) :
    passTime dt s = { s with wdtElapsed := s.wdtElapsed + dt } := by
  rw [passTime, if_pos h, if_neg (Nat.not_le.2 hlt)]

theorem passTime_of_reached {dt : Nat} (h : s.wdtEn = true) (hle : timeoutOf s.cfg s.wdtTimeout ≤ s.wdtElapsed + dt) :
    passTime dt s = deviceReset .watchdog { s with wdtElapsed := s.wdtElapsed + dt } := by
  rw [passTime, if_pos h, if_pos hle]

theorem envMove_appSig_of_app (second : Bool) (b : Byte) (h : s.seq = .app) :
    envMove (.appSig second b) s = writeSig second b s := if_pos h

/-- A move of the application while it does not run changes nothing. -/
theorem envMove_app_of_not_app {m : Move} (hm : m = .appReset ∨ ∃ second b, m = .appSig second b) (h : s.seq ≠ .app) :
    envMove m s = s := by
  obtain rfl | ⟨second, b, rfl⟩ := hm <;> exact if_neg h

/-- Settles O52: every event is the step of its move (`step_envMove`), and each branch of a move is one equation. -/
theorem environmentEventsAndTime : Obligations.EnvironmentEventsAndTime := by
  intro s later
  refine ⟨fun b ovr fe henv => ?_, fun henv => step_envMove henv nofun, fun henv => step_envMove henv nofun,
    fun b henv => ?_, fun b henv => ?_, fun henv => ?_, fun henv => step_envMove henv nofun,
    fun henv => step_envMove henv nofun, fun dt henv => ?_⟩
  · rw [step_envMove henv nofun]
    exact ⟨fun hp => congrArg _ (if_neg (Bool.eq_false_iff.1 hp)), fun hp => congrArg _ (if_pos hp)⟩
  · rw [step_envMove henv nofun]
    exact ⟨fun hs => congrArg _ (envMove_appSig_of_app (s := { s with env := later }) false b hs),
      fun hs => congrArg _ (envMove_app_of_not_app (s := { s with env := later }) (.inr ⟨false, b, rfl⟩) hs)⟩
  · rw [step_envMove henv nofun]
    exact ⟨fun hs => congrArg _ (envMove_appSig_of_app (s := { s with env := later }) true b hs),
      fun hs => congrArg _ (envMove_app_of_not_app (s := { s with env := later }) (.inr ⟨true, b, rfl⟩) hs)⟩
  · rw [step_envMove henv nofun]
    exact ⟨fun hs => congrArg _ (if_pos hs),
      fun hs => congrArg _ (envMove_app_of_not_app (s := { s with env := later }) (.inl rfl) hs)⟩
  · rw [step_envMove henv nofun]
    refine ⟨fun hoff => ?_, fun hon hlt => ?_, fun hon hle => ?_⟩
    · exact congrArg _ (passTime_of_disarmed (s := { s with env := later }) dt hoff)
    · exact congrArg _ (passTime_of_below (s := { s with env := later }) hon hlt)
    · refine ⟨_, congrArg _ (passTime_of_reached (s := { s with env := later }) hon hle), deviceReset_atResetEntry _ _, ?_⟩
      exact ⟨rfl, rfl, rfl⟩

end

end Sys2Proof.Machine
end

section
/-! PROOFS. The flash calls (spec/44_page_flash.md): what each call starts and what refuses it, what the device completes, and a page write run to
its end. -/

namespace Sys2Proof.Machine

section
variable {s : State} {a : Nat}

/-! ## The tasks of a page write -/

/-- A pair of the page as a little-endian number (R62). -/
theorem pairWord_eq_ofNat (page : List Byte) (k : Nat) :
    pairWord page k = BitVec.ofNat 16 ((byteOf page (2 * k)).toNat + 256 * (byteOf page (2 * k + 1)).toNat) := by
  apply BitVec.eq_of_toNat_eq
  rw [pairWord, append_toNat, BitVec.toNat_ofNat]
  omega

/-- Settles O31: the tasks of each operation, with the words of the page as numbers. -/
theorem pageWriteIsMaskedStepByStep : Obligations.PageWriteIsMaskedStepByStep := by
  refine ⟨fun s => ?_, fun s => rfl, fun s c => ?_, fun s b => rfl⟩
  · simp only [← pairWord_eq_ofNat]
    rw [exec, execWriteCurrentPage, push, pageWriteSteps, List.append_assoc]
    rfl
  · cases c <;> rfl

/-! ## The calls -/

theorem flashBusy_of_none (h : s.flashOp = none) : flashBusy s = false := by rw [flashBusy, h]; rfl

theorem flashBusy_of_some (h : s.flashOp ≠ none) : flashBusy s = true := Option.isSome_iff_ne_none.2 h

theorem pageAligned_eq_true_iff (p : Params) (a : Nat) : pageAligned p a = true ↔ a % p.pageSize = 0 := decide_eq_true_iff

theorem inFlash_eq_true_iff (p : Params) (a : Nat) : inFlash p a = true ↔ a < p.flashSize := decide_eq_true_iff

/-- An erase or a commit is refused where an operation is in flight or the address is not aligned. -/
theorem callBlocked (h : s.flashOp ≠ none ∨ a % s.cfg.pageSize ≠ 0) : (flashBusy s || !pageAligned s.cfg a) = true := by
  obtain h | h := h
  · rw [flashBusy_of_some h, Bool.true_or]
  · rw [pageAligned, decide_eq_false h, Bool.not_false, Bool.or_true]

theorem callOpen (ho : s.flashOp = none) (ha : a % s.cfg.pageSize = 0) : ¬ (flashBusy s || !pageAligned s.cfg a) = true := by
  rw [flashBusy_of_none ho, (pageAligned_eq_true_iff _ _).2 ha]
  exact nofun

theorem addressInside (ha : a < s.cfg.flashSize) : ¬ (!inFlash s.cfg a) = true := by
  rw [(inFlash_eq_true_iff _ _).2 ha]
  exact nofun

theorem addressOutside (ha : s.cfg.flashSize ≤ a) : (!inFlash s.cfg a) = true := by
  rw [inFlash, decide_eq_false (Nat.not_lt.2 ha), Bool.not_false]

theorem exec_flashErasePage (ho : s.flashOp = none) (ha : pageAddress s.cfg a) : exec (.flashErasePage a) s =
    .next { s with flashOp := some (.erase a), flashSession := none, rwwOk := false } := by
  rw [exec, execFlashErasePage, if_neg (callOpen ho ha.1), if_neg (addressInside ha.2)]

theorem exec_flashErasePage_blocked (h : s.flashOp ≠ none ∨ a % s.cfg.pageSize ≠ 0) :
    exec (.flashErasePage a) s = .refused .flashProtocol := if_pos (callBlocked h)

theorem exec_flashErasePage_outside (ho : s.flashOp = none) (ha : a % s.cfg.pageSize = 0) (hf : s.cfg.flashSize ≤ a) :
    exec (.flashErasePage a) s = .refused .outsideFlash := by
  rw [exec, execFlashErasePage, if_neg (callOpen ho ha), if_pos (addressOutside hf)]

theorem exec_flashCommitPage (ho : s.flashOp = none) (ha : pageAddress s.cfg a)
    (hs : s.flashSession = some (a, s.cfg.pageSize / 2)) :
    exec (.flashCommitPage a) s = .next { s with flashOp := some (.commit a), rwwOk := false } := by
  rw [exec, execFlashCommitPage, if_neg (callOpen ho ha.1), if_neg (addressInside ha.2), if_pos hs]

theorem exec_flashCommitPage_blocked (h : s.flashOp ≠ none ∨ a % s.cfg.pageSize ≠ 0) :
    exec (.flashCommitPage a) s = .refused .flashProtocol := if_pos (callBlocked h)

theorem exec_flashCommitPage_outside (ho : s.flashOp = none) (ha : a % s.cfg.pageSize = 0) (hf : s.cfg.flashSize ≤ a) :
    exec (.flashCommitPage a) s = .refused .outsideFlash := by
  rw [exec, execFlashCommitPage, if_neg (callOpen ho ha), if_pos (addressOutside hf)]

theorem exec_flashCommitPage_unfilled (ha : pageAddress s.cfg a) (hs : s.flashSession ≠ some (a, s.cfg.pageSize / 2)) :
    exec (.flashCommitPage a) s = .refused .flashProtocol := by
  by_cases ho : s.flashOp = none
  · rw [exec, execFlashCommitPage, if_neg (callOpen ho ha.1), if_neg (addressInside ha.2), if_neg hs]
  · exact exec_flashCommitPage_blocked (.inl ho)

theorem exec_flashFillWord {base k : Nat} (w : Word) (ho : s.flashOp = none) (hs : s.flashSession = some (base, k))
    (ha : a = base + 2 * k) (hk : 2 * k < s.cfg.pageSize) : exec (.flashFillWord a w) s = .next { s with
      ftemp := (s.ftemp.set (offsetOf s.cfg a) (lowByte w)).set (offsetOf s.cfg a + 1) (highByte w)
      flashSession := some (base, k + 1) } := by
  have hpair : fillPair a s = some (base, k) := by
    rw [fillPair, hs]
    exact if_pos ⟨ha, hk⟩
  rw [exec, execFlashFillWord, flashBusy_of_none ho, hpair]
  rfl

theorem exec_flashFillWord_busy (w : Word) (h : s.flashOp ≠ none) : exec (.flashFillWord a w) s = .refused .flashProtocol :=
  if_pos (flashBusy_of_some h)

theorem exec_flashFillWord_refused (w : Word) (h : fillPair a s = none) :
    exec (.flashFillWord a w) s = .refused .flashProtocol := by
  by_cases ho : s.flashOp = none
  · rw [exec, execFlashFillWord, flashBusy_of_none ho, h]
    rfl
  · exact exec_flashFillWord_busy w ho

theorem exec_flashWait_of_none (h : s.flashOp = none) : exec .flashWait s = .next s := by
  rw [exec, execFlashWait, flashBusy_of_none h]
  rfl

theorem exec_flashWait_of_some (h : s.flashOp ≠ none) : exec .flashWait s = .next (push [.instr .flashWait] s) :=
  if_pos (flashBusy_of_some h)

theorem exec_flashRwwEnable (h : s.flashOp = none) : exec .flashRwwEnable s = .next { s with rwwOk := true } := by
  rw [exec, execFlashRwwEnable, flashBusy_of_none h]
  rfl

theorem exec_flashRwwEnable_busy (h : s.flashOp ≠ none) : exec .flashRwwEnable s = .refused .flashProtocol :=
  if_pos (flashBusy_of_some h)

/-- Settles O32: the calls in the order of the protocol, each by its equation. -/
theorem flashCallsStartTheirOperation : Obligations.FlashCallsStartTheirOperation := by
  refine ⟨fun s a ho => ⟨exec_flashErasePage ho, fun base k w hs ha hk => ?_, exec_flashCommitPage ho, exec_flashWait_of_none ho,
    exec_flashRwwEnable ho⟩, fun s => exec_flashWait_of_some⟩
  rw [exec_flashFillWord w ho hs ha hk, lowByte, highByte, extractLsb'_lower_byte, extractLsb'_upper_byte]
  rfl

/-- Settles O33: the calls outside the protocol, by what refuses them. -/
theorem flashCallsOutsideTheProtocolAreRefused : Obligations.FlashCallsOutsideTheProtocolAreRefused := by
  intro s a w
  refine ⟨fun ho => ?_, fun ha => ?_, fun ho ha hf => ?_, exec_flashCommitPage_unfilled, fun hs => ?_, fun base k hs hne => ?_⟩
  · exact ⟨exec_flashErasePage_blocked (.inl ho), exec_flashFillWord_busy w ho, exec_flashCommitPage_blocked (.inl ho),
      exec_flashRwwEnable_busy ho⟩
  · exact ⟨exec_flashErasePage_blocked (.inr ha), exec_flashCommitPage_blocked (.inr ha)⟩
  · exact ⟨exec_flashErasePage_outside ho ha hf, exec_flashCommitPage_outside ho ha hf⟩
  · refine exec_flashFillWord_refused w ?_
    rw [fillPair, hs]
  · refine exec_flashFillWord_refused w ?_
    rw [fillPair, hs]
    exact if_neg (by omega)

/-- Settles O34: `flash_read_byte` is `memRead` inside the flash, readable or not. -/
theorem flashReadGivesTheByteAtItsAddress : Obligations.FlashReadGivesTheByteAtItsAddress := by
  intro a s
  refine ⟨fun ha hr ho => ?_, fun ha hu => ⟨Config.freeByte s.freeCount, ?_⟩, fun hf => ?_⟩
  · rw [exec, execFlashReadByte, if_pos ((inFlash_eq_true_iff _ _).2 ha), memRead_readable a s hr ho]
    rfl
  · rw [exec, execFlashReadByte, if_pos ((inFlash_eq_true_iff _ _).2 ha), memRead_unreadable a s hu]
    rfl
  · exact if_neg (mt (inFlash_eq_true_iff _ _).1 (Nat.not_lt.2 hf))

end

/-! ## The device -/

/-- A page of the erased byte, read. -/
theorem read_erasedPage (m : Memory) (a n x : Nat) : Memory.read (Memory.writeBytes m a (List.replicate n erased)) x =
    if a ≤ x ∧ x < a + n then erased else Memory.read m x := by
  rw [Memory.read_writeBytes, List.length_replicate]
  split
  · rw [List.getD_eq_getElem _ _ (by rw [List.length_replicate]; omega), List.getElem_replicate]
  · rfl

/-- A page of bytes from an array, read. -/
theorem read_windowPage (m : Memory) (l : List Byte) (a n x : Nat) : Memory.read (Memory.writeBytes m a (window l n)) x =
    if a ≤ x ∧ x < a + n then byteOf l (x - a) else Memory.read m x := by
  rw [Memory.read_writeBytes, window_length]
  split
  · exact byteOf_window l (by omega)
  · rfl

theorem completeFlash_of_erase {s : State} {a : Nat} (h : s.flashOp = some (.erase a)) : completeFlash s = { s with
    flash := Memory.writeBytes s.flash a (List.replicate s.cfg.pageSize erased), flashOp := none,
    flashSession := some (a, 0) } := by
  rw [completeFlash, h]

theorem completeFlash_of_commit {s : State} {a : Nat} (h : s.flashOp = some (.commit a)) : completeFlash s = { s with
    flash := Memory.writeBytes s.flash a (window s.ftemp s.cfg.pageSize), ftemp := freeBytes s.freeCount s.cfg.pageSize,
    freeCount := s.freeCount + s.cfg.pageSize, flashOp := none, flashSession := none } := by
  rw [completeFlash, h]

/-- Settles O35: the completion of each operation writes one page of the flash (`read_erasedPage`, `read_windowPage`). -/
theorem deviceCompletesEraseAndCommit : Obligations.DeviceCompletesEraseAndCommit := by
  intro s later a henv
  have hstep : step s = .next (completeFlash { s with env := later }) := step_envMove henv nofun
  refine ⟨fun ho => ⟨_, hstep, ?_⟩, fun ho => ⟨_, hstep, ?_⟩⟩
  · rw [completeFlash_of_erase (s := { s with env := later }) ho]
    exact ⟨rfl, read_erasedPage s.flash a s.cfg.pageSize⟩
  · rw [completeFlash_of_commit (s := { s with env := later }) ho]
    exact ⟨rfl, read_windowPage s.flash s.ftemp a s.cfg.pageSize⟩

/-! ## A page write, run to its end -/

/-- The bytes of the staged page are those of `page`, and the others are as before. -/
def PageHolds (p : Params) (curPage : Nat) (page : List Byte) (m m' : Memory) : Prop :=
  ∀ x, Memory.read m' x = if curPage * p.pageSize ≤ x ∧ x < curPage * p.pageSize + p.pageSize
    then byteOf page (x - curPage * p.pageSize) else Memory.read m x

section
variable {s : State} {k : List Task}

theorem Good.curPage_address (hg : Good s) : pageAddress s.cfg (s.curPage * s.cfg.pageSize) :=
  ⟨Nat.mul_mod_left _ _, hg.curPage_lt⟩

/-- The three parts of a page write: the erase, the fills and the commit. -/
theorem steps_pageWriteSteps (hg : Good s) (ha : Alone s) (ho : s.flashOp = none)
    (hm : s.main = pageWriteSteps s ++ k) : ∃ n flash' ftemp' count', steps n s = .next { s with
      main := k, flash := flash', ftemp := ftemp', freeCount := count', flashSession := none, rwwOk := false } ∧
      PageHolds s.cfg s.curPage s.page s.flash flash' := by
  have hp := hg.curPage_address
  obtain ⟨-, heven, -, -⟩ := hg.pages
  have hhalf : 2 * (s.cfg.pageSize / 2) = s.cfg.pageSize := by omega
  rw [pageWriteSteps, pageBase, List.range_eq_range', List.append_assoc] at hm
  unfold PageHolds
  generalize s.curPage * s.cfg.pageSize = base at hm hp ⊢
  have herase := steps_hwstep_erase ha hm ho hp
  obtain ⟨ftemp', hfills, hlen, hbytes⟩ := steps_fills (k := [.instr (.hwstep (.commitPage base))] ++ k) (base := base)
    (page := s.page) (s.cfg.pageSize / 2) 0
    (s := { s with
      main := (List.range' 0 (s.cfg.pageSize / 2)).map
        (fun i => .instr (.hwstep (.fillWord (base + 2 * i) (pairWord s.page i)))) ++ ([.instr (.hwstep (.commitPage base))] ++ k)
      flash := Memory.writeBytes s.flash base (List.replicate s.cfg.pageSize erased), flashSession := some (base, 0),
      rwwOk := false })
    ⟨ha.env, ha.handler, ha.held⟩ rfl ho rfl hp.1 (by show 2 * (0 + s.cfg.pageSize / 2) ≤ s.cfg.pageSize; omega) hg.ftemp_length
  have hcommit := steps_hwstep_commit (k := k) (a := base)
    (s := { s with
      main := [.instr (.hwstep (.commitPage base))] ++ k
      flash := Memory.writeBytes s.flash base (List.replicate s.cfg.pageSize erased)
      ftemp := ftemp', flashSession := some (base, 0 + s.cfg.pageSize / 2), rwwOk := false })
    ⟨ha.env, ha.handler, ha.held⟩ rfl ho hp (by rw [Nat.zero_add])
  refine ⟨5 + (4 * (s.cfg.pageSize / 2) + 5), _, _, _, (steps_add herase).trans ((steps_add hfills).trans hcommit), fun x => ?_⟩
  refine (read_windowPage _ _ _ _ x).trans ?_
  split
  · rename_i hx
    have hin : base ≤ x ∧ x < base + s.cfg.pageSize := hx
    rw [hbytes, if_pos (by omega)]
  · exact (read_erasedPage _ _ _ x).trans (if_neg ‹_›)

/-- A page write run to its end (R192). -/
theorem steps_pageWrite (hg : Good s) (ha : Alone s) (ho : s.flashOp = none) (hm : s.main = .instr .writeCurrentPage :: k) :
    ∃ n flash' ftemp' count', steps n s = .next { s with
      main := k, flash := flash', ftemp := ftemp', freeCount := count', flashSession := none, rwwOk := false } ∧
      PageHolds s.cfg s.curPage s.page s.flash flash' := by
  have hstart : step s = .next { s with main := pageWriteSteps s ++ k } := step_task ha hm (.inl nofun)
  obtain ⟨n, flash', ftemp', count', hrun, hholds⟩ := steps_pageWriteSteps (s := { s with main := pageWriteSteps s ++ k }) (k := k)
    { hg with } ⟨ha.env, ha.handler, ha.held⟩ ho rfl
  exact ⟨n + 1, flash', ftemp', count', (steps_cons hstart).trans hrun, hholds⟩

/-- The re-enable run to its end (R193). -/
theorem steps_rwwReenable (ha : Alone s) (ho : s.flashOp = none) (hm : s.main = .instr .rwwReenable :: k) :
    steps 5 s = .next { s with main := k, rwwOk := true } := by
  have hstart : step s = .next { s with main := .instr (.hwstep .rwwEnable) :: k } := step_task ha hm (.inl nofun)
  have hcall : steps 2 { s with main := .instr (.hwstep .rwwEnable) :: k } = .next { s with
      ie := false, main := .instr .flashWait :: .micro (.unmask s.ie) :: k, rwwOk := true } :=
    steps_hwstep (c := .rwwEnable) (k := k) (by exact ⟨ha.env, ha.handler, ha.held⟩) rfl nofun (exec_flashRwwEnable ho)
  refine (steps_cons hstart).trans ((steps_add (n := 2) hcall).trans ?_)
  exact steps_wait_unmask (by exact ⟨ha.env, ha.handler, ha.held⟩) rfl ho

end

/-- Settles O36: the run of `steps_pageWrite`. -/
theorem pageWriteReachesTheFlash : Obligations.PageWriteReachesTheFlash := by
  intro s k hg henv hin hheld ho hm
  obtain ⟨n, flash', ftemp', count', hrun, hholds⟩ := steps_pageWrite hg ⟨henv, hin, hheld⟩ ho hm
  exact ⟨n, _, hrun, rfl, hholds⟩

end Sys2Proof.Machine
end

section
/-! PROOFS. The Decoder/Flasher (spec/45_record_decoder.md): the address test and the checksum as numbers, step 4 of a data record in both modes, and the
runs of a record that crosses a page and of the end-of-file record. -/

namespace Sys2Proof.Machine

/-! ## The address test and the checksum -/

theorem addressFault_none (a : Nat) : addressFault none a = if a = 0 then none else some .addrFirst := rfl

theorem addressFault_some (e a : Nat) : addressFault (some e) a = if a < e then some .addrRegress else none := rfl

theorem addressFault_of_accepted {s : State} {r : Rec} (h : addressAccepted s r) : addressFault s.lastEnd r.addr.toNat = none := by
  obtain ⟨hnone, hzero⟩ | ⟨e, hsome, hle⟩ := h
  · rw [hnone, addressFault_none, if_pos hzero]
  · rw [hsome, addressFault_some, if_neg (Nat.not_lt.2 hle)]

theorem lowByte_toNat (w : Word) : (lowByte w).toNat = w.toNat % 256 := by
  rw [lowByte, extractLsb'_lower_byte, BitVec.toNat_ofNat]
  omega

theorem highByte_toNat (w : Word) : (highByte w).toNat = w.toNat / 256 := by
  have hlt := w.isLt
  rw [highByte, extractLsb'_upper_byte, BitVec.toNat_ofNat]
  omega

theorem headerSum_toNat (tt : Byte) (r : Rec) : (headerSum tt r).toNat =
    (r.data.length + r.addr.toNat / 256 + r.addr.toNat % 256 + tt.toNat) % 256 := by
  rw [headerSum, BitVec.toNat_add, BitVec.toNat_add, BitVec.toNat_add, BitVec.toNat_ofNat, lowByte_toNat, highByte_toNat]
  omega

theorem checksumOk_iff (sum ss : Byte) : checksumOk sum ss = true ↔ (sum.toNat + ss.toNat) % 256 = 0 := by
  rw [checksumOk, decide_eq_true_iff, ← BitVec.toNat_inj, BitVec.toNat_add]
  rfl

/-- The bytes folded in two parts. -/
theorem foldData_append (xs ys : List Byte) (sum : Byte) : foldData (xs ++ ys) sum = foldData ys (foldData xs sum) :=
  List.foldl_append

theorem foldData_take_drop (data : List Byte) (n : Nat) (sum : Byte) :
    foldData (data.drop n) (foldData (data.take n) sum) = foldData data sum := by
  rw [← foldData_append, List.take_append_drop]

/-- The checksum of a whole record holds where its total is 0 modulo 256 (R98). -/
theorem recordOk_iff (tt : Byte) (r : Rec) : recordOk tt r = true ↔ recordTotal tt r % 256 = 0 := by
  rw [recordOk, checksumOk_iff, foldData_toNat, headerSum_toNat, recordTotal]
  omega

/-- The checksum of the rest of a record. -/
theorem checksumOk_rest_iff (rest : List Byte) (sum ss : Byte) : checksumOk (foldData rest sum) ss = true ↔
    (sum.toNat + (rest.map BitVec.toNat).sum + ss.toNat) % 256 = 0 := by
  rw [checksumOk_iff, foldData_toNat]
  omega

section
variable {s : State} {r : Rec}

theorem finishData_of_ok {m : Mode} {sum : Byte} (h : checksumOk sum r.ss = true) : finishData m r sum s = acceptData m r s :=
  if_pos h

theorem finishData_of_bad {m : Mode} {sum : Byte} (h : ¬ checksumOk sum r.ss = true) : finishData m r sum s = raiseChecksum r s :=
  if_neg h

/-- Step 7 in one update (R219). -/
theorem acceptData_eq (m : Mode) (r : Rec) (s : State) : acceptData m r s = { s with
    lastEnd := some (r.addr.toNat + r.data.length), count := s.count + r.data.length,
    main := emit (progressText s.cfg m (s.count + r.data.length)) ++ .micro .dataDone :: s.main } := by
  rw [acceptData, push, List.append_assoc]
  rfl

/-- A wrong checksum in one update (R216). -/
theorem raiseChecksum_eq (r : Rec) (s : State) : raiseChecksum r s = { s with
    status := .error, result := .status .error,
    main := emit (diagText s .checksum (9 + 2 * r.data.length) (10 + 2 * r.data.length)) ++ s.main } := rfl

/-! ## Step 4 in a flash pass -/

section
variable {data : List Byte} {a : Nat} {sum : Byte}

/-- All bytes in the staged page: they are staged, and the record ends. -/
theorem stageFrom_of_within (hg : Good s)
    (hp : ∀ i, i < data.length → (a + i) / s.cfg.pageSize = s.curPage ∧ a + i < s.cfg.flashSize) :
    ∃ page', storedAt s.page page' data (a % s.cfg.pageSize) ∧
      stageFrom r data a sum s = .next (finishData .flash r (foldData data sum) { s with page := page' }) := by
  have hpos : 0 < s.cfg.pageSize := Nat.lt_of_lt_of_le Nat.zero_lt_two hg.pages.1
  obtain ⟨page', hst, heq⟩ := stageBytes_within data a sum s data.length (Nat.le_refl _) hp hpos hg.page_length
  rw [List.take_length] at hst heq
  refine ⟨page', hst, ?_⟩
  rw [stageFrom, heq, List.drop_length, stageBytes]

/-- Byte `n` the first in another page: the bytes before it are staged, and the page write comes next. -/
theorem stageFrom_of_crossing {n : Nat} (hg : Good s) (hn : n < data.length)
    (hp : ∀ i, i < n → (a + i) / s.cfg.pageSize = s.curPage) (hcross : (a + n) / s.cfg.pageSize ≠ s.curPage)
    (hf : a + n < s.cfg.flashSize) :
    ∃ page', storedAt s.page page' (data.take n) (a % s.cfg.pageSize) ∧
      stageFrom r data a sum s = .next (push [.instr .writeCurrentPage, .instr .resetPage,
        .micro (.stageResume r (data.drop n) (a + n) (foldData (data.take n) sum))] { s with page := page' }) := by
  have hpos : 0 < s.cfg.pageSize := Nat.lt_of_lt_of_le Nat.zero_lt_two hg.pages.1
  obtain ⟨page', hst, heq⟩ := stageBytes_within data a sum s n (Nat.le_of_lt hn) (fun i hi => ⟨hp i hi, by omega⟩) hpos hg.page_length
  have hstop : stageBytes (data.drop n) (a + n) (foldData (data.take n) sum) { s with page := page' } =
      .crossing (data.drop n) (a + n) (foldData (data.take n) sum) { s with page := page' } := by
    rw [List.drop_eq_getElem_cons hn, stageBytes, if_neg (addressInside (s := { s with page := page' }) hf)]
    exact if_neg hcross
  refine ⟨page', hst, ?_⟩
  rw [stageFrom, heq, hstop]

theorem stageFrom_of_outside {n : Nat} (hn : n < data.length) (hp : ∀ i, i < n → (a + i) / s.cfg.pageSize = s.curPage)
    (hf : s.cfg.flashSize ≤ a + n) : stageFrom r data a sum s = .refused .outsideFlash := by
  rw [stageFrom, stageBytes_outside data a sum s n hn hp hf]

theorem stageResume_of_inside (ha : a < s.cfg.flashSize) :
    stageResume r data a sum s = stageFrom r data a sum { s with curPage := pageOf s.cfg a } :=
  if_pos ((inFlash_eq_true_iff _ _).2 ha)

theorem exec_recDataFlash_of_accepted (h : addressAccepted s r) :
    exec (.recDataFlash r) s = stageFrom r r.data r.addr.toNat (headerSum 0x00 r) s := by
  rw [exec, execRecDataFlash, addressFault_of_accepted h]

/-- The rest of a record after a page write, all of it in one page of the flash. -/
theorem runMicro_stageResume_of_within (hg : Good s) (ha : a < s.cfg.flashSize)
    (hp : ∀ i, i < data.length → (a + i) / s.cfg.pageSize = a / s.cfg.pageSize ∧ a + i < s.cfg.flashSize) :
    ∃ page', storedAt s.page page' data (a % s.cfg.pageSize) ∧ runMicro (.stageResume r data a sum) s =
      .next (finishData .flash r (foldData data sum) { s with curPage := a / s.cfg.pageSize, page := page' }) := by
  obtain ⟨page', hst, heq⟩ := stageFrom_of_within (r := r) (sum := sum)
    (hg.setCurPage ((inFlash_eq_true_iff _ _).2 ha)) hp
  exact ⟨page', hst, (stageResume_of_inside ha).trans heq⟩

end

/-- Settles O37: the address test fails before any byte is looked at, in both modes. -/
theorem addressFaultsEndThePass : Obligations.AddressFaultsEndThePass := by
  intro r s i hi
  have hexec : ∀ cause, addressFault s.lastEnd r.addr.toNat = some cause → exec i s = .next (raiseFault cause 3 6 s) := by
    intro cause hc
    obtain rfl | rfl := hi
    · rw [exec, execRecDataFlash, hc]
    · rw [exec, execRecDataVerify, hc]
  refine ⟨fun hnone hne => hexec _ ?_, fun e hsome hlt => hexec _ ?_⟩
  · rw [hnone, addressFault_none, if_neg hne]
  · rw [hsome, addressFault_some, if_pos hlt]

/-- Settles O38: all bytes are staged (`stageFrom_of_within`) and the checksum holds. -/
theorem dataRecordIsStagedInThePage : Obligations.DataRecordIsStagedInThePage := by
  intro r s hg hacc htotal hp
  refine ⟨?_, rfl⟩
  obtain ⟨page', hst, heq⟩ := stageFrom_of_within (r := r) (sum := headerSum 0x00 r) hg hp
  refine ⟨page', ?_, hst⟩
  rw [exec_recDataFlash_of_accepted hacc, heq, finishData_of_ok ((recordOk_iff 0x00 r).2 htotal), acceptData_eq]

/-- Settles O39: the crossing is `stageFrom_of_crossing`, from the record's start and from where it goes on. -/
theorem dataRecordCrossesAPage : Obligations.DataRecordCrossesAPage := by
  refine ⟨fun r s n hg hacc hn hp hcross hf => ?_, fun r s rest a sum hg ha hp hsum => ?_,
    fun r s rest a sum n hg hn hp hcross hf => ?_⟩
  · obtain ⟨page', hst, heq⟩ := stageFrom_of_crossing (r := r) (sum := headerSum 0x00 r) hg hn hp hcross hf
    refine ⟨page', _, (exec_recDataFlash_of_accepted hacc).trans heq, hst, ?_⟩
    rw [foldData_toNat, headerSum_toNat, Nat.mod_add_mod]
    rfl
  · obtain ⟨page', hst, heq⟩ := runMicro_stageResume_of_within (r := r) (sum := sum) hg ha hp
    refine ⟨page', ?_, hst⟩
    rw [heq, finishData_of_ok ((checksumOk_rest_iff rest sum r.ss).2 hsum), acceptData_eq]
  · have ha : a < s.cfg.flashSize := by omega
    obtain ⟨page', hst, heq⟩ := stageFrom_of_crossing (r := r) (sum := sum) (hg.setCurPage ((inFlash_eq_true_iff _ _).2 ha)) hn hp
      hcross hf
    exact ⟨page', _, (stageResume_of_inside ha).trans heq, hst, foldData_toNat _ _⟩

/-! ## Step 4 in a verify pass -/

section
variable {data : List Byte} {a i : Nat} {sum : Byte}

/-- One byte equal to the flash. -/
theorem compareBytes_cons_of_equal {d : Byte} {ds : List Byte} (hr : s.rwwOk = true) (ho : s.flashOp = none)
    (hf : a < s.cfg.flashSize) (heq : Memory.read s.flash a = d) :
    compareBytes (d :: ds) a i sum s = compareBytes ds (a + 1) (i + 1) (sum + d) s := by
  rw [compareBytes, if_neg (addressInside hf), memRead_readable a s hr ho, if_pos heq]

/-- The first `n` bytes equal to a readable flash: the comparison goes on after them. -/
theorem compareBytes_of_equal (hr : s.rwwOk = true) (ho : s.flashOp = none) (n : Nat) (hn : n ≤ data.length)
    (hp : ∀ j, j < n → a + j < s.cfg.flashSize ∧ Memory.read s.flash (a + j) = data.getD j 0) :
    compareBytes data a i sum s = compareBytes (data.drop n) (a + n) (i + n) (foldData (data.take n) sum) s := by
  induction n generalizing data a i sum with
  | zero => rfl
  | succ n ih =>
    cases data with
    | nil => exact absurd hn (Nat.not_succ_le_zero n)
    | cons d ds =>
      have hfirst := hp 0 (Nat.succ_pos n)
      rw [Nat.add_zero, List.getD_cons_zero] at hfirst
      obtain ⟨hf, heq⟩ := hfirst
      rw [compareBytes_cons_of_equal hr ho hf heq, ih (Nat.le_of_succ_le_succ hn) fun j hj => ?_, Nat.add_assoc a, Nat.add_assoc i,
        Nat.add_comm 1 n]
      · rfl
      · have hnext := hp (j + 1) (Nat.succ_lt_succ hj)
        rwa [List.getD_cons_succ, Nat.add_comm j 1, ← Nat.add_assoc] at hnext

theorem compareBytes_all_equal (hr : s.rwwOk = true) (ho : s.flashOp = none)
    (hp : ∀ j, j < data.length → a + j < s.cfg.flashSize ∧ Memory.read s.flash (a + j) = data.getD j 0) :
    compareBytes data a i sum s = .equal (foldData data sum) s := by
  rw [compareBytes_of_equal hr ho data.length (Nat.le_refl _) hp, List.drop_length, List.take_length, compareBytes]

/-- The bytes before one inside the flash lie inside it too, so that the comparison reaches it. -/
theorem compareBytes_of_mismatch {n : Nat} (hr : s.rwwOk = true) (ho : s.flashOp = none) (hn : n < data.length)
    (hp : ∀ j, j < n → Memory.read s.flash (a + j) = data.getD j 0) (hf : a + n < s.cfg.flashSize)
    (hne : Memory.read s.flash (a + n) ≠ data.getD n 0) : compareBytes data a i sum s = .mismatch (i + n) s := by
  rw [compareBytes_of_equal hr ho n (Nat.le_of_lt hn) fun j hj => ⟨by omega, hp j hj⟩, List.drop_eq_getElem_cons hn, compareBytes,
    if_neg (addressInside hf), memRead_readable _ s hr ho, if_neg]
  rwa [List.getD_eq_getElem _ _ hn] at hne

/-- A byte outside the flash, after bytes equal to it, is refused (U3). -/
theorem compareBytes_of_outside {n : Nat} (hr : s.rwwOk = true) (ho : s.flashOp = none) (hn : n < data.length)
    (hp : ∀ j, j < n → Memory.read s.flash (a + j) = data.getD j 0) (hf : s.cfg.flashSize ≤ a + n) :
    compareBytes data a i sum s = .outside := by
  induction n generalizing data a i sum with
  | zero =>
    cases data with
    | nil => exact absurd hn (Nat.not_lt_zero 0)
    | cons d ds => rw [compareBytes, if_pos (addressOutside (a := a) hf)]
  | succ n ih =>
    cases data with
    | nil => exact absurd hn (Nat.not_lt_zero _)
    | cons d ds =>
      by_cases ha : a < s.cfg.flashSize
      · have heq := hp 0 (Nat.succ_pos n)
        rw [Nat.add_zero, List.getD_cons_zero] at heq
        rw [compareBytes_cons_of_equal hr ho ha heq]
        refine ih (Nat.lt_of_succ_lt_succ hn) (fun j hj => ?_) (by omega)
        have hnext := hp (j + 1) (Nat.succ_lt_succ hj)
        rwa [List.getD_cons_succ, Nat.add_comm j 1, ← Nat.add_assoc] at hnext
      · rw [compareBytes, if_pos (addressOutside (Nat.le_of_not_lt ha))]

end

theorem exec_recDataVerify_of_equal (hr : s.rwwOk = true) (ho : s.flashOp = none) (hacc : addressAccepted s r)
    (hp : ∀ i, i < r.data.length → r.addr.toNat + i < s.cfg.flashSize ∧
      Memory.read s.flash (r.addr.toNat + i) = r.data.getD i 0) :
    exec (.recDataVerify r) s = .next (finishData .verify r (foldData r.data (headerSum 0x00 r)) s) := by
  rw [exec, execRecDataVerify, addressFault_of_accepted hacc]
  simp only [compareBytes_all_equal hr ho hp]

/-- Settles O40: all bytes equal (`compareBytes_all_equal`), and the first that differs (`compareBytes_of_mismatch`). -/
theorem verifyComparesEveryByte : Obligations.VerifyComparesEveryByte := by
  intro r s hr ho hacc
  refine ⟨fun htotal hp => ?_, fun n hn hp hf hne => ?_⟩
  · rw [exec_recDataVerify_of_equal hr ho hacc hp, finishData_of_ok ((recordOk_iff 0x00 r).2 htotal), acceptData_eq]
  · rw [exec, execRecDataVerify, addressFault_of_accepted hacc]
    simp only [compareBytes_of_mismatch hr ho hn hp hf hne, Nat.zero_add]
    rfl

/-- Settles O42: the first byte outside the flash is refused where it is reached, in both modes and after a page write. -/
theorem dataOutsideTheFlashIsRefused : Obligations.DataOutsideTheFlashIsRefused := by
  intro r s n hacc hn hf
  refine ⟨fun hp => ?_, fun hr ho hp => ?_, fun rest a sum k hk hp hfk => ?_⟩
  · rw [exec_recDataFlash_of_accepted hacc]
    exact stageFrom_of_outside hn hp hf
  · rw [exec, execRecDataVerify, addressFault_of_accepted hacc]
    simp only [compareBytes_of_outside hr ho hn hp hf]
  · by_cases ha : a < s.cfg.flashSize
    · exact (stageResume_of_inside ha).trans (stageFrom_of_outside hk hp hfk)
    · exact if_neg (mt (inFlash_eq_true_iff _ _).1 ha)

/-! ## The other records -/

theorem exec_recEofFlash_of_ok (h : recordTotal 1 r % 256 = 0) : exec (.recEofFlash r) s =
    .next (push [.instr .writeCurrentPage, .instr .resetPage, .instr .rwwReenable, .micro .eofDone] s) :=
  if_pos ((recordOk_iff 0x01 r).2 h)

/-- Settles O43: the branch of each record with its total 0 modulo 256, and the end of the end-of-file record. -/
theorem endOfFileAndOtherRecords : Obligations.EndOfFileAndOtherRecords :=
  fun r _ => ⟨exec_recEofFlash_of_ok, rfl, fun h => if_pos ((recordOk_iff 0x01 r).2 h),
    fun tt h => if_pos ((recordOk_iff tt r).2 h)⟩

/-! ## Runs -/

/-- The end-of-file record of a flash pass, run to its end (R217). -/
theorem steps_recEofFlash {k : List Task} (hg : Good s) (ha : Alone s) (ho : s.flashOp = none)
    (htotal : recordTotal 1 r % 256 = 0) (hm : s.main = .instr (.recEofFlash r) :: k) :
    ∃ n flash' ftemp' count', steps n s = .next { s with
      main := k, flash := flash', ftemp := ftemp', freeCount := count', flashSession := none, rwwOk := true,
      page := List.replicate s.cfg.pageSize 0xFF, curPage := 0, lastEnd := none, status := .ok, result := .status .ok } ∧
      PageHolds s.cfg s.curPage s.page s.flash flash' := by
  have hstart : step s = .next { s with
      main := .instr .writeCurrentPage :: .instr .resetPage :: .instr .rwwReenable :: .micro .eofDone :: k } :=
    (step_task ha hm (.inl nofun)).trans (exec_recEofFlash_of_ok htotal)
  obtain ⟨n, flash', ftemp', count', hwrite, hholds⟩ := steps_pageWrite
    (s := { s with main := .instr .writeCurrentPage :: .instr .resetPage :: .instr .rwwReenable :: .micro .eofDone :: k })
    (k := .instr .resetPage :: .instr .rwwReenable :: .micro .eofDone :: k) { hg with } ⟨ha.env, ha.handler, ha.held⟩ ho rfl
  have henable := steps_rwwReenable (k := .micro .eofDone :: k)
    (s := { s with
      main := .instr .rwwReenable :: .micro .eofDone :: k, flash := flash', ftemp := ftemp', freeCount := count',
      flashSession := none, rwwOk := false, page := List.replicate s.cfg.pageSize 0xFF })
    ⟨ha.env, ha.handler, ha.held⟩ ho rfl
  refine ⟨n + 7 + 1, flash', ftemp', count', (steps_cons hstart).trans ((steps_add hwrite).trans ?_), hholds⟩
  refine (steps_cons (step_task (t := .instr .resetPage) (k := .instr .rwwReenable :: .micro .eofDone :: k)
    (by exact ⟨ha.env, ha.handler, ha.held⟩) rfl (.inl nofun))).trans ?_
  refine (steps_add (n := 1) henable).trans ?_
  exact steps_cons (step_task (t := .micro .eofDone) (k := k) (by exact ⟨ha.env, ha.handler, ha.held⟩) rfl (.inl nofun))

/-- Settles O44: the run of `steps_recEofFlash`. -/
theorem endOfFileMakesTheFlashReadable : Obligations.EndOfFileMakesTheFlashReadable := by
  intro r s k hg htotal henv hin hheld ho hm
  obtain ⟨n, flash', ftemp', count', hrun, hholds⟩ := steps_recEofFlash hg ⟨henv, hin, hheld⟩ ho htotal hm
  exact ⟨n, _, hrun, rfl, hholds⟩

/-- A run keeps a good state good. -/
theorem Good.steps {t : State} {n : Nat} (hg : Good s) (h : steps n s = .next t) : Good t := by
  induction n generalizing t with
  | zero =>
    cases h
    exact hg
  | succ n ih =>
    obtain ⟨u, hu, hstep⟩ := steps_succ h
    exact everyStepKeepsGoodStates u t (ih hu) hstep

/-- The first page crossing of a data record, up to where the record goes on in the new page. -/
theorem steps_crossing {k : List Task} {n : Nat} (hg : Good s) (ha : Alone s) (ho : s.flashOp = none)
    (hm : s.main = .instr (.recDataFlash r) :: k) (hacc : addressAccepted s r) (hn : n < r.data.length)
    (hp : ∀ i, i < n → (r.addr.toNat + i) / s.cfg.pageSize = s.curPage)
    (hcross : (r.addr.toNat + n) / s.cfg.pageSize ≠ s.curPage) (hf : r.addr.toNat + n < s.cfg.flashSize) :
    ∃ m page' flash' ftemp' count', storedAt s.page page' (r.data.take n) (r.addr.toNat % s.cfg.pageSize) ∧
      PageHolds s.cfg s.curPage page' s.flash flash' ∧ steps m s = .next { s with
        main := .micro (.stageResume r (r.data.drop n) (r.addr.toNat + n) (foldData (r.data.take n) (headerSum 0x00 r))) :: k
        page := List.replicate s.cfg.pageSize 0xFF, flash := flash', ftemp := ftemp', freeCount := count', flashSession := none,
        rwwOk := false } := by
  obtain ⟨page', hst, heq⟩ := stageFrom_of_crossing (s := { s with main := k }) (r := r) (sum := headerSum 0x00 r) { hg with } hn hp
    hcross hf
  generalize Micro.stageResume r (r.data.drop n) (r.addr.toNat + n) (foldData (r.data.take n) (headerSum 0x00 r)) = resume
    at heq ⊢
  have hstart : step s = .next { s with
      main := .instr .writeCurrentPage :: .instr .resetPage :: .micro resume :: k, page := page' } :=
    (step_task ha hm (.inl nofun)).trans ((exec_recDataFlash_of_accepted (s := { s with main := k }) hacc).trans heq)
  obtain ⟨m, flash', ftemp', count', hwrite, hholds⟩ := steps_pageWrite
    (s := { s with main := .instr .writeCurrentPage :: .instr .resetPage :: .micro resume :: k, page := page' })
    (k := .instr .resetPage :: .micro resume :: k) { Good.setPage (s := s) hst.1 hg with } ⟨ha.env, ha.handler, ha.held⟩ ho rfl
  exact ⟨m + 1 + 1, page', flash', ftemp', count', hst, hholds, (steps_cons hstart).trans ((steps_add hwrite).trans
    (steps_cons (step_task (t := .instr .resetPage) (k := .micro resume :: k) (by exact ⟨ha.env, ha.handler, ha.held⟩) rfl
      (.inl nofun))))⟩

/-- The staged page of a record that crosses, in flash addresses: the record's leading bytes, and the other bytes of the Page Buffer. -/
theorem byteOf_stored_page {page page' data : List Byte} {addr n base size x : Nat} (hn : n ≤ data.length)
    (hbase : 0 < n → addr = base + addr % size) (hst : storedAt page page' (data.take n) (addr % size)) (hx : base ≤ x) :
    byteOf page' (x - base) = if addr ≤ x ∧ x < addr + n then data.getD (x - addr) 0 else byteOf page (x - base) := by
  rw [hst.2, List.length_take_of_le hn]
  obtain rfl | hpos := Nat.eq_zero_or_pos n
  · rw [if_neg (by omega), if_neg (by omega)]
  · have haddr := hbase hpos
    by_cases hin : addr ≤ x ∧ x < addr + n
    · rw [if_pos (by omega), if_pos hin, show x - base - addr % size = x - addr by omega, List.getD_eq_getElem?_getD,
        List.getElem?_take_of_lt (by omega), ← List.getD_eq_getElem?_getD]
    · rw [if_neg (by omega), if_neg hin]

/-- A record with a wrong checksum that crosses one page, run from its start to the fault (R216, R336). -/
theorem steps_wrongChecksum {k : List Task} {n : Nat} (hg : Good s) (ha : Alone s) (ho : s.flashOp = none)
    (hm : s.main = .instr (.recDataFlash r) :: k) (hacc : addressAccepted s r) (htotal : recordTotal 0 r % 256 ≠ 0)
    (hn : n < r.data.length) (hp : ∀ i, i < n → (r.addr.toNat + i) / s.cfg.pageSize = s.curPage)
    (hcross : (r.addr.toNat + n) / s.cfg.pageSize ≠ s.curPage)
    (hrest : ∀ i, n ≤ i → i < r.data.length →
      (r.addr.toNat + i) / s.cfg.pageSize = (r.addr.toNat + n) / s.cfg.pageSize ∧ r.addr.toNat + i < s.cfg.flashSize) :
    ∃ m page' flash' ftemp' count' newPage, storedAt s.page page' (r.data.take n) (r.addr.toNat % s.cfg.pageSize) ∧
      PageHolds s.cfg s.curPage page' s.flash flash' ∧
      storedAt (List.replicate s.cfg.pageSize 0xFF) newPage (r.data.drop n) ((r.addr.toNat + n) % s.cfg.pageSize) ∧
      steps m s = .next { s with
        main := emit (diagText s .checksum (9 + 2 * r.data.length) (10 + 2 * r.data.length)) ++ k
        flash := flash', ftemp := ftemp', freeCount := count', flashSession := none, rwwOk := false
        page := newPage, curPage := (r.addr.toNat + n) / s.cfg.pageSize, status := .error, result := .status .error } := by
  have hf := (hrest n (Nat.le_refl n) hn).2
  obtain ⟨m, page', flash', ftemp', count', hst, hholds, hrun⟩ := steps_crossing hg ha ho hm hacc hn hp hcross hf
  generalize hsum : foldData (r.data.take n) (headerSum 0x00 r) = sum at hrun
  obtain ⟨newPage, hnew, hresume⟩ := runMicro_stageResume_of_within (r := r) (data := r.data.drop n) (a := r.addr.toNat + n)
    (sum := sum)
    (s := { s with
      main := k, page := List.replicate s.cfg.pageSize 0xFF, flash := flash', ftemp := ftemp', freeCount := count',
      flashSession := none, rwwOk := false })
    { hg.steps hrun with } hf (fun i hi => by
      rw [List.length_drop] at hi
      rw [Nat.add_assoc]
      exact hrest (n + i) (Nat.le_add_right n i) (by omega))
  have hbad : ¬ checksumOk (foldData (r.data.drop n) sum) r.ss = true := by
    rw [← hsum, foldData_take_drop]
    exact mt (recordOk_iff 0x00 r).1 htotal
  rw [finishData_of_bad hbad, raiseChecksum_eq] at hresume
  refine ⟨m + 1, page', flash', ftemp', count', newPage, hst, hholds, hnew, (steps_add hrun).trans ?_⟩
  exact steps_cons ((step_task (t := .micro (.stageResume r (r.data.drop n) (r.addr.toNat + n) sum)) (k := k)
    (by exact ⟨ha.env, ha.handler, ha.held⟩) rfl (.inl nofun)).trans hresume)

end

/-- Settles O41: the checksum fails for each type of record; the run is `steps_wrongChecksum`. -/
theorem wrongChecksumEndsThePass : Obligations.WrongChecksumEndsThePass := by
  intro r s
  have hbad : ∀ tt, recordTotal tt r % 256 ≠ 0 → ¬ recordOk tt r = true := fun tt h => mt (recordOk_iff tt r).1 h
  refine ⟨fun i hi htotal => ?_, fun tt htotal => if_neg (hbad tt htotal), fun hr ho hacc htotal hp => ?_,
    fun hg hacc htotal hp => ?_, fun rest a sum hg ha hp htotal => ?_,
    fun n k hg hacc htotal hn hp hcross hrest henv hin hheld ho hm => ?_⟩
  · obtain rfl | rfl := hi <;> exact if_neg (hbad 1 htotal)
  · rw [exec_recDataVerify_of_equal hr ho hacc hp, finishData_of_bad (hbad 0 htotal), raiseChecksum_eq]
  · obtain ⟨page', hst, heq⟩ := stageFrom_of_within (r := r) (sum := headerSum 0x00 r) hg hp
    refine ⟨page', ?_, hst⟩
    rw [exec_recDataFlash_of_accepted hacc, heq, finishData_of_bad (hbad 0 htotal), raiseChecksum_eq]
    rfl
  · obtain ⟨page', hst, heq⟩ := runMicro_stageResume_of_within (r := r) (sum := sum) hg ha hp
    refine ⟨page', ?_, hst⟩
    rw [heq, finishData_of_bad (mt (checksumOk_rest_iff rest sum r.ss).1 htotal), raiseChecksum_eq]
    rfl
  · obtain ⟨m, page', flash', ftemp', count', newPage, hst, hholds, hnew, hrun⟩ := steps_wrongChecksum hg ⟨henv, hin, hheld⟩ ho hm hacc
      htotal hn hp hcross hrest
    refine ⟨m, _, hrun, rfl, hnew, fun x => (hholds x).trans ?_⟩
    have hbase : 0 < n → r.addr.toNat = s.curPage * s.cfg.pageSize + r.addr.toNat % s.cfg.pageSize := fun hpos => by
      rw [← hp 0 hpos, Nat.add_zero, Nat.mul_comm, Nat.div_add_mod]
    split
    · rename_i hx
      exact byteOf_stored_page (Nat.le_of_lt hn) hbase hst hx.1
    · rfl

end Sys2Proof.Machine
end
